-- ==== Sys2Proof/Word.lean ====
section
/-! DEFINITION. The words of the block: byte, accumulator word, command word (00_scope.md R5, R6). -/

namespace Sys2Proof

/-- One cell of `BUF` (10_state.md R29). -/
abbrev Byte := BitVec 8

/-- The contents of `ACC`: `ACC_BITS` = 32 (00_scope.md R5). -/
abbrev Word32 := BitVec 32

/-- A command word: `CMD_BITS` = 64 (00_scope.md R5, 30_encoding.md R60). -/
abbrev CommandWord := BitVec 64

end Sys2Proof
end

