-- ==== Sys2Proof/Config.lean ====
section
/-! DEFINITION. The parameters of the block (00_scope.md R5), one field of `Config` for each, and the free values. -/

namespace Sys2Proof

/-- `BIT_ORDER` (R5): which bit of a byte bit-in-byte index 0 names. "Fixed, not switchable": there is one value. -/
inductive BitOrder where
  /-- Index 0 is mask 0x80, index 7 is mask 0x01. -/
  | msbFirst
deriving DecidableEq, Repr

/-- `VALUE_ORDER` (R5): which value bit is stored at the lowest bit index of a field. "Fixed": there is one value. -/
inductive ValueOrder where
  /-- Value bit `j` is at bit index `A + j`. -/
  | lsbFirst
deriving DecidableEq, Repr

/-- `S16_ORDER` (R5): byte order of a Sample16 pair. "Fixed": there is one value. -/
inductive ByteOrder where
  /-- High byte first. -/
  | bigEndian
deriving DecidableEq, Repr

/-- A binary floating-point format with one sign bit, `expBits` exponent bits and `fracBits` fraction bits, computed in
to nearest even with one rounding per operation. -/
structure FloatFormat where
  expBits  : Nat
  fracBits : Nat
deriving DecidableEq, Repr

/-- IEEE 754 binary32 (42_quantizer.md R110, R122, D13). -/
def FloatFormat.binary32 : FloatFormat := { expBits := 8, fracBits := 23 }

/-- The parameters of the block, "each named parameter as a configuration field" (R5), in the order of its table. The
definitions of the model take what they need from here; `Config.ofSize` is the one place that gives values. -/
structure Config where
  /-- `BIT_ORDER` -/
  bitOrder : BitOrder
  /-- `VALUE_ORDER` -/
  valueOrder : ValueOrder
  /-- `S16_ORDER` -/
  s16Order : ByteOrder
  /-- `S12_BITS`, width of a modem-link sample. -/
  s12Bits : Nat
  /-- `S16_BITS`, width of a network-link sample. -/
  s16Bits : Nat
  /-- `GROUP_BYTES`, bytes of a modem group. -/
  groupBytes : Nat
  /-- `GROUP_SAMPLES`, samples of a modem group. -/
  groupSamples : Nat
  /-- `K16`, scale constant of the 16-bit path. -/
  k16 : Nat
  /-- `K12`, scale constant of the 12-bit path. -/
  k12 : Nat
  /-- `OFF12`, offset of the 12-bit path. -/
  off12 : Nat
  /-- `MAX_SAMPLES`, samples per bridge call. -/
  maxSamples : Nat
  /-- `MDM_MAX_BYTES`, modem bytes per `writeModem` call. -/
  mdmMaxBytes : Nat
  /-- `NET_OUT_CAP`, working storage of the host for 16-bit encoding; "not protocol limits", it bounds nothing a program
  can observe (90_conflicts.md C5), so nothing reads it. -/
  netOutCap : Nat
  /-- `NET_IN_REQ`, bytes requested from the network per `readModem` call. -/
  netInReq : Nat
  /-- `NET_IN_CAP`, working storage of the host for network input; as `netOutCap` (C5). -/
  netInCap : Nat
  /-- `BUF_BYTES`, size of the byte buffer: the one parameter the model takes as an argument (D4, OPEN). -/
  bufBytes : Nat
  /-- `ACC_BITS`, accumulator width: the width of the type `Word32`, which is written out. -/
  accBits : Nat
  /-- `FIELD_MAX`, largest field width `W`. -/
  fieldMax : Nat
  /-- `FP`, the float format and its arithmetic (D13: "so a model can substitute another format"). -/
  fp : FloatFormat
  /-- `CMD_BITS`, command word length: the width of the type `CommandWord`, which is written out. -/
  cmdBits : Nat
deriving DecidableEq, Repr

namespace Config

/-- The block of R5 with a buffer of the given size: every other parameter at the value the spec fixes. -/
def ofSize (bufBytes : Nat) : Config :=
  { bitOrder := .msbFirst, valueOrder := .lsbFirst, s16Order := .bigEndian, s12Bits := 12, s16Bits := 16,
    groupBytes := 3, groupSamples := 2, k16 := 32767, k12 := 2048, off12 := 2048, maxSamples := 170,
    mdmMaxBytes := 255, netOutCap := 350, netInReq := 270, netInCap := 300, bufBytes := bufBytes, accBits := 32,
    fieldMax := 32, fp := .binary32, cmdBits := 64 }

/-- Smallest `BUF_BYTES`: one modem group (R5, D4). -/
abbrev bufBytesMin : Nat := 3

/-- Largest `BUF_BYTES`: the largest size whose every bit index fits the `A` field (R5, D4). -/
abbrev bufBytesMax : Nat := 8192

/-- `BUF_BYTES` at its default (R5). -/
abbrev bufBytesDefault : Nat := 1024

/-- Largest Sample12, "valid range [0, 4095]" (R9, R112). -/
def sample12Max (c : Config) : Nat := 2 ^ c.s12Bits - 1

/-- Largest Sample16, "valid range [0, 65535]" (R9, R114). -/
def sample16Max (c : Config) : Nat := 2 ^ c.s16Bits - 1

/-- Largest integer FTOS12 answers, 4096, "a 13-bit value": the formula gives it inside the documented domain (R113,
D14). -/
def ftos12Max (c : Config) : Nat := 2 ^ c.s12Bits

/-- Largest integer FTOS16 answers, 65535: what fits 16 bits (R115, D14). -/
def ftos16Max (c : Config) : Nat := 2 ^ c.s16Bits - 1

/-- FREE VALUE (log 2). The content of the byte at an address of `BUF` after the reset numbered by the first argument
(10_state.md R30: "each byte an unknown value, fixed for the run"). Nothing constrains it. -/
opaque resetByte : Nat → Nat → Byte

/-- FREE VALUE (log 9). The pattern an invalid float operation answers. No command reaches one (42_quantizer.md R122:
"no rule of this file ever produces a NaN, so no canonical NaN is needed"). -/
opaque nanPattern : Word32

end Config
end Sys2Proof
end

