-- ==== Sys2Proof/Syntax.lean ====
section
/-! DEFINITION. The sixteen commands (30_encoding.md R64), one constructor per row of spec/opcode_table.json. -/

namespace Sys2Proof

/-- A command of the block. The operands are the fields of the command word at their own widths (30_encoding.md R60,
R62): `a` is the 16-bit `A` field, `w` the 8-bit `W` field, `d` the 32-bit `D` field. So every value the encoding admits
can be written and no other can; a width of 0 or above 32 is a legal encoding that faults when it executes (R65). -/
inductive Instr where
  /-- NOP (44_control.md R150) -/
  | nop
  /-- LDI `D` (R151) -/
  | ldi (d : BitVec 32)
  /-- SETEN (R152) -/
  | seten
  /-- TICK (R153) -/
  | tick
  /-- RDBIT `A` (40_bitfield.md R83) -/
  | rdbit (a : BitVec 16)
  /-- WRBIT `A` (R86) -/
  | wrbit (a : BitVec 16)
  /-- RDFLD `A`, `W` (R84) -/
  | rdfld (a : BitVec 16) (w : BitVec 8)
  /-- WRFLD `A`, `W` (R85) -/
  | wrfld (a : BitVec 16) (w : BitVec 8)
  /-- LDB `A` (41_byte_access.md R100) -/
  | ldb (a : BitVec 16)
  /-- STB `A` (R101) -/
  | stb (a : BitVec 16)
  /-- LDH `A` (R102) -/
  | ldh (a : BitVec 16)
  /-- STH `A` (R103) -/
  | sth (a : BitVec 16)
  /-- S12TOF (42_quantizer.md R112) -/
  | s12tof
  /-- FTOS12 (R113) -/
  | ftos12
  /-- S16TOF (R114) -/
  | s16tof
  /-- FTOS16 (R115) -/
  | ftos16
deriving DecidableEq, Repr

end Sys2Proof
end

