-- ==== Sys2Proof/AsmSyntax.lean ====
section
/-! DEFINITION. The abstract syntax of the spec's assembler: mnemonics, command lines (30_encoding.md R68) and
pseudo-instructions (R69). -/

namespace Sys2Proof

/-- The sixteen mnemonics of the opcode map (30_encoding.md R64). -/
inductive Mnemonic where
  | nop | ldi | seten | tick
  | rdbit | wrbit | rdfld | wrfld
  | ldb | stb | ldh | sth
  | s12tof | ftos12 | s16tof | ftos16
deriving DecidableEq, Repr

namespace Mnemonic

/-- Does the command have `W` as an operand (R64)? Where it does not, the field must be zero. -/
def usesW : Mnemonic → Bool
  | .rdfld | .wrfld => true
  | .nop | .ldi | .seten | .tick | .rdbit | .wrbit | .ldb | .stb | .ldh | .sth
  | .s12tof | .ftos12 | .s16tof | .ftos16 => false

/-- Does the command have `A` as an operand (R64)? -/
def usesA : Mnemonic → Bool
  | .rdbit | .wrbit | .rdfld | .wrfld | .ldb | .stb | .ldh | .sth => true
  | .nop | .ldi | .seten | .tick | .s12tof | .ftos12 | .s16tof | .ftos16 => false

/-- Does the command have `D` as an operand (R64)? -/
def usesD : Mnemonic → Bool
  | .ldi => true
  | .nop | .seten | .tick | .rdbit | .wrbit | .rdfld | .wrfld | .ldb | .stb | .ldh | .sth
  | .s12tof | .ftos12 | .s16tof | .ftos16 => false

/-- For each operand of a command line, address first (R68), the first number too large for its field. -/
def operandBounds (m : Mnemonic) : List Nat :=
  (if m.usesA then [2 ^ 16] else []) ++ (if m.usesW then [2 ^ 8] else []) ++ (if m.usesD then [2 ^ 32] else [])

end Mnemonic

/-- A command line: a mnemonic and its operands as written, address first (R68). -/
structure AsmLine where
  mnemonic : Mnemonic
  operands : List Nat
deriving DecidableEq, Repr

/-- A decimal literal: `digits / 10 ^ scale`, negated if `neg` (the operand of LDF, R69; log 14). -/
structure DecimalLiteral where
  neg    : Bool
  digits : Nat
  scale  : Nat
deriving DecidableEq, Repr

/-- A pseudo-instruction (R69). None has an encoding of its own. -/
inductive Pseudo where
  /-- `RD12 A` -/
  | rd12 (a : Nat)
  /-- `WR12 A` -/
  | wr12 (a : Nat)
  /-- `LDF x` -/
  | ldf (x : DecimalLiteral)
  /-- `SETB 0` or `SETB 1` -/
  | setb (b : Bool)
  /-- `ENABLE b`, the document's `enable(b)` -/
  | enable (b : Bool)
  /-- `CLOCK ms`, the document's `clock(ms)` -/
  | clock (ms : Nat)
  /-- `S12TOS16` -/
  | s12tos16
  /-- `S16TOS12` -/
  | s16tos12
  /-- `M2N MB, NB, n`: the data path of `writeModem` (43_bridge_sequences.md R133) -/
  | m2n (mb nb n : Nat)
  /-- `N2M NB, MB, k`: the data path of `readModem` (R136) -/
  | n2m (nb mb k : Nat)
deriving DecidableEq, Repr

end Sys2Proof
end

