-- ==== Sys2Proof/WellFormed.lean ====
section
/-! DEFINITION. Well-formedness: of the configuration (00_scope.md R5), of a command line (30_encoding.md R68, R71) and
of a pseudo-instruction with the preconditions of the two bridge calls (43_bridge_sequences.md R133, R135, R136).

A term of `Instr` needs no check: its operands have the widths of the fields they stand in, so an operand that does not
fit its field cannot be written. -/

namespace Sys2Proof

/-- `BUF_BYTES` is in its range, 3 to 8192 (R5, D4), and every other parameter has the value R5 fixes. -/
def Config.wellFormed (c : Config) : Bool :=
  decide (Config.bufBytesMin ≤ c.bufBytes) && decide (c.bufBytes ≤ Config.bufBytesMax) &&
    decide (c = Config.ofSize c.bufBytes)

/-- As many operands as bounds, each below its bound. -/
def operandsFit : List Nat → List Nat → Bool
  | [], [] => true
  | bound :: bounds, x :: xs => decide (x < bound) && operandsFit bounds xs
  | [], _ :: _ => false
  | _ :: _, [] => false

/-- A command line has exactly its row's operands and each fits its field (R60, R62, R68). -/
def AsmLine.wellFormed (l : AsmLine) : Bool := operandsFit l.mnemonic.operandBounds l.operands

/-- The `n` bytes from `a` lie inside `BUF`; an empty region does so trivially. -/
def regionInside (c : Config) (a n : Nat) : Bool := decide (n = 0) || decide (a + n ≤ c.bufBytes)

/-- The `n` bytes from `a` and the `m` bytes from `b` do not overlap. -/
def regionsDisjoint (a n b m : Nat) : Bool := decide (a + n ≤ b) || decide (b + m ≤ a)

/-- Bytes of a Sample16 on the network: a byte pair (R5 `S16_BITS`, R42). -/
def Config.pairBytes (c : Config) : Nat := c.s16Bits / 8

/-- Samples that M2N makes of `n` modem bytes: `2n/3` (R133). -/
def m2nSamples (c : Config) (n : Nat) : Nat := c.groupSamples * n / c.groupBytes

/-- Network bytes that M2N makes of `n` modem bytes: a pair for each sample, `4n/3` for whole groups (R133). -/
def m2nNetBytes (c : Config) (n : Nat) : Nat := c.pairBytes * m2nSamples c n

/-- Samples that N2M makes of `k` network bytes: `k/2` (R136). -/
def n2mSamples (c : Config) (k : Nat) : Nat := k / c.pairBytes

/-- Bytes that `s` packed 12-bit samples touch: `ceil(12 * s / 8)` (R132, R136). -/
def modemBytes (c : Config) (s : Nat) : Nat := (c.s12Bits * s + 7) / 8

/-- The preconditions of `M2N MB, NB, n` (R133, R135); the capacity of R140 in samples and in bytes. -/
def m2nPre (c : Config) (mb nb n : Nat) : Bool :=
  c.wellFormed && decide (0 < n) && decide (n % c.groupBytes = 0) && decide (n ≤ c.mdmMaxBytes) &&
    decide (m2nSamples c n ≤ c.maxSamples) && regionInside c mb n && regionInside c nb (m2nNetBytes c n) &&
    regionsDisjoint mb n nb (m2nNetBytes c n)

/-- The preconditions of `N2M NB, MB, k` (R136, R141); the capacity of R140 in samples follows from that in bytes. -/
def n2mPre (c : Config) (nb mb k : Nat) : Bool :=
  c.wellFormed && decide (k % c.pairBytes = 0) && decide (k ≤ c.netInReq) &&
    decide (n2mSamples c k ≤ c.maxSamples) && regionInside c nb k &&
    regionInside c mb (modemBytes c (n2mSamples c k)) && regionsDisjoint nb k mb (modemBytes c (n2mSamples c k))

/-- A pseudo-instruction that has an expansion (R69, R133, R135, R136): its numbers fit the fields they go to and, for a
bridge call, every precondition holds. -/
def Pseudo.wellFormed (c : Config) : Pseudo → Bool
  | .rd12 a | .wr12 a => decide (a < 2 ^ 16)
  | .ldf _ | .setb _ | .enable _ | .s12tos16 | .s16tos12 => true
  | .clock ms => decide (ms < 2 ^ 32)
  | .m2n mb nb n => m2nPre c mb nb n
  | .n2m nb mb k => n2mPre c nb mb k

end Sys2Proof
end

