-- ==== Sys2Proof/Decode.lean ====
section
/-! DEFINITION. The command word's fields, the opcode map, the decoder and the encoder (30_encoding.md R60 to R67). -/

namespace Sys2Proof

namespace CommandWord

/-- `OP`, bits 63..56 (R60). -/
def opField (w : CommandWord) : BitVec 8 := w.extractLsb' 56 8

/-- `W`, bits 55..48 (R60). -/
def wField (w : CommandWord) : BitVec 8 := w.extractLsb' 48 8

/-- `A`, bits 47..32 (R60). -/
def aField (w : CommandWord) : BitVec 16 := w.extractLsb' 32 16

/-- `D`, bits 31..0 (R60). -/
def dField (w : CommandWord) : BitVec 32 := w.extractLsb' 0 32

/-- The word with the given four fields (R60). -/
def ofFields (op w : BitVec 8) (a : BitVec 16) (d : BitVec 32) : CommandWord := op ++ w ++ a ++ d

end CommandWord

namespace Mnemonic

/-- The `OP` value of a command (R64). -/
def op : Mnemonic → BitVec 8
  | .nop => 0x00 | .ldi => 0x01 | .seten => 0x02 | .tick => 0x03
  | .rdbit => 0x10 | .wrbit => 0x11 | .rdfld => 0x12 | .wrfld => 0x13
  | .ldb => 0x20 | .stb => 0x21 | .ldh => 0x22 | .sth => 0x23
  | .s12tof => 0x30 | .ftos12 => 0x31 | .s16tof => 0x32 | .ftos16 => 0x33

/-- The command an `OP` value selects; `none` for the 240 unlisted values (R64, R66). -/
def ofOp (op : BitVec 8) : Option Mnemonic :=
  match op.toNat with
  | 0x00 => some .nop | 0x01 => some .ldi | 0x02 => some .seten | 0x03 => some .tick
  | 0x10 => some .rdbit | 0x11 => some .wrbit | 0x12 => some .rdfld | 0x13 => some .wrfld
  | 0x20 => some .ldb | 0x21 => some .stb | 0x22 => some .ldh | 0x23 => some .sth
  | 0x30 => some .s12tof | 0x31 => some .ftos12 | 0x32 => some .s16tof | 0x33 => some .ftos16
  | _ => none

/-- The command with the given operand fields; a field that is no operand of the command is not used. -/
def build (m : Mnemonic) (w : BitVec 8) (a : BitVec 16) (d : BitVec 32) : Instr :=
  match m with
  | .nop => .nop | .ldi => .ldi d | .seten => .seten | .tick => .tick
  | .rdbit => .rdbit a | .wrbit => .wrbit a | .rdfld => .rdfld a w | .wrfld => .wrfld a w
  | .ldb => .ldb a | .stb => .stb a | .ldh => .ldh a | .sth => .sth a
  | .s12tof => .s12tof | .ftos12 => .ftos12 | .s16tof => .s16tof | .ftos16 => .ftos16

end Mnemonic

/-- Why a word is illegal (R65). -/
inductive IllegalWord where
  /-- `OP` is not one of the sixteen values. -/
  | unlistedOp
  /-- A field that must be zero for this `OP` is not zero. -/
  | nonzeroField
deriving DecidableEq, Repr

/-- Every must-be-zero field of the command is zero in the word (R64, R65). -/
def mbzZero (m : Mnemonic) (w : CommandWord) : Bool :=
  (m.usesW || CommandWord.wField w == 0) && (m.usesA || CommandWord.aField w == 0) &&
    (m.usesD || CommandWord.dField w == 0)

/-- The decoder: total, testing `OP` first and then the must-be-zero fields; the legality of `W` and the range of `A` are
no part of it (R65). -/
def decode (w : CommandWord) : Except IllegalWord Instr :=
  match Mnemonic.ofOp (CommandWord.opField w) with
  | none => .error .unlistedOp
  | some m =>
    if mbzZero m w then .ok (m.build (CommandWord.wField w) (CommandWord.aField w) (CommandWord.dField w))
    else .error .nonzeroField

namespace Instr

/-- The row of the opcode map a command belongs to (R64). -/
def mnemonic : Instr → Mnemonic
  | .nop => .nop | .ldi _ => .ldi | .seten => .seten | .tick => .tick
  | .rdbit _ => .rdbit | .wrbit _ => .wrbit | .rdfld _ _ => .rdfld | .wrfld _ _ => .wrfld
  | .ldb _ => .ldb | .stb _ => .stb | .ldh _ => .ldh | .sth _ => .sth
  | .s12tof => .s12tof | .ftos12 => .ftos12 | .s16tof => .s16tof | .ftos16 => .ftos16

/-- The `W` field of the command's word: the operand, or zero (R64). -/
def wOperand : Instr → BitVec 8
  | .rdfld _ w | .wrfld _ w => w
  | .nop | .ldi _ | .seten | .tick | .rdbit _ | .wrbit _ | .ldb _ | .stb _ | .ldh _ | .sth _
  | .s12tof | .ftos12 | .s16tof | .ftos16 => 0

/-- The `A` field of the command's word: the operand, or zero (R64). -/
def aOperand : Instr → BitVec 16
  | .rdbit a | .wrbit a | .rdfld a _ | .wrfld a _ | .ldb a | .stb a | .ldh a | .sth a => a
  | .nop | .ldi _ | .seten | .tick | .s12tof | .ftos12 | .s16tof | .ftos16 => 0

/-- The `D` field of the command's word: the operand, or zero (R64). -/
def dOperand : Instr → BitVec 32
  | .ldi d => d
  | .nop | .seten | .tick | .rdbit _ | .wrbit _ | .rdfld _ _ | .wrfld _ _ | .ldb _ | .stb _ | .ldh _ | .sth _
  | .s12tof | .ftos12 | .s16tof | .ftos16 => 0

end Instr

/-- The encoder: the word of a command, its must-be-zero fields zero (R60, R64). -/
def encode (i : Instr) : CommandWord :=
  CommandWord.ofFields i.mnemonic.op i.wOperand i.aOperand i.dOperand

/-- The decoder on a word given as a number with bit 0 its least significant bit, as spec/opcode_table.json numbers it.
The spec fixes no order in which the 64 bits reach the block (R60), so no byte order enters. -/
def decodeTableWord (nbits w : Nat) : Option Instr :=
  (decode (BitVec.ofNat 64 (w % 2 ^ nbits))).toOption

/-- A row of the opcode map: a word matches it when `w & mask = pattern` (R64). -/
structure OpcodeRow where
  mnemonic : Mnemonic
  pattern  : CommandWord
  mask     : CommandWord
deriving DecidableEq, Repr

/-- Does the word match the row, `w & mask = match` (R64)? -/
def OpcodeRow.selects (r : OpcodeRow) (w : CommandWord) : Bool := w &&& r.mask == r.pattern

/-- The opcode map as R64 prints it. `decode` is written from the fields (R65); that the two agree is an obligation. -/
def opcodeMap : List OpcodeRow :=
  [ ⟨.nop,    0x0000000000000000, 0xFFFFFFFFFFFFFFFF⟩,
    ⟨.ldi,    0x0100000000000000, 0xFFFFFFFF00000000⟩,
    ⟨.seten,  0x0200000000000000, 0xFFFFFFFFFFFFFFFF⟩,
    ⟨.tick,   0x0300000000000000, 0xFFFFFFFFFFFFFFFF⟩,
    ⟨.rdbit,  0x1000000000000000, 0xFFFF0000FFFFFFFF⟩,
    ⟨.wrbit,  0x1100000000000000, 0xFFFF0000FFFFFFFF⟩,
    ⟨.rdfld,  0x1200000000000000, 0xFF000000FFFFFFFF⟩,
    ⟨.wrfld,  0x1300000000000000, 0xFF000000FFFFFFFF⟩ ] ++
  [ ⟨.ldb,    0x2000000000000000, 0xFFFF0000FFFFFFFF⟩,
    ⟨.stb,    0x2100000000000000, 0xFFFF0000FFFFFFFF⟩,
    ⟨.ldh,    0x2200000000000000, 0xFFFF0000FFFFFFFF⟩,
    ⟨.sth,    0x2300000000000000, 0xFFFF0000FFFFFFFF⟩,
    ⟨.s12tof, 0x3000000000000000, 0xFFFFFFFFFFFFFFFF⟩,
    ⟨.ftos12, 0x3100000000000000, 0xFFFFFFFFFFFFFFFF⟩,
    ⟨.s16tof, 0x3200000000000000, 0xFFFFFFFFFFFFFFFF⟩,
    ⟨.ftos16, 0x3300000000000000, 0xFFFFFFFFFFFFFFFF⟩ ]

end Sys2Proof
end

