-- ==== Sys2Proof/Machine/State.lean ====
section
/-! DEFINITION. The state of the block (10_state.md R21, R22), its interface to the host (R20), and the state after
reset (R30, R191). -/

namespace Sys2Proof.Machine

/-- The four fault causes of the block (60_exceptions.md R160, R168). A fault is a step of the machine (R165), so these
are not the reasons a step of the model can end for: see `Fault`. -/
inductive FaultCause where
  /-- The word matches no row of the opcode map (R161). -/
  | illegalCommand
  /-- RDFLD or WRFLD with `W` = 0 or `W` > 32 (R162). -/
  | widthFault
  /-- An access reaches beyond `BUF` (R163). -/
  | outOfRange
  /-- An operand or a result of a quantizer command is not representable (R166). -/
  | domain
deriving DecidableEq, Repr

/-- The reasons a step of the model ends for: none. Every command word has a step in every state, "complete, fault, or
ignored, so the block never lacks a move" (93_implementation_defined.md Part 1; 00_scope.md R11), and a fault of the
block is a next state (R165). Nothing raises a reason of this type, which is safe (log 11). -/
inductive Fault where
deriving DecidableEq, Repr

/-- The reasons the model gives no meaning for a command. -/
inductive Refusal where
  /-- A command of the opcode map without a meaning yet; raised by an arm of `exec` only; safe. No arm raises it. -/
  | notModelled (mnemonic : String)
deriving DecidableEq, Repr

/-- What a command returns: the values of `ACC` and `ST` after the step (10_state.md R20, 30_encoding.md R61). -/
structure Response where
  racc : Word32
  rst  : BitVec 8
deriving DecidableEq, Repr

/-- What the host can do to the block (00_scope.md R10, 70_reset_and_hazards.md R206): issue a command word, which may be
any 64-bit word, or assert reset between commands (R190). -/
inductive HostMove where
  | command (w : CommandWord)
  | reset
deriving DecidableEq, Repr

/-- The bytes of `BUF` that hold a known value, as (address, byte) pairs with rising addresses. An address that is not
listed holds no known value (10_state.md R30). -/
abbrev Memory := List Host.Cell

/-- The canonical form of memory: addresses strictly rising. An unlisted address reads as no known value, so no listed
byte equals what an unlisted address reads as (log 3). -/
abbrev Memory.wf (m : Memory) : Prop := List.Pairwise (fun x y => x.1 < y.1) m

/-- The state of the block (R21: the tuple (`BUF`, `ACC`, `ST`, `FCMD`, `CTRL`)), with its parameter and its interface. -/
structure State where
  /-- `BUF`: its bytes of known value (R29, R30). -/
  buf : Memory
  /-- `ACC` (R22, R23). -/
  acc : Word32
  /-- `ST`, the sticky fault flags (R22, R24). -/
  st : BitVec 8
  /-- `FCMD`, the command word of the first faulting command since reset (R22, R25). -/
  fcmd : CommandWord
  /-- `CTRL` (R22, R27). -/
  ctrl : BitVec 8
  /-- The parameter `BUF_BYTES` (00_scope.md R5); no step writes it (log 1). -/
  bufBytes : Nat
  /-- Which reset the unknown bytes of `BUF` come from: the counter of the free values (log 2). -/
  draw : Nat
  /-- The host's moves not yet taken, oldest first (R20; log 4). -/
  pending : List HostMove
  /-- The responses returned so far, oldest first (R20; log 5). -/
  responses : List Response
deriving DecidableEq, Repr

/-- The machine right after reset (R30, R191): every register zero, no byte of `BUF` known. -/
def State.reset : State :=
  { buf := [], acc := 0, st := 0, fcmd := 0, ctrl := 0, bufBytes := Config.bufBytesDefault, draw := 0, pending := [],
    responses := [] }

/-- The configuration of the block (00_scope.md R5): the parameter that State carries, and the values that R5 fixes. -/
def State.cfg (s : State) : Config := Config.ofSize s.bufBytes

end Sys2Proof.Machine
end

