-- ==== Sys2Proof/Machine/Flags.lean ====
section
/-! DEFINITION. The flags of the block: the four sticky fault bits of `ST` (10_state.md R24), the halt test, and `EN` of
`CTRL` (R27). The block has no condition codes. -/

namespace Sys2Proof.Machine

/-- The code a cause sets in `ST` (60_exceptions.md R165, R168). -/
def FaultCause.code : FaultCause → BitVec 8
  | .illegalCommand => 0x01
  | .widthFault     => 0x02
  | .outOfRange     => 0x04
  | .domain         => 0x08

namespace State

/-- `ST.ILL`, bit 0 (R24). -/
def stIll (s : State) : Bool := s.st.getLsbD 0

/-- `ST.WID`, bit 1 (R24). -/
def stWid (s : State) : Bool := s.st.getLsbD 1

/-- `ST.OOR`, bit 2 (R24). -/
def stOor (s : State) : Bool := s.st.getLsbD 2

/-- `ST.DOM`, bit 3 (R24). -/
def stDom (s : State) : Bool := s.st.getLsbD 3

/-- The derived predicate `halted`: `ST != 0` (R24). -/
def halted (s : State) : Bool := s.st != 0

/-- `CTRL.EN`, the document's `enabled` flag, bit 0; no command reads it (R27). -/
def ctrlEn (s : State) : Bool := s.ctrl.getLsbD 0

end State

/-- The `CTRL` value with the given `EN` bit: bits 7..1 are hardwired to zero (R27, 44_control.md R152). -/
def ctrlOfEn (en : BitVec 1) : BitVec 8 := 0#7 ++ en

end Sys2Proof.Machine
end

