-- ==== Sys2Proof/Machine/Operands.lean ====
section
/-! DEFINITION. Which part of `ACC` each command reads as its operand (30_encoding.md R63), and the fields of a command
word as the unsigned integers they are (R62). -/

namespace Sys2Proof.Machine
namespace State

/-- The bool of WRBIT and SETEN: `ACC[0]`; the other bits are ignored (R63, D9). -/
def accBit (s : State) : BitVec 1 := s.acc.extractLsb' 0 1

/-- The byte of STB: `ACC[7:0]` (R63). -/
def accByte (s : State) : Byte := s.acc.extractLsb' 0 8

/-- The Sample16 of STH: `ACC[15:0]` (R63). -/
def accSample16 (s : State) : BitVec 16 := s.acc.extractLsb' 0 16

/-- The field value of WRFLD: WRFLD with width `W` uses bits `W-1` to 0 of it and ignores the others (R63, D11). -/
def accField (s : State) : Word32 := s.acc

/-- The integer operand of S12TOF and S16TOF: all of `ACC` as an unsigned integer (R63). -/
def accNat (s : State) : Nat := s.acc.toNat

/-- The float operand of FTOS12 and FTOS16: all of `ACC` as a binary32 pattern (R63). -/
def accFloat (s : State) : Word32 := s.acc

/-- The `ms` argument of TICK: all of `ACC`, read and ignored (R63, 44_control.md R153). -/
def accMs (s : State) : Word32 := s.acc

end State

/-- The `A` field as a buffer bit index or a byte address, 0 to 65535 (R62). -/
def addressOf (a : BitVec 16) : Nat := a.toNat

/-- The `W` field as a width, 0 to 255 (R62). -/
def widthOf (w : BitVec 8) : Nat := w.toNat

end Sys2Proof.Machine
end

