-- ==== Sys2Proof/Machine/Ops.lean ====
section
/-! DEFINITION. The named operations over `BUF` and the registers, the fault entry, and the host's reset. -/

namespace Sys2Proof.Machine

/-! ### `BUF` as data -/

/-- The byte listed for an address, if the address holds a known value. -/
def Memory.get? : Memory → Nat → Option Byte
  | [], _ => none
  | c :: m, a => if c.1 = a then some c.2 else Memory.get? m a

/-- The memory with one byte made known; it keeps the canonical form. -/
def Memory.set : Memory → Nat → Byte → Memory
  | [], a, v => [(a, v)]
  | c :: m, a, v =>
    if a < c.1 then (a, v) :: c :: m
    else if c.1 = a then (a, v) :: m
    else c :: Memory.set m a v

namespace State

/-! ### Registers -/

/-- `ACC <- v`. -/
def setAcc (s : State) (v : Word32) : State := { s with acc := v }

/-- `CTRL <- v`. -/
def setCtrl (s : State) (v : BitVec 8) : State := { s with ctrl := v }

/-! ### Bytes -/

/-- `BUF[i]` read: the known byte, or the free value an unknown byte has for this run (10_state.md R30; log 2). Reading
changes nothing (20_memory.md R48). -/
def readByte (s : State) (i : Nat) : Byte := (s.buf.get? i).getD (Config.resetByte s.draw i)

/-- `BUF[i] <- v`. -/
def writeByte (s : State) (i : Nat) (v : Byte) : State := { s with buf := s.buf.set i v }

/-- The `n` bytes from address `a` lie inside `BUF`; the sum does not wrap (20_memory.md R43). -/
def bytesInRange (s : State) (a n : Nat) : Bool := decide (a + n ≤ s.bufBytes)

/-- The bytes from `a` on, written in order, lowest address first. -/
def writeBytes (s : State) (a : Nat) : List Byte → State
  | [] => s
  | v :: vs => (s.writeByte a v).writeBytes (a + 1) vs

/-- `MemRead(addr, n)` (00_scope.md R7): the `n` bytes from `addr`, lowest address first; `none` where it raises
`OutOfRange`. -/
def memRead (s : State) (addr n : Nat) : Option (List Byte) :=
  if s.bytesInRange addr n then some ((List.range n).map fun k => s.readByte (addr + k)) else none

/-- `MemWrite(addr, n, bytes)` (R7), `n` being the number of bytes; `none` where it raises `OutOfRange`, and then nothing
is written. -/
def memWrite (s : State) (addr : Nat) (bytes : List Byte) : Option State :=
  if s.bytesInRange addr bytes.length then some (s.writeBytes addr bytes) else none

end State

/-! ### Byte order of a byte pair: `S16_ORDER`, big-endian (20_memory.md R42) -/

/-- The unsigned integer of a list of bytes, the first the most significant, zero-extended to 32 bits (R42, D31). -/
def bytesToWord (order : ByteOrder) (bytes : List Byte) : Word32 :=
  match order with
  | .bigEndian => bytes.foldl (fun v b => (v <<< 8) ||| b.setWidth 32) 0

/-- The byte pair of a Sample16, high byte first (R42). -/
def sample16Bytes (order : ByteOrder) (v : BitVec 16) : List Byte :=
  match order with
  | .bigEndian => [v.extractLsb' 8 8, v.extractLsb' 0 8]

/-! ### Bits (40_bitfield.md R80 to R82) -/

/-- The constant bit-mask table `MASK[k]` = 0x80 >> k, `k` in 0..7 (R82): with `BIT_ORDER` bit-in-byte index 0 is the most
significant bit (20_memory.md R40). -/
def bitMask (order : BitOrder) (k : Nat) : Byte :=
  match order with
  | .msbFirst => 0x80#8 >>> k

/-- How far from the lowest bit index of a field value bit `j` is stored: with `VALUE_ORDER`, `j` (20_memory.md R41). -/
def valueOffset (order : ValueOrder) (j : Nat) : Nat :=
  match order with
  | .lsbFirst => j

namespace State

/-- The `n` bits from buffer bit index `b` lie inside `BUF`; the sum does not wrap (20_memory.md R43). -/
def bitsInRange (s : State) (b n : Nat) : Bool := decide (b + n ≤ 8 * s.bufBytes)

/-- `BitRead(b)` (R80): bit `b % 8` of byte `b / 8`, counted from the most significant. -/
def bitRead (s : State) (b : Nat) : Bool := s.readByte (b / 8) &&& bitMask s.cfg.bitOrder (b % 8) != 0

/-- `BitWrite(b, x)` (R81): sets that bit and leaves the other seven bits of the byte, and every other byte. -/
def bitWrite (s : State) (b : Nat) (x : Bool) : State :=
  let old := s.readByte (b / 8)
  let mask := bitMask s.cfg.bitOrder (b % 8)
  s.writeByte (b / 8) (if x then old ||| mask else old &&& (0xFF#8 ^^^ mask))

/-- The field of `n` bits at bit index `a`: value bit `j` is the bit at `a + j`, least significant first (20_memory.md
R41, R84). -/
def fieldRead (s : State) (a : Nat) : Nat → Word32
  | 0 => 0
  | n + 1 => s.fieldRead a n ||| ((BitVec.ofBool (s.bitRead (a + valueOffset s.cfg.valueOrder n))).setWidth 32 <<< n)

/-- The low `n` bits of `v` written as the field at bit index `a`: value bit `j` to the bit at `a + j` (R41, R85). -/
def fieldWrite (s : State) (a : Nat) (v : Word32) : Nat → State
  | 0 => s
  | n + 1 => (s.fieldWrite a v n).bitWrite (a + valueOffset s.cfg.valueOrder n) (v.getLsbD n)

/-! ### Fault entry, response, reset -/

/-- `raise F(cmd)` (60_exceptions.md R165), the one fault entry: the cause's bit is set in `ST`, `FCMD` takes the command
word, and `ACC`, `CTRL` and every bit of `BUF` keep their values. There is no return from it but reset (R170). -/
def raise (s : State) (cause : FaultCause) (cmd : CommandWord) : State :=
  { s with st := s.st ||| cause.code, fcmd := cmd }

/-- The response of a command: `ACC` and `ST` as they are now (10_state.md R20). -/
def response (s : State) : Response := { racc := s.acc, rst := s.st }

/-- The state with its response returned to the host (R20). -/
def respond (s : State) : State := { s with responses := s.responses ++ [s.response] }

/-- The host's reset (70_reset_and_hazards.md R190, R191): whatever the state before, the registers are zero and the
contents of `BUF` are unspecified again, a new draw (log 2). The parameter and what stands outside the block (moves not
yet taken, responses already returned) stay (log 6). -/
def takeReset (s : State) : State :=
  { State.reset with bufBytes := s.bufBytes, draw := s.draw + 1, pending := s.pending, responses := s.responses }

end State
end Sys2Proof.Machine
end

