-- ==== Sys2Proof/Machine/BitField.lean ====
section
/-! DEFINITION. The BitField codec commands RDBIT, WRBIT, RDFLD, WRFLD (40_bitfield.md). Every test stands before every
write (60_exceptions.md R164), and a faulting command records its own word (R165). -/

namespace Sys2Proof.Machine

/-- RDBIT `A` (R83). -/
def execRdbit (a : BitVec 16) (s : State) : Host.Outcome State Fault Refusal :=
  if s.bitsInRange (addressOf a) 1 then
    .next (s.setAcc ((BitVec.ofBool (s.bitRead (addressOf a))).setWidth 32))
  else .next (s.raise .outOfRange (encode (.rdbit a)))

/-- WRBIT `A` (R86): the bool is `ACC[0]`. -/
def execWrbit (a : BitVec 16) (s : State) : Host.Outcome State Fault Refusal :=
  if s.bitsInRange (addressOf a) 1 then .next (s.bitWrite (addressOf a) (s.accBit == 1))
  else .next (s.raise .outOfRange (encode (.wrbit a)))

/-- The widths RDFLD and WRFLD accept: 1 to `FIELD_MAX`, 32 (R84, R85, D10). -/
def widthLegal (c : Config) (w : BitVec 8) : Bool := widthOf w != 0 && decide (widthOf w ≤ c.fieldMax)

/-- RDFLD `A`, `W` (R84): `WidthFault` is tested before `OutOfRange`. -/
def execRdfld (a : BitVec 16) (w : BitVec 8) (s : State) : Host.Outcome State Fault Refusal :=
  if !widthLegal s.cfg w then .next (s.raise .widthFault (encode (.rdfld a w)))
  else if s.bitsInRange (addressOf a) (widthOf w) then .next (s.setAcc (s.fieldRead (addressOf a) (widthOf w)))
  else .next (s.raise .outOfRange (encode (.rdfld a w)))

/-- WRFLD `A`, `W` (R85): bits of `ACC` at and above `W` are ignored; on a fault no bit is written. -/
def execWrfld (a : BitVec 16) (w : BitVec 8) (s : State) : Host.Outcome State Fault Refusal :=
  if !widthLegal s.cfg w then .next (s.raise .widthFault (encode (.wrfld a w)))
  else if s.bitsInRange (addressOf a) (widthOf w) then
    .next (s.fieldWrite (addressOf a) s.accField (widthOf w))
  else .next (s.raise .outOfRange (encode (.wrfld a w)))

end Sys2Proof.Machine
end

