-- ==== Sys2Proof/Machine/ByteAccess.lean ====
section
/-! DEFINITION. The byte and byte-pair commands LDB, STB, LDH, STH (41_byte_access.md). The only addressing mode is the
absolute address in the `A` field (R105). -/

namespace Sys2Proof.Machine

/-- LDB `A` (R100): the byte, zero-extended. -/
def execLdb (a : BitVec 16) (s : State) : Host.Outcome State Fault Refusal :=
  match s.memRead (addressOf a) 1 with
  | some bytes => .next (s.setAcc (bytesToWord s.cfg.s16Order bytes))
  | none => .next (s.raise .outOfRange (encode (.ldb a)))

/-- STB `A` (R101): `ACC[7:0]`. -/
def execStb (a : BitVec 16) (s : State) : Host.Outcome State Fault Refusal :=
  match s.memWrite (addressOf a) [s.accByte] with
  | some t => .next t
  | none => .next (s.raise .outOfRange (encode (.stb a)))

/-- LDH `A` (R102): a big-endian byte pair at any address, zero-extended. -/
def execLdh (a : BitVec 16) (s : State) : Host.Outcome State Fault Refusal :=
  match s.memRead (addressOf a) 2 with
  | some bytes => .next (s.setAcc (bytesToWord s.cfg.s16Order bytes))
  | none => .next (s.raise .outOfRange (encode (.ldh a)))

/-- STH `A` (R103): `ACC[15:0]` as a big-endian byte pair; both addresses are checked before either is written. -/
def execSth (a : BitVec 16) (s : State) : Host.Outcome State Fault Refusal :=
  match s.memWrite (addressOf a) (sample16Bytes s.cfg.s16Order s.accSample16) with
  | some t => .next t
  | none => .next (s.raise .outOfRange (encode (.sth a)))

end Sys2Proof.Machine
end

