-- ==== Sys2Proof/Machine/Control.lean ====
section
/-! DEFINITION. The control commands NOP, LDI, SETEN, TICK (44_control.md). A meaning assumes that the block is not
halted; the halt test and the decode test come first for every command (60_exceptions.md R164, Machine/Command.lean). -/

namespace Sys2Proof.Machine

/-- NOP (R150): no effect. -/
def execNop (s : State) : Host.Outcome State Fault Refusal := .next s

/-- LDI `D` (R151): `ACC <- cmd.D`, all 32 bits, not interpreted. -/
def execLdi (d : BitVec 32) (s : State) : Host.Outcome State Fault Refusal := .next (s.setAcc d)

/-- SETEN (R152): `CTRL <- 0b0000000 ## ACC[0]`. -/
def execSeten (s : State) : Host.Outcome State Fault Refusal := .next (s.setCtrl (ctrlOfEn s.accBit))

/-- What TICK does with its argument `ms`: nothing (R153, "accept the call, do nothing"). -/
def tickHook (_ms : Word32) (s : State) : State := s

/-- TICK (R153): `ACC` is read as `ms` and ignored; nothing is written, no time is counted (60_exceptions.md R176). -/
def execTick (s : State) : Host.Outcome State Fault Refusal := .next (tickHook s.accMs s)

end Sys2Proof.Machine
end

