-- ==== Sys2Proof/Machine/Float.lean ====
section
/-! DEFINITION. The float arithmetic of the quantizer (42_quantizer.md R110, R111, R122), for a format with one sign bit
(the parameter `FP`, `Config.fp`, is binary32). A value is held as its pattern; every operation computes the exact result and rounds once, to
nearest with ties to even.

Exact arithmetic is on integers: every finite value of the format is a whole number of UNITS, a unit being the smallest
positive value (2^-149 for binary32), and an exact result is a quotient of two natural numbers of units. -/

namespace Sys2Proof.Machine

/-- What a pattern stands for (R122): a NaN, an infinity, or plus or minus a whole number of units. The two zeros are
distinct patterns of equal value. -/
inductive FloatVal where
  | nan
  | inf (neg : Bool)
  | finite (neg : Bool) (units : Nat)
deriving DecidableEq, Repr

/-- The signed number of units of a finite value. -/
def signedUnits (neg : Bool) (units : Nat) : Int := if neg then -(units : Int) else units

/-- A quotient rounded to the nearest integer, ties to even. -/
def roundHalfEven (num den : Nat) : Nat :=
  if den < 2 * (num % den) ∨ (2 * (num % den) = den ∧ num / den % 2 = 1) then num / den + 1 else num / den

end Sys2Proof.Machine

namespace Sys2Proof.FloatFormat
open Sys2Proof.Machine

/-- Bits of the magnitude: exponent and fraction. -/
def magBits (F : FloatFormat) : Nat := F.expBits + F.fracBits

/-- The exponent field of infinities and NaNs: all ones. -/
def expMax (F : FloatFormat) : Nat := 2 ^ F.expBits - 1

/-- The magnitude pattern of infinity. -/
def infMag (F : FloatFormat) : Nat := F.expMax * 2 ^ F.fracBits

/-- Units in 1.0, as a power of two: 149 for binary32. -/
def oneExp (F : FloatFormat) : Nat := 2 ^ (F.expBits - 1) - 2 + F.fracBits

/-- Units in 1.0. -/
def one (F : FloatFormat) : Nat := 2 ^ F.oneExp

/-- `f32(p)` (R122). For an exponent field `e` of 1 to `expMax - 1` the value is `2^(e-1)` times `2^fracBits + m` units,
for `e` = 0 it is `m` units. -/
def value (F : FloatFormat) (p : Word32) : FloatVal :=
  let neg := p.toNat / 2 ^ F.magBits % 2 == 1
  let e := p.toNat / 2 ^ F.fracBits % 2 ^ F.expBits
  let m := p.toNat % 2 ^ F.fracBits
  if e = F.expMax then (if m = 0 then .inf neg else .nan)
  else if e = 0 then .finite neg m
  else .finite neg ((2 ^ F.fracBits + m) * 2 ^ (e - 1))

/-- The pattern with the given sign and magnitude. -/
def pattern (F : FloatFormat) (neg : Bool) (mag : Nat) : Word32 :=
  BitVec.ofNat 32 ((if neg then 2 ^ F.magBits else 0) + mag)

/-- How many low bits of `num / den` units the format cannot hold: the exponent, in units, of the last place of the
result. -/
def lastPlace (F : FloatFormat) (num den : Nat) : Nat := Nat.log2 (num / den) - F.fracBits

/-- Rounding the magnitude `num / den` units (`den` positive) to the format, to nearest, ties to even (R122): the
magnitude pattern, at most that of infinity. A significand of `q` in the last place `2^k` has the magnitude pattern
`k * 2^fracBits + q`: this is `q` itself for a subnormal, and a significand rounded up to the next power of two carries
into the exponent. -/
def roundMag (F : FloatFormat) (num den : Nat) : Nat :=
  let k := F.lastPlace num den
  min (k * 2 ^ F.fracBits + roundHalfEven num (den * 2 ^ k)) F.infMag

/-- The pattern nearest to plus or minus `num / den` units (R122). -/
def round (F : FloatFormat) (neg : Bool) (num den : Nat) : Word32 := F.pattern neg (F.roundMag num den)

/-- The pattern of a signed whole number of units, `zeroNeg` being the sign of a zero. -/
def roundInt (F : FloatFormat) (zeroNeg : Bool) (z : Int) : Word32 :=
  F.round (if z = 0 then zeroNeg else decide (z < 0)) z.natAbs 1

/-- `a +. b` (R110). An exactly zero sum of finite values is +0.0, unless both are -0.0 (R122; log 9). -/
def add (F : FloatFormat) (a b : Word32) : Word32 :=
  match F.value a, F.value b with
  | .finite n m, .finite n' m' => F.roundInt (n && n') (signedUnits n m + signedUnits n' m')
  | .inf n, .finite _ _ => F.pattern n F.infMag
  | .finite _ _, .inf n => F.pattern n F.infMag
  | .inf n, .inf n' => if n = n' then F.pattern n F.infMag else Config.nanPattern
  | .nan, _ => Config.nanPattern
  | _, .nan => Config.nanPattern

/-- The pattern with its sign changed. -/
def negate (F : FloatFormat) (a : Word32) : Word32 := a ^^^ BitVec.ofNat 32 (2 ^ F.magBits)

/-- `a -. b` (R110): the sum with the sign of `b` changed. -/
def sub (F : FloatFormat) (a b : Word32) : Word32 := F.add a (F.negate b)

/-- `a *. b` (R110). -/
def mul (F : FloatFormat) (a b : Word32) : Word32 :=
  match F.value a, F.value b with
  | .finite n m, .finite n' m' => F.round (n ^^ n') (m * m') F.one
  | .inf n, .finite n' m' => if m' = 0 then Config.nanPattern else F.pattern (n ^^ n') F.infMag
  | .finite n m, .inf n' => if m = 0 then Config.nanPattern else F.pattern (n ^^ n') F.infMag
  | .inf n, .inf n' => F.pattern (n ^^ n') F.infMag
  | .nan, _ => Config.nanPattern
  | _, .nan => Config.nanPattern

/-- `a /. b` (R110). No command divides by zero (R122); the IEEE result stands here (log 9). -/
def div (F : FloatFormat) (a b : Word32) : Word32 :=
  match F.value a, F.value b with
  | .finite n m, .finite n' m' =>
    if m' = 0 then (if m = 0 then Config.nanPattern else F.pattern (n ^^ n') F.infMag)
    else F.round (n ^^ n') (m * F.one) m'
  | .inf n, .finite n' _ => F.pattern (n ^^ n') F.infMag
  | .finite n _, .inf n' => F.pattern (n ^^ n') 0
  | .inf _, .inf _ => Config.nanPattern
  | .nan, _ => Config.nanPattern
  | _, .nan => Config.nanPattern

/-- `u2f(n)` (00_scope.md R7): the float value of the unsigned integer `n`. -/
def ofNat (F : FloatFormat) (n : Nat) : Word32 := F.round false (n * F.one) 1

/-- The float nearest to `num / den`. -/
def ofRatio (F : FloatFormat) (neg : Bool) (num den : Nat) : Word32 := F.round neg (num * F.one) den

/-- `trunc` of a finite value (R7, R111): the fraction is discarded, rounding toward zero. -/
def truncate (F : FloatFormat) (neg : Bool) (units : Nat) : Int := signedUnits neg (units / F.one)

end Sys2Proof.FloatFormat
end

