-- ==== Sys2Proof/Machine/Quantizer.lean ====
section
/-! DEFINITION. The Sample quantizer commands S12TOF, FTOS12, S16TOF, FTOS16 (42_quantizer.md), in the arithmetic of
the parameter `FP`; `u2f(n)` of the rules is `ofNat` of the format. -/

namespace Sys2Proof.Machine

/-- The constant 0.5 (R110). -/
def floatHalf (F : FloatFormat) : Word32 := F.ofRatio false 1 2

/-- Sample12 to float (R112): `(u2f(s) -. 2048.0) /. 2048.0`. -/
def sample12ToFloat (c : Config) (s : Nat) : Word32 :=
  c.fp.div (c.fp.sub (c.fp.ofNat s) (c.fp.ofNat c.off12)) (c.fp.ofNat c.k12)

/-- Sample16 to float (R114): `(u2f(s) /. 32767.0) -. 1.0`, two roundings. -/
def sample16ToFloat (c : Config) (s : Nat) : Word32 :=
  c.fp.sub (c.fp.div (c.fp.ofNat s) (c.fp.ofNat c.k16)) (c.fp.ofNat 1)

/-- The sum `y` of the two float-to-sample formulas (R113, R115): `((f +. 1.0) *. scale) +. 0.5`, each operation rounded
separately. -/
def scaledSum (F : FloatFormat) (scale : Nat) (f : Word32) : Word32 :=
  F.add (F.mul (F.add f (F.ofNat 1)) (F.ofNat scale)) (floatHalf F)

/-- Float to sample (R113, R115): add 0.5 and truncate (R111, 90_conflicts.md C1). `none` where the rules raise `Domain`:
a NaN operand, an infinite sum, or an integer outside 0 to `limit` (D14). -/
def floatToSample (F : FloatFormat) (scale limit : Nat) (f : Word32) : Option Nat :=
  match F.value f with
  | .nan => none
  | .inf _ | .finite _ _ =>
    match F.value (scaledSum F scale f) with
    | .finite neg units =>
      let t := F.truncate neg units
      if t < 0 ∨ (limit : Int) < t then none else some t.toNat
    | .inf _ | .nan => none

/-- Float to Sample12 (R113): 0 to 4096. -/
def floatToSample12 (c : Config) (f : Word32) : Option Nat := floatToSample c.fp c.k12 c.ftos12Max f

/-- Float to Sample16 (R115): 0 to 65535. -/
def floatToSample16 (c : Config) (f : Word32) : Option Nat := floatToSample c.fp c.k16 c.ftos16Max f

/-- S12TOF (R112). -/
def execS12tof (s : State) : Host.Outcome State Fault Refusal :=
  if s.cfg.sample12Max < s.accNat then .next (s.raise .domain (encode .s12tof))
  else .next (s.setAcc (sample12ToFloat s.cfg s.accNat))

/-- FTOS12 (R113). -/
def execFtos12 (s : State) : Host.Outcome State Fault Refusal :=
  match floatToSample12 s.cfg s.accFloat with
  | some t => .next (s.setAcc (BitVec.ofNat 32 t))
  | none => .next (s.raise .domain (encode .ftos12))

/-- S16TOF (R114). -/
def execS16tof (s : State) : Host.Outcome State Fault Refusal :=
  if s.cfg.sample16Max < s.accNat then .next (s.raise .domain (encode .s16tof))
  else .next (s.setAcc (sample16ToFloat s.cfg s.accNat))

/-- FTOS16 (R115). -/
def execFtos16 (s : State) : Host.Outcome State Fault Refusal :=
  match floatToSample16 s.cfg s.accFloat with
  | some t => .next (s.setAcc (BitVec.ofNat 32 t))
  | none => .next (s.raise .domain (encode .ftos16))

end Sys2Proof.Machine
end

