-- ==== Sys2Proof/Machine/Dispatch.lean ====
section
/-! DEFINITION. One arm per command: its meaning. -/

namespace Sys2Proof.Machine

def exec (i : Instr) (s : State) : Host.Outcome State Fault Refusal :=
  match i with
  -- 44_control.md
  | .nop => Sys2Proof.Machine.execNop s
  | .ldi d => Sys2Proof.Machine.execLdi d s
  | .seten => Sys2Proof.Machine.execSeten s
  | .tick => Sys2Proof.Machine.execTick s
  -- 40_bitfield.md
  | .rdbit a => Sys2Proof.Machine.execRdbit a s
  | .wrbit a => Sys2Proof.Machine.execWrbit a s
  | .rdfld a w => Sys2Proof.Machine.execRdfld a w s
  | .wrfld a w => Sys2Proof.Machine.execWrfld a w s
  -- 41_byte_access.md
  | .ldb a => Sys2Proof.Machine.execLdb a s
  | .stb a => Sys2Proof.Machine.execStb a s
  | .ldh a => Sys2Proof.Machine.execLdh a s
  | .sth a => Sys2Proof.Machine.execSth a s
  -- 42_quantizer.md
  | .s12tof => Sys2Proof.Machine.execS12tof s
  | .ftos12 => Sys2Proof.Machine.execFtos12 s
  | .s16tof => Sys2Proof.Machine.execS16tof s
  | .ftos16 => Sys2Proof.Machine.execFtos16 s

end Sys2Proof.Machine
end

