-- ==== Sys2Proof/Machine/Command.lean ====
section
/-! DEFINITION. How the block processes a command word and a move of the host (60_exceptions.md R164, 70_reset_and_hazards.md
R190), and a run over a list of command words (10_state.md R26). -/

namespace Sys2Proof.Machine

/-- The response returned after a command's effect (R164 step 4). -/
def returning : Host.Outcome State Fault Refusal → Host.Outcome State Fault Refusal
  | .next t => .next t.respond
  | .fault r => .fault r
  | .refused r => .refused r

/-- The step function of R164 for one command word: the halt test, then the decode test, then the command's own rule, and
the response. A halted block ignores every word, legal or not (R167). -/
def command (cmd : CommandWord) (s : State) : Host.Outcome State Fault Refusal :=
  if s.halted then .next s.respond
  else
    match decode cmd with
    | .error _ => returning (.next (s.raise .illegalCommand cmd))
    | .ok i => returning (exec i s)

/-- One move of the host: a command word, or reset between commands (R10, R190). Reset returns no response (R206). -/
def hostMove (m : HostMove) (s : State) : Host.Outcome State Fault Refusal :=
  match m with
  | .command cmd => command cmd s
  | .reset => .next s.takeReset

/-- The oldest move of the host that is not yet taken, taken; where the host presents nothing, nothing happens (log 4). -/
def takeMove (s : State) : Host.Outcome State Fault Refusal :=
  match s.pending with
  | [] => .next s
  | m :: rest => hostMove m { s with pending := rest }

/-- A program is a list of command words, run by folding the step function over it (R26, 00_scope.md R12). -/
def runWords : List CommandWord → State → Host.Outcome State Fault Refusal
  | [], s => .next s
  | w :: ws, s =>
    match command w s with
    | .next t => runWords ws t
    | .fault r => .fault r
    | .refused r => .refused r

/-- The host hands over moves: they stand after those not yet taken. -/
def State.submit (s : State) (moves : List HostMove) : State := { s with pending := s.pending ++ moves }

/-- The state in which the word of `nbits` bits with the number `w` is the very next command (log 7). -/
def State.presenting (s : State) (nbits w : Nat) : State :=
  { s with pending := .command (BitVec.ofNat 64 (w % 2 ^ nbits)) :: s.pending }

end Sys2Proof.Machine
end

