-- ==== Sys2Proof/Machine/Step.lean ====
section
/-! DEFINITION. One step of the machine: one move of the host (10_state.md R20, 60_exceptions.md R164). -/

namespace Sys2Proof.Machine

/-- One step: the host's next move is taken. There is no program counter and nothing is fetched (R26, R53). -/
def step (s : State) : Host.Outcome State Fault Refusal := takeMove s

/-- The state in which the given command word is the next one the host presents. -/
def State.withFetchWord (s : State) (nbits w : Nat) : State := s.presenting nbits w

end Sys2Proof.Machine
end

