-- ==== Sys2Proof/Machine/Bridge.lean ====
section
/-! DEFINITION. The pseudo-instructions and their expansions (30_encoding.md R69), among them the two bridge sequences
M2N and N2M (43_bridge_sequences.md). The block has no sequencer: the host expands them and issues the commands. -/

namespace Sys2Proof.Machine

/-- Bit offset of sample `k` of a modem buffer at byte address `mb` (R132). -/
def sampleBit (c : Config) (mb k : Nat) : Nat := 8 * mb + c.s12Bits * k

/-- Byte address of the pair of sample `k` of a network buffer at byte address `nb` (R133, R136). -/
def pairByte (c : Config) (nb k : Nat) : Nat := nb + c.pairBytes * k

/-- A bit offset or byte address as the `A` field of a command. DESIGN CHOICE (log 17): one of 65536 or more, which no `A`
field holds and for which R62 and R133 name no command, loses its high bits. No expansion reaches this: where the
preconditions hold every offset and address is below 65536. -/
def addressField (n : Nat) : BitVec 16 := BitVec.ofNat 16 n

/-- The width of a modem-link sample as the `W` field of a command. -/
def sampleWidth (c : Config) : BitVec 8 := BitVec.ofNat 8 c.s12Bits

/-- One loop body of M2N (R133); the float stands in `ACC` between the second and the third command (the seam, R139).
Outside the preconditions the addresses are as `addressField` says (log 17). -/
def m2nBody (c : Config) (mb nb k : Nat) : List Instr :=
  [.rdfld (addressField (sampleBit c mb k)) (sampleWidth c), .s12tof, .ftos16, .sth (addressField (pairByte c nb k))]

/-- One loop body of N2M (R136). Outside the preconditions the addresses are as `addressField` says (log 17). -/
def n2mBody (c : Config) (nb mb i : Nat) : List Instr :=
  [.ldh (addressField (pairByte c nb i)), .s16tof, .ftos12, .wrfld (addressField (sampleBit c mb i)) (sampleWidth c)]

/-- `M2N MB, NB, n` as commands, its preconditions taken to hold (R133). -/
def m2nCommands (c : Config) (mb nb n : Nat) : List Instr := (List.range (m2nSamples c n)).flatMap (m2nBody c mb nb)

/-- `N2M NB, MB, k` as commands, its preconditions taken to hold (R136). -/
def n2mCommands (c : Config) (nb mb k : Nat) : List Instr := (List.range (n2mSamples c k)).flatMap (n2mBody c nb mb)

/-- The commands of a pseudo-instruction (R69). -/
def pseudoCommands (c : Config) : Pseudo → List Instr
  | .rd12 a => [.rdfld (addressField a) (sampleWidth c)]
  | .wr12 a => [.wrfld (addressField a) (sampleWidth c)]
  | .ldf x => [.ldi (c.fp.ofRatio x.neg x.digits (10 ^ x.scale))]
  | .setb b => [.ldi ((BitVec.ofBool b).setWidth 32)]
  | .enable b => [.ldi ((BitVec.ofBool b).setWidth 32), .seten]
  | .clock ms => [.ldi (BitVec.ofNat 32 ms), .tick]
  | .s12tos16 => [.s12tof, .ftos16]
  | .s16tos12 => [.s16tof, .ftos12]
  | .m2n mb nb n => m2nCommands c mb nb n
  | .n2m nb mb k => n2mCommands c nb mb k

/-- The expansion of a pseudo-instruction: none where a precondition fails, and then the host issues nothing, not even a
part (R135, D25). -/
def expand (c : Config) (p : Pseudo) : Option (List Instr) :=
  if p.wellFormed c then some (pseudoCommands c p) else none

/-- What `readModem` returns: the count of samples decoded, not bytes written (R136). -/
def readModemCount (c : Config) (k : Nat) : Nat := n2mSamples c k

/-- The commands of a list, run one after the other as command words (R26). -/
def runInstrs (is : List Instr) (s : State) : Host.Outcome State Fault Refusal := runWords (is.map encode) s

end Sys2Proof.Machine
end

