-- ==== Sys2Proof/Machine/Assembler.lean ====
section
/-! DEFINITION. The spec's assembler: command lines to words and back (30_encoding.md R68 to R71). Text is a list of
characters. What R68 leaves open of the spelling is log 13. -/

namespace Sys2Proof.Machine

/-! ### Command lines as terms -/

/-- The command of a command line; `none` for a line that is not well-formed (R68). -/
def assembleLine (l : AsmLine) : Option Instr :=
  if l.wellFormed then
    some (l.mnemonic.build (BitVec.ofNat 8 (l.operands.getD 1 0)) (BitVec.ofNat 16 (l.operands.getD 0 0))
      (BitVec.ofNat 32 (l.operands.getD 0 0)))
  else none

/-- The command line of a command: the operand fields of its row, address first (R68, R71). -/
def lineOf (i : Instr) : AsmLine :=
  { mnemonic := i.mnemonic
    operands := (if i.mnemonic.usesA then [i.aOperand.toNat] else []) ++
      (if i.mnemonic.usesW then [i.wOperand.toNat] else []) ++ (if i.mnemonic.usesD then [i.dOperand.toNat] else []) }

/-! ### Numbers -/

/-- The value of a digit, decimal or hexadecimal, if it is one below the base. -/
def digitValue (base : Nat) (c : Char) : Option Nat :=
  let n := c.toNat
  let v := if 48 ≤ n ∧ n ≤ 57 then n - 48 else if 65 ≤ n ∧ n ≤ 70 then n - 55
    else if 97 ≤ n ∧ n ≤ 102 then n - 87 else base
  if v < base then some v else none

/-- Digits read from the left, the value so far being `acc`. -/
def readDigits (base acc : Nat) : List Char → Option Nat
  | [] => some acc
  | c :: cs => match digitValue base c with
    | some v => readDigits base (acc * base + v) cs
    | none => none

/-- A number: decimal, or hexadecimal with `0x` (R68). -/
def readNumber : List Char → Option Nat
  | [] => none
  | '0' :: 'x' :: c :: cs => readDigits 16 0 (c :: cs)
  | cs => readDigits 10 0 cs

/-- The character of a digit below 16. -/
def digitChar (v : Nat) : Char := Char.ofNat (if v < 10 then 48 + v else 55 + v)

/-- The digits of a number, most significant first, at most `fuel` of them, before those already written. -/
def writeDigits (base : Nat) : Nat → Nat → List Char → List Char
  | 0, _, cs => cs
  | fuel + 1, n, cs =>
    if n < base then digitChar n :: cs else writeDigits base fuel (n / base) (digitChar (n % base) :: cs)

/-- A number in decimal (R71). -/
def writeDecimal (n : Nat) : List Char := writeDigits 10 (n + 1) n []

/-- The low `k` hexadecimal digits of a number. -/
def writeHex : Nat → Nat → List Char → List Char
  | 0, _, cs => cs
  | k + 1, n, cs => writeHex k (n / 16) (digitChar (n % 16) :: cs)

/-- A decimal literal such as `-0.25`: sign, digits, and digits after a point (R69, LDF; log 14). -/
def readDecimal (cs : List Char) : Option DecimalLiteral :=
  let neg := cs.head? == some '-'
  let body := if neg then cs.tail else cs
  let whole := body.takeWhile (· ≠ '.')
  let part := (body.dropWhile (· ≠ '.')).tail
  match whole, readDigits 10 0 (whole ++ part) with
  | _ :: _, some v => some { neg := neg, digits := v, scale := part.length }
  | _, _ => none

/-! ### Lines of text -/

/-- The text without spaces at its two ends. -/
def trim (cs : List Char) : List Char :=
  ((cs.dropWhile (· == ' ')).reverse.dropWhile (· == ' ')).reverse

/-- The pieces of a text between commas. -/
def splitCommas : List Char → List (List Char)
  | [] => [[]]
  | c :: cs =>
    if c = ',' then [] :: splitCommas cs
    else match splitCommas cs with
      | [] => [[c]]
      | p :: ps => (c :: p) :: ps

/-- A line as its head word and its operands; a comment runs from `;` to the end of the line (R68). -/
def splitLine (cs : List Char) : List Char × List (List Char) :=
  let code := trim (cs.takeWhile (· ≠ ';'))
  let word := code.takeWhile (· ≠ ' ')
  let rest := trim (code.dropWhile (· ≠ ' '))
  (word, if rest.isEmpty then [] else (splitCommas rest).map trim)

/-- Every text a number, or `none`. -/
def readNumbers : List (List Char) → Option (List Nat)
  | [] => some []
  | t :: ts => match readNumber t, readNumbers ts with
    | some n, some ns => some (n :: ns)
    | _, _ => none

/-- The mnemonic as it is written: in capitals (R68). -/
def mnemonicText : Mnemonic → List Char
  | .nop => ['N', 'O', 'P'] | .ldi => ['L', 'D', 'I']
  | .seten => ['S', 'E', 'T', 'E', 'N'] | .tick => ['T', 'I', 'C', 'K']
  | .rdbit => ['R', 'D', 'B', 'I', 'T'] | .wrbit => ['W', 'R', 'B', 'I', 'T']
  | .rdfld => ['R', 'D', 'F', 'L', 'D'] | .wrfld => ['W', 'R', 'F', 'L', 'D']
  | .ldb => ['L', 'D', 'B'] | .stb => ['S', 'T', 'B'] | .ldh => ['L', 'D', 'H'] | .sth => ['S', 'T', 'H']
  | .s12tof => ['S', '1', '2', 'T', 'O', 'F'] | .ftos12 => ['F', 'T', 'O', 'S', '1', '2']
  | .s16tof => ['S', '1', '6', 'T', 'O', 'F'] | .ftos16 => ['F', 'T', 'O', 'S', '1', '6']

/-- The mnemonics in the order of the opcode map. -/
def allMnemonics : List Mnemonic :=
  [.nop, .ldi, .seten, .tick, .rdbit, .wrbit, .rdfld, .wrfld, .ldb, .stb, .ldh, .sth, .s12tof, .ftos12, .s16tof, .ftos16]

/-- The mnemonic a head word is. -/
def readMnemonic (word : List Char) : Option Mnemonic := allMnemonics.find? (fun m => mnemonicText m == word)

/-- A bool operand: 0 or 1 (R69). -/
def readBool (t : List Char) : Option Bool :=
  match readNumber t with
  | some 0 => some false
  | some 1 => some true
  | _ => none

/-- A line of text as a pseudo-instruction (R69). -/
def readPseudo (word : List Char) (ops : List (List Char)) : Option Pseudo :=
  if word = ['L', 'D', 'F'] then (match ops with | [t] => (readDecimal t).map .ldf | _ => none)
  else if word = ['S', 'E', 'T', 'B'] then (match ops with | [t] => (readBool t).map .setb | _ => none)
  else if word = ['E', 'N', 'A', 'B', 'L', 'E'] then (match ops with | [t] => (readBool t).map .enable | _ => none)
  else match readNumbers ops with
    | some [] =>
      if word = ['S', '1', '2', 'T', 'O', 'S', '1', '6'] then some .s12tos16
      else if word = ['S', '1', '6', 'T', 'O', 'S', '1', '2'] then some .s16tos12 else none
    | some [x] =>
      if word = ['R', 'D', '1', '2'] then some (.rd12 x)
      else if word = ['W', 'R', '1', '2'] then some (.wr12 x)
      else if word = ['C', 'L', 'O', 'C', 'K'] then some (.clock x) else none
    | some [x, y, z] =>
      if word = ['M', '2', 'N'] then some (.m2n x y z)
      else if word = ['N', '2', 'M'] then some (.n2m x y z) else none
    | _ => none

/-- The commands a line of text assembles to: one, an expansion, or none at all for a line without a command (R68, R69). -/
def assembleText (c : Config) (cs : List Char) : Option (List Instr) :=
  match splitLine cs with
  | ([], _) => some []
  | (word, ops) =>
    match readMnemonic word with
    | some m => match readNumbers ops with
      | some ns => (assembleLine { mnemonic := m, operands := ns }).map fun i => [i]
      | none => none
    | none => match readPseudo word ops with
      | some p => expand c p
      | none => none

/-- A program: its lines assemble to the list of their words, in order (R68). -/
def assembleProgram (c : Config) : List (List Char) → Option (List CommandWord)
  | [] => some []
  | l :: ls => match assembleText c l, assembleProgram c ls with
    | some is, some ws => some (is.map encode ++ ws)
    | _, _ => none

/-- Operands in decimal, separated by commas. -/
def writeOperands : List Nat → List Char
  | [] => []
  | [n] => writeDecimal n
  | n :: ns => writeDecimal n ++ [',', ' '] ++ writeOperands ns

/-- A command line as text (R68, R71). -/
def writeLine (l : AsmLine) : List Char :=
  mnemonicText l.mnemonic ++ (if l.operands.isEmpty then [] else ' ' :: writeOperands l.operands)

/-- The printed form of a command word (R71): the command line, or `.word 0x` and sixteen digits for an illegal word. -/
def printWord (w : CommandWord) : List Char :=
  match decode w with
  | .ok i => writeLine (lineOf i)
  | .error _ => ['.', 'w', 'o', 'r', 'd', ' ', '0', 'x'] ++ writeHex 16 w.toNat []

end Sys2Proof.Machine
end

