-- ==== Sys2Proof/FloatMeaning.lean ====
section
/-! DEFINITION. The rational reading of binary32, as 42_quantizer.md R122 states it: what claims about the float
arithmetic are stated in. The machine does not use it. -/

namespace Sys2Proof.FloatMeaning

/-- The sign `p[31]` (R122). -/
def sign (p : Word32) : Bool := p.getLsbD 31

/-- The exponent field `p[30:23]` (R122). -/
def expField (p : Word32) : Nat := (p.extractLsb' 23 8).toNat

/-- The fraction `p[22:0]` (R122). -/
def fraction (p : Word32) : Nat := (p.extractLsb' 0 23).toNat

/-- A zero, subnormal or normal number (R122). -/
abbrev IsFinite (p : Word32) : Prop := expField p ≠ 255

/-- Plus or minus infinity (R122). -/
abbrev IsInfinite (p : Word32) : Prop := expField p = 255 ∧ fraction p = 0

/-- A NaN (R122). -/
abbrev IsNaN (p : Word32) : Prop := expField p = 255 ∧ fraction p ≠ 0

/-- `(-1)^s` (R122). -/
def signFactor (p : Word32) : ℚ := if sign p then -1 else 1

/-- `f32(p)` of a finite pattern (R122): `(-1)^s * 2^(e-127) * (1 + m / 2^23)` for an exponent field of 1 to 254, and
`(-1)^s * 2^(-126) * (m / 2^23)` for 0. -/
def realValue (p : Word32) : ℚ :=
  if expField p = 0 then signFactor p * 2 ^ (-126 : ℤ) * ((fraction p : ℚ) / 2 ^ 23)
  else signFactor p * 2 ^ ((expField p : ℤ) - 127) * (1 + (fraction p : ℚ) / 2 ^ 23)

/-- `p` is the rounding of the real number `x` to binary32, to nearest with ties to even (R122): the infinity of the sign
of `x` from `2^128 - 2^103` on; otherwise a finite value that no other is nearer to `x` than and, if another is equally
near, one whose fraction is even. (The sign of a zero result is not said here.) -/
def RoundsTo (x : ℚ) (p : Word32) : Prop :=
  if 2 ^ 128 - 2 ^ 103 ≤ |x| then IsInfinite p ∧ (sign p = true ↔ x < 0)
  else IsFinite p ∧
    (∀ q, IsFinite q → |realValue p - x| ≤ |realValue q - x|) ∧
    (∀ q, IsFinite q → |realValue q - x| = |realValue p - x| → realValue q ≠ realValue p → fraction p % 2 = 0)

/-- `trunc(x)` (00_scope.md R7): the fraction of `x` is discarded, rounding toward zero. -/
def truncToward (x : ℚ) : ℤ := if 0 ≤ x then ⌊x⌋ else ⌈x⌉

end Sys2Proof.FloatMeaning
end

