-- ==== Sys2Proof/Safety.lean ====
section
/-! DEFINITION. What counts as a safe run, the cause table of the faults, and the invariant of the machine: the terms the
claims are stated in. -/

namespace Sys2Proof.Safety
open Sys2Proof.Machine

/-- A run over command words is successful when it ends with `ST` = 0 (00_scope.md R12). -/
def SuccessfulRun (ws : List CommandWord) (s t : State) : Prop := runWords ws s = .next t ∧ t.st = 0

/-! ### The cause table (60_exceptions.md R162, R163, R166, R168) -/

/-- `WidthFault`: RDFLD or WRFLD with `W` = 0 or `W` > 32 (R162). -/
def widthOffends : Instr → Bool
  | .rdfld _ w | .wrfld _ w => decide (w.toNat = 0 ∨ 32 < w.toNat)
  | .nop | .ldi _ | .seten | .tick | .rdbit _ | .wrbit _ | .ldb _ | .stb _ | .ldh _ | .sth _
  | .s12tof | .ftos12 | .s16tof | .ftos16 => false

/-- `OutOfRange`: the access reaches beyond the buffer (R163). -/
def rangeOffends (bufBytes : Nat) : Instr → Bool
  | .rdbit a | .wrbit a => decide (8 * bufBytes ≤ a.toNat)
  | .rdfld a w | .wrfld a w => decide (8 * bufBytes < a.toNat + w.toNat)
  | .ldb a | .stb a => decide (bufBytes ≤ a.toNat)
  | .ldh a | .sth a => decide (bufBytes < a.toNat + 2)
  | .nop | .ldi _ | .seten | .tick | .s12tof | .ftos12 | .s16tof | .ftos16 => false

/-- `Domain`: an operand or a result of a quantizer command is not representable (R166). -/
def domainOffends (c : Config) (acc : Word32) : Instr → Bool
  | .s12tof => decide (4095 < acc.toNat)
  | .s16tof => decide (65535 < acc.toNat)
  | .ftos12 => (floatToSample12 c acc).isNone
  | .ftos16 => (floatToSample16 c acc).isNone
  | .nop | .ldi _ | .seten | .tick | .rdbit _ | .wrbit _ | .rdfld _ _ | .wrfld _ _
  | .ldb _ | .stb _ | .ldh _ | .sth _ => false

/-- The one cause a command reports, the width before the range (R164, R169). -/
def faultOf (c : Config) (acc : Word32) (i : Instr) : Option FaultCause :=
  if widthOffends i then some .widthFault
  else if rangeOffends c.bufBytes i then some .outOfRange
  else if domainOffends c acc i then some .domain
  else none

/-! ### The invariant -/

/-- The fault record says the truth about the first fault (10_state.md R24, R25; 60_exceptions.md R168): no fault and a
zero `FCMD`; or an illegal word and `ILL` alone; or a legal word, and the one bit of the cause that the word has on this
buffer and this `ACC`. -/
def FaultExplained (s : State) : Prop :=
  (s.st = 0x00 ∧ s.fcmd = 0) ∨
  (s.st = 0x01 ∧ ∃ why, decode s.fcmd = .error why) ∨
  (∃ i cause, decode s.fcmd = .ok i ∧ faultOf s.cfg s.acc i = some cause ∧ s.st = cause.code)

/-- The invariant of the machine. -/
structure Inv (s : State) : Prop where
  /-- `BUF_BYTES` is in its range, every other parameter at its value (00_scope.md R5). -/
  config : s.cfg.wellFormed = true
  /-- Memory is in its canonical form. -/
  memory : s.buf.wf
  /-- Only bytes of `BUF` hold a value (10_state.md R29). -/
  inside : ∀ c ∈ s.buf, c.1 < s.bufBytes
  /-- `CTRL[7:1]` reads zero (10_state.md R27). -/
  enable : s.ctrl.toNat ≤ 1
  /-- The fault record is true. -/
  record : FaultExplained s

end Sys2Proof.Safety
end

