-- ==== Sys2Proof/Certificates/Slice0/Obligations.lean ====
section
/-! DEFINITION. The statements for the provers. Each docstring names the rule of spec/ it formalises, or says that it is
derived and from what. -/

open Sys2Proof Sys2Proof.Machine Sys2Proof.Safety Sys2Proof.FloatMeaning

/-! ### Reset and the step -/

/-- R191: after reset `ACC`, `ST`, `FCMD` and `CTRL` are zero and no byte of `BUF` holds a known value. -/
def Obligations.ResetStateHasRegistersZeroAndBufUnspecified : Prop :=
  State.reset.acc = 0x00000000 ∧ State.reset.st = 0x00 ∧ State.reset.fcmd = 0x0000000000000000 ∧
    State.reset.ctrl = 0x00 ∧ ∀ i, State.reset.buf.get? i = none

/-- R190 (derived: what of the model stands outside the block, logs 1, 2 and 6, is the model's choice): the host's reset
puts the block into the reset state whatever the state before, halted or not; the parameter, the moves not yet taken and
the responses already returned stay; and every byte of `BUF` is a fresh free value. -/
def Obligations.HostResetRestoresResetState : Prop :=
  ∀ (s : State) (rest : List HostMove), s.pending = .reset :: rest →
    ∃ t, step s = .next t ∧
      t = { State.reset with bufBytes := s.bufBytes, draw := t.draw, pending := rest, responses := s.responses } ∧
      t.draw ≠ s.draw ∧ ∀ i, t.readByte i = Config.resetByte t.draw i

/-- R164 (derived): where the host presents a word to a block that is not halted and the word decodes, the step is the
meaning of the command on the state with the word taken, and then the response (`ACC`, `ST`) is returned. -/
def Obligations.StepRunsTheDecodedCommand : Prop :=
  ∀ (s t : State) (w : CommandWord) (rest : List HostMove) (i : Instr),
    s.pending = .command w :: rest → s.st = 0 → decode w = .ok i → exec i { s with pending := rest } = .next t →
    step s = .next { t with responses := t.responses ++ [{ racc := t.acc, rst := t.st }] }

/-- R167: a halted block ignores every word, legal or not; the response is the unchanged (`ACC`, `ST`). -/
def Obligations.HaltedBlockIgnoresEveryWord : Prop :=
  ∀ (s : State) (w : CommandWord) (rest : List HostMove), s.pending = .command w :: rest → s.st ≠ 0 →
    step s = .next { s with pending := rest, responses := s.responses ++ [{ racc := s.acc, rst := s.st }] }

/-- R161: a word that matches no row of the opcode map raises `IllegalCommand`: `ST.ILL` is set, `FCMD` takes the word,
nothing else changes, whatever `ACC` and `BUF` hold; and no other word sets `ST.ILL`. -/
def Obligations.IllegalWordRaisesIllegalCommand : Prop :=
  ∀ (s : State) (w : CommandWord) (rest : List HostMove), s.pending = .command w :: rest → s.st = 0 →
    ((∀ r ∈ opcodeMap, w &&& r.mask ≠ r.pattern) →
      step s = .next { s with
        st := 0x01, fcmd := w, pending := rest, responses := s.responses ++ [{ racc := s.acc, rst := 0x01 }] }) ∧
    ((∃ r ∈ opcodeMap, w &&& r.mask = r.pattern) → ∀ t, step s = .next t → t.stIll = false)

/-- Derived; the model's choice (log 4): where the host presents nothing, a step changes nothing. -/
def Obligations.StepWithoutAMoveChangesNothing : Prop :=
  ∀ s : State, s.pending = [] → step s = .next s

/-- R11: a command completes, faults or is ignored; there is no fourth outcome. -/
def Obligations.CommandCompletesFaultsOrIsIgnored : Prop :=
  ∀ (w : CommandWord) (s : State), ∃ t, command w s = .next t ∧
    ((s.st = 0 ∧ t.st = 0 ∧ t.fcmd = s.fcmd ∧ t.responses = s.responses ++ [{ racc := t.acc, rst := t.st }]) ∨
     (s.st = 0 ∧ t.st ≠ 0 ∧ ∃ cause : FaultCause, t =
        { s with st := cause.code, fcmd := w, responses := s.responses ++ [{ racc := s.acc, rst := cause.code }] }) ∨
     (s.st ≠ 0 ∧ t = { s with responses := s.responses ++ [{ racc := s.acc, rst := s.st }] }))

/-- Derived (R5, R24, R25, R27, R29, R168): the reset state meets the invariant. -/
def Obligations.ResetStateMeetsTheInvariant : Prop := Inv State.reset

/-- Derived (R5, R24, R25, R27, R29, R168): from every state that meets the invariant a step leads to one that does:
memory stays canonical and inside `BUF`, `CTRL[7:1]` stays zero, at most one bit of `ST` is set, and `FCMD` and `ST`
tell the truth about the first fault. -/
def Obligations.EveryStepKeepsTheInvariant : Prop :=
  ∀ s t : State, Inv s → step s = .next t → Inv t

/-- Derived (R20, R26, R51): taking the host's pending words one step at a time is folding the step function of R164 over
the list of words, in order; no word is lost, merged or reordered. -/
def Obligations.StepsOverPendingWordsAreTheFold : Prop :=
  ∀ (ws : List CommandWord) (s : State),
    Host.Core.run core ws.length { s with pending := ws.map .command } = runWords ws { s with pending := [] }

/-- Derived (R167, R171, R173): once halted, a run changes nothing and every response repeats the same (`ACC`, `ST`). -/
def Obligations.HaltedRunRepeatsItsResponse : Prop :=
  ∀ (ws : List CommandWord) (s : State), s.st ≠ 0 →
    runWords ws s = .next
      { s with responses := s.responses ++ List.replicate ws.length { racc := s.acc, rst := s.st } }

/-- Derived (R12, R167): a successful run is successful at every point of it, and it holds legal words only. -/
def Obligations.SuccessfulRunIsSuccessfulThroughout : Prop :=
  ∀ (ws ws' : List CommandWord) (s t : State), SuccessfulRun (ws ++ ws') s t →
    (∃ u, SuccessfulRun ws s u ∧ SuccessfulRun ws' u t) ∧ ∀ w ∈ ws ++ ws', ∃ i, decode w = .ok i

/-! ### Encoding -/

/-- Derived (R60, R64, R71): decoding the encoding of any command gives it back, with every operand at every value. -/
def Obligations.DecodeOfEncodeIsTheCommand : Prop := ∀ i : Instr, decode (encode i) = .ok i

/-- Derived (R65, R71): encoding what a legal word decodes to gives the word back. -/
def Obligations.EncodeOfDecodeIsTheWord : Prop :=
  ∀ (w : CommandWord) (i : Instr), decode w = .ok i → encode i = w

/-- R65: every word either matches exactly one row of R64, and decodes to a command of that row, or is illegal, `OP` being
tested before the must-be-zero fields; `W` and `A` play no part. -/
def Obligations.DecodingIsTotalAndFollowsTheOpcodeMap : Prop :=
  ∀ w : CommandWord,
    (∃ i, decode w = .ok i ∧ ∃ r ∈ opcodeMap, r.mnemonic = i.mnemonic ∧
      ∀ r' ∈ opcodeMap, (w &&& r'.mask = r'.pattern ↔ r' = r)) ∨
    (decode w = .error .unlistedOp ∧ (∀ r ∈ opcodeMap, CommandWord.opField w ≠ r.mnemonic.op) ∧
      ∀ r ∈ opcodeMap, w &&& r.mask ≠ r.pattern) ∨
    (decode w = .error .nonzeroField ∧ (∃ r ∈ opcodeMap, CommandWord.opField w = r.mnemonic.op) ∧
      ∀ r ∈ opcodeMap, w &&& r.mask ≠ r.pattern)

/-- R70: the encoding examples, each read by the decoder and written by the encoder. -/
def Obligations.ExampleWordsDecode : Prop :=
  let exampleWord (w : CommandWord) (i : Instr) := decode w = .ok i ∧ encode i = w
  exampleWord 0x0000000000000000 .nop ∧ exampleWord 0x010000003F800000 (.ldi 0x3F800000) ∧
  exampleWord 0x1000001700000000 (.rdbit 23) ∧ exampleWord 0x1100000000000000 (.wrbit 0) ∧
  exampleWord 0x120C000C00000000 (.rdfld 12 12) ∧ exampleWord 0x130C001800000000 (.wrfld 24 12) ∧
  exampleWord 0x2000000200000000 (.ldb 2) ∧ exampleWord 0x2300012C00000000 (.sth 300) ∧
  exampleWord 0x3000000000000000 .s12tof ∧ exampleWord 0x3300000000000000 .ftos16

/-- Derived (R68, R71): a command and its command line give each other back; a line that is not well-formed gives none. -/
def Obligations.CommandLinesAndCommandsAreInverse : Prop :=
  (∀ i : Instr, assembleLine (lineOf i) = some i) ∧
  (∀ (l : AsmLine) (i : Instr), assembleLine l = some i → lineOf i = l) ∧
  (∀ l : AsmLine, (assembleLine l).isSome = l.wellFormed)

/-- Derived (R68, R71; the spelling is the model's choice, log 13): the printed form of a command's word assembles to the
command; an illegal word prints as `.word 0x` and sixteen hexadecimal digits whose number is the word. -/
def Obligations.PrintedWordAssemblesBack : Prop :=
  (∀ (c : Config) (i : Instr), assembleText c (printWord (encode i)) = some [i]) ∧
  (∀ (w : CommandWord) (why : IllegalWord), decode w = .error why →
    ∃ digits, printWord w = ['.', 'w', 'o', 'r', 'd', ' ', '0', 'x'] ++ digits ∧ digits.length = 16 ∧
      readDigits 16 0 digits = some w.toNat)

/-- R69: the expansions of the pseudo-instructions, those of M2N and N2M being the loops of R133 and R136, where the
operands fit and the preconditions hold. -/
def Obligations.PseudoInstructionsExpandAsTabled : Prop :=
  ∀ size : Nat, let c := Config.ofSize size
    (∀ a < 65536, expand c (.rd12 a) = some [.rdfld (BitVec.ofNat 16 a) 12] ∧
      expand c (.wr12 a) = some [.wrfld (BitVec.ofNat 16 a) 12]) ∧
    (∀ x : DecimalLiteral, ∃ p, expand c (.ldf x) = some [.ldi p] ∧
      RoundsTo ((if x.neg then -1 else 1) * (x.digits : ℚ) / 10 ^ x.scale) p) ∧
    expand c (.setb false) = some [.ldi 0] ∧ expand c (.setb true) = some [.ldi 1] ∧
    expand c (.enable false) = some [.ldi 0, .seten] ∧ expand c (.enable true) = some [.ldi 1, .seten] ∧
    (∀ ms < 2 ^ 32, expand c (.clock ms) = some [.ldi (BitVec.ofNat 32 ms), .tick]) ∧
    expand c .s12tos16 = some [.s12tof, .ftos16] ∧ expand c .s16tos12 = some [.s16tof, .ftos12] ∧
    (∀ mb nb n, m2nPre c mb nb n = true → expand c (.m2n mb nb n) =
      some ((List.range (2 * n / 3)).flatMap fun k =>
        [.rdfld (BitVec.ofNat 16 (8 * mb + 12 * k)) 12, .s12tof, .ftos16, .sth (BitVec.ofNat 16 (nb + 2 * k))])) ∧
    (∀ nb mb k, n2mPre c nb mb k = true → expand c (.n2m nb mb k) =
      some ((List.range (k / 2)).flatMap fun i =>
        [.ldh (BitVec.ofNat 16 (nb + 2 * i)), .s16tof, .ftos12, .wrfld (BitVec.ofNat 16 (8 * mb + 12 * i)) 12]))

/-! ### Faults -/

/-- R165: what `raise F(cmd)` does, the response it returns, and that the block is halted after it. -/
def Obligations.RaiseRecordsTheCauseAndTheWord : Prop :=
  ∀ (s : State) (cmd : CommandWord),
    s.raise .illegalCommand cmd = { s with st := s.st ||| 0x01, fcmd := cmd } ∧
    s.raise .widthFault cmd = { s with st := s.st ||| 0x02, fcmd := cmd } ∧
    s.raise .outOfRange cmd = { s with st := s.st ||| 0x04, fcmd := cmd } ∧
    s.raise .domain cmd = { s with st := s.st ||| 0x08, fcmd := cmd } ∧
    ∀ cause, (s.raise cause cmd).response = { racc := s.acc, rst := s.st ||| cause.code } ∧
      (s.raise cause cmd).halted = true

/-- Derived (R164, R168, R169, R171): a legal word on a block that is not halted faults exactly when the cause table names
a cause for it; then `FCMD` takes the presented word, `ST` the one bit of the cause, and nothing else changes; otherwise
`ST` and `FCMD` stay. -/
def Obligations.LegalWordFaultsByTheCauseTable : Prop :=
  ∀ (s : State) (w : CommandWord) (i : Instr), s.st = 0 → decode w = .ok i →
    match faultOf s.cfg s.acc i with
    | some cause => command w s = .next
        { s with st := cause.code, fcmd := w, responses := s.responses ++ [{ racc := s.acc, rst := cause.code }] }
    | none => ∃ t, command w s = .next t ∧ t.st = 0 ∧ t.fcmd = s.fcmd

/-- R162: `WidthFault` is raised by RDFLD and WRFLD when `W` is 0 or above 32, whatever `A`, and by nothing else. -/
def Obligations.WidthFaultIsForIllegalWidthsOnly : Prop :=
  (∀ (s : State) (a : BitVec 16) (w : BitVec 8), (w.toNat = 0 ∨ 32 < w.toNat) →
    exec (.rdfld a w) s = .next { s with st := s.st ||| 0x02, fcmd := encode (.rdfld a w) } ∧
    exec (.wrfld a w) s = .next { s with st := s.st ||| 0x02, fcmd := encode (.wrfld a w) }) ∧
  (∀ (s t : State) (i : Instr), s.stWid = false → exec i s = .next t → t.stWid = true →
    ∃ (a : BitVec 16) (w : BitVec 8), (i = .rdfld a w ∨ i = .wrfld a w) ∧ (w.toNat = 0 ∨ 32 < w.toNat))

/-- R163: `OutOfRange` is raised by the eight commands that address `BUF` when the access reaches beyond it, the sums not
wrapping; nothing is written, not even the part in range; and nothing else raises it. -/
def Obligations.OutOfRangeIsForAccessesBeyondBufOnly : Prop :=
  (∀ (s : State) (a : BitVec 16), 8 * s.bufBytes ≤ a.toNat →
    exec (.rdbit a) s = .next { s with st := s.st ||| 0x04, fcmd := encode (.rdbit a) } ∧
    exec (.wrbit a) s = .next { s with st := s.st ||| 0x04, fcmd := encode (.wrbit a) }) ∧
  (∀ (s : State) (a : BitVec 16) (w : BitVec 8), 1 ≤ w.toNat → w.toNat ≤ 32 →
    8 * s.bufBytes < a.toNat + w.toNat →
    exec (.rdfld a w) s = .next { s with st := s.st ||| 0x04, fcmd := encode (.rdfld a w) } ∧
    exec (.wrfld a w) s = .next { s with st := s.st ||| 0x04, fcmd := encode (.wrfld a w) }) ∧
  (∀ (s : State) (a : BitVec 16), s.bufBytes ≤ a.toNat →
    exec (.ldb a) s = .next { s with st := s.st ||| 0x04, fcmd := encode (.ldb a) } ∧
    exec (.stb a) s = .next { s with st := s.st ||| 0x04, fcmd := encode (.stb a) }) ∧
  (∀ (s : State) (a : BitVec 16), s.bufBytes < a.toNat + 2 →
    exec (.ldh a) s = .next { s with st := s.st ||| 0x04, fcmd := encode (.ldh a) } ∧
    exec (.sth a) s = .next { s with st := s.st ||| 0x04, fcmd := encode (.sth a) }) ∧
  (∀ (s t : State) (i : Instr), s.stOor = false → exec i s = .next t → t.stOor = true →
    rangeOffends s.bufBytes i = true ∧ widthOffends i = false)

/-! ### Control commands -/

/-- R150, R153: NOP and TICK leave the state exactly as it was, for every value of `ACC`; each has one word. -/
def Obligations.NopAndTickLeaveTheState : Prop :=
  (∀ s : State, exec .nop s = .next s ∧ exec .tick s = .next s) ∧
  ∀ w : CommandWord, (decode w = .ok .nop ↔ w = 0) ∧ (decode w = .ok .tick ↔ w = 0x0300000000000000)

/-- R151: LDI writes all 32 bits of `ACC` with the immediate, for every value of `D`, and nothing else. -/
def Obligations.LdiLoadsTheImmediate : Prop :=
  ∀ (s : State) (d : BitVec 32), exec (.ldi d) s = .next { s with acc := d }

/-- Derived (R152; the clause on later responses is `EnableFlagChangesNoResponse`): SETEN writes `CTRL.EN` with `ACC[0]`,
`CTRL[7:1]` zero, and nothing else. -/
def Obligations.SetenWritesTheEnableFlag : Prop :=
  ∀ s : State, exec .seten s = .next { s with ctrl := if s.acc.getLsbD 0 then 0x01 else 0x00 }

/-- Derived (R27, R152, 90_conflicts.md C8): no step behaves differently for either value of `CTRL`: two runs that differ
in `CTRL` only return the same responses and differ in `CTRL` only. -/
def Obligations.EnableFlagChangesNoResponse : Prop :=
  ∀ (n : Nat) (s t : State) (c : BitVec 8), Host.Core.run core n s = .next t →
    ∃ c', Host.Core.run core n { s with ctrl := c } = .next { t with ctrl := c' }

/-! ### BitField codec -/

/-- R83: RDBIT. -/
def Obligations.RdbitReadsOneBit : Prop :=
  ∀ (s : State) (a : BitVec 16),
    (a.toNat < 8 * s.bufBytes →
      exec (.rdbit a) s = .next { s with
        acc := ((s.readByte (a.toNat / 8) >>> (7 - a.toNat % 8)) &&& 1#8).setWidth 32 }) ∧
    (8 * s.bufBytes ≤ a.toNat →
      exec (.rdbit a) s = .next { s with st := s.st ||| 0x04, fcmd := encode (.rdbit a) })

/-- R86: WRBIT writes `ACC[0]` to the bit `A`, and leaves every other bit of `BUF` and every register. -/
def Obligations.WrbitWritesOneBit : Prop :=
  ∀ (s : State) (a : BitVec 16),
    (a.toNat < 8 * s.bufBytes →
      ∃ t, exec (.wrbit a) s = .next t ∧ t = { s with buf := t.buf } ∧
        (∀ i, i ≠ a.toNat / 8 → t.readByte i = s.readByte i) ∧
        (∀ k < 8, (t.readByte (a.toNat / 8)).getLsbD k =
          if k = 7 - a.toNat % 8 then s.acc.getLsbD 0 else (s.readByte (a.toNat / 8)).getLsbD k)) ∧
    (8 * s.bufBytes ≤ a.toNat →
      exec (.wrbit a) s = .next { s with st := s.st ||| 0x04, fcmd := encode (.wrbit a) })

/-- R84: RDFLD. Value bit `j` is the bit at buffer bit index `A + j`; bits of `ACC` at and above `W` are zero; the width is
tested before the range. -/
def Obligations.RdfldReadsTheField : Prop :=
  ∀ (s : State) (a : BitVec 16) (w : BitVec 8),
    (1 ≤ w.toNat → w.toNat ≤ 32 → a.toNat + w.toNat ≤ 8 * s.bufBytes →
      ∃ v : Word32, exec (.rdfld a w) s = .next { s with acc := v } ∧
        ∀ j < 32, v.getLsbD j =
          (decide (j < w.toNat) && (s.readByte ((a.toNat + j) / 8)).getLsbD (7 - (a.toNat + j) % 8))) ∧
    ((w.toNat = 0 ∨ 32 < w.toNat) →
      exec (.rdfld a w) s = .next { s with st := s.st ||| 0x02, fcmd := encode (.rdfld a w) }) ∧
    (1 ≤ w.toNat → w.toNat ≤ 32 → 8 * s.bufBytes < a.toNat + w.toNat →
      exec (.rdfld a w) s = .next { s with st := s.st ||| 0x04, fcmd := encode (.rdfld a w) })

/-- R85: WRFLD writes value bit `j` of `ACC` to buffer bit index `A + j` for `j < W`, leaves every other bit of `BUF`
and every register; the width is tested before the range; on a fault no bit is written. -/
def Obligations.WrfldWritesTheField : Prop :=
  ∀ (s : State) (a : BitVec 16) (w : BitVec 8),
    (1 ≤ w.toNat → w.toNat ≤ 32 → a.toNat + w.toNat ≤ 8 * s.bufBytes →
      ∃ t, exec (.wrfld a w) s = .next t ∧ t = { s with buf := t.buf } ∧
        ∀ b, (t.readByte (b / 8)).getLsbD (7 - b % 8) =
          if a.toNat ≤ b ∧ b < a.toNat + w.toNat then s.acc.getLsbD (b - a.toNat)
          else (s.readByte (b / 8)).getLsbD (7 - b % 8)) ∧
    ((w.toNat = 0 ∨ 32 < w.toNat) →
      exec (.wrfld a w) s = .next { s with st := s.st ||| 0x02, fcmd := encode (.wrfld a w) }) ∧
    (1 ≤ w.toNat → w.toNat ≤ 32 → 8 * s.bufBytes < a.toNat + w.toNat →
      exec (.wrfld a w) s = .next { s with st := s.st ||| 0x04, fcmd := encode (.wrfld a w) })

/-- Derived (R87 (c), (d)): RDFLD after WRFLD at the same `A`, `W` returns `ACC mod 2^W`, and WRFLD after RDFLD leaves
every byte of `BUF`. -/
def Obligations.FieldWriteAndReadAreInverse : Prop :=
  ∀ (s : State) (a : BitVec 16) (w : BitVec 8), 1 ≤ w.toNat → w.toNat ≤ 32 →
    a.toNat + w.toNat ≤ 8 * s.bufBytes →
    (∃ t u, exec (.wrfld a w) s = .next t ∧ exec (.rdfld a w) t = .next u ∧
      u.acc.toNat = s.acc.toNat % 2 ^ w.toNat) ∧
    (∃ t u, exec (.rdfld a w) s = .next t ∧ exec (.wrfld a w) t = .next u ∧ ∀ i, u.readByte i = s.readByte i)

/-- Derived (R87 (e), R51): writing one field does not affect a field whose bits are disjoint from it, and two such writes
commute. -/
def Obligations.DisjointFieldsAreIndependent : Prop :=
  ∀ (s : State) (a a' : BitVec 16) (w w' : BitVec 8) (v v' : BitVec 32),
    1 ≤ w.toNat → w.toNat ≤ 32 → 1 ≤ w'.toNat → w'.toNat ≤ 32 →
    a.toNat + w.toNat ≤ 8 * s.bufBytes → a'.toNat + w'.toNat ≤ 8 * s.bufBytes →
    (a.toNat + w.toNat ≤ a'.toNat ∨ a'.toNat + w'.toNat ≤ a.toNat) →
    (∃ t u r, exec (.wrfld a w) s = .next t ∧ exec (.rdfld a' w') t = .next u ∧ exec (.rdfld a' w') s = .next r ∧
      u.acc = r.acc) ∧
    (∃ t t' u u', exec (.wrfld a w) { s with acc := v } = .next t ∧ exec (.wrfld a' w') { t with acc := v' } = .next t' ∧
      exec (.wrfld a' w') { s with acc := v' } = .next u ∧ exec (.wrfld a w) { u with acc := v } = .next u' ∧
      ∀ i, t'.readByte i = u'.readByte i)

/-- Derived (R87 (f)): a field is the concatenation of its two parts, the part at the lower bit offset less significant. -/
def Obligations.FieldIsTheConcatenationOfItsParts : Prop :=
  ∀ (s : State) (a a' : BitVec 16) (w w1 w2 : BitVec 8), 1 ≤ w1.toNat → 1 ≤ w2.toNat → w.toNat ≤ 32 →
    w.toNat = w1.toNat + w2.toNat → a'.toNat = a.toNat + w1.toNat → a.toNat + w.toNat ≤ 8 * s.bufBytes →
    ∃ t t1 t2, exec (.rdfld a w) s = .next t ∧ exec (.rdfld a w1) s = .next t1 ∧ exec (.rdfld a' w2) s = .next t2 ∧
      t.acc.toNat = t1.acc.toNat + 2 ^ w1.toNat * t2.acc.toNat

/-- R131: the packed layout. After the two 12-bit fields of the group at bit offset `8 * m` are written with `x` and `y`,
byte 0 is the reversal of `x[7:0]`, byte 1 the reversals of the nibbles `x[11:8]` and `y[3:0]`, byte 2 the reversal of
`y[11:4]`. -/
def Obligations.PackedGroupHasTheTabledLayout : Prop :=
  ∀ (s : State) (m : Nat) (x y : BitVec 32), m + 3 ≤ s.bufBytes → 8 * m + 12 < 65536 →
    ∃ t u, exec (.wrfld (BitVec.ofNat 16 (8 * m)) 12) { s with acc := x } = .next t ∧
      exec (.wrfld (BitVec.ofNat 16 (8 * m + 12)) 12) { t with acc := y } = .next u ∧
      u.readByte m = (x.extractLsb' 0 8).reverse ∧
      u.readByte (m + 1) = (x.extractLsb' 8 4).reverse ++ (y.extractLsb' 0 4).reverse ∧
      u.readByte (m + 2) = (y.extractLsb' 4 8).reverse

/-- Derived (R87 (g)): decoding the two samples of a group and writing them back, over any other content of its three
bytes, reproduces the three bytes. -/
def Obligations.RepackingAGroupIsLossless : Prop :=
  ∀ (s s' : State) (m : Nat), m + 3 ≤ s.bufBytes → 8 * m + 12 < 65536 → s'.bufBytes = s.bufBytes →
    ∃ x y t u, exec (.rdfld (BitVec.ofNat 16 (8 * m)) 12) s = .next { s with acc := x } ∧
      exec (.rdfld (BitVec.ofNat 16 (8 * m + 12)) 12) s = .next { s with acc := y } ∧
      exec (.wrfld (BitVec.ofNat 16 (8 * m)) 12) { s' with acc := x } = .next t ∧
      exec (.wrfld (BitVec.ofNat 16 (8 * m + 12)) 12) { t with acc := y } = .next u ∧
      ∀ k < 3, u.readByte (m + k) = s.readByte (m + k)

/-! ### Byte access -/

/-- R100: LDB. -/
def Obligations.LdbLoadsTheByte : Prop :=
  ∀ (s : State) (a : BitVec 16),
    (a.toNat < s.bufBytes → exec (.ldb a) s = .next { s with acc := (s.readByte a.toNat).setWidth 32 }) ∧
    (s.bufBytes ≤ a.toNat →
      exec (.ldb a) s = .next { s with st := s.st ||| 0x04, fcmd := encode (.ldb a) })

/-- R101: STB stores `ACC[7:0]` at `A` and changes nothing else. -/
def Obligations.StbStoresTheByte : Prop :=
  ∀ (s : State) (a : BitVec 16),
    (a.toNat < s.bufBytes →
      ∃ t, exec (.stb a) s = .next t ∧ t = { s with buf := t.buf } ∧
        ∀ i, t.readByte i = if i = a.toNat then s.acc.extractLsb' 0 8 else s.readByte i) ∧
    (s.bufBytes ≤ a.toNat →
      exec (.stb a) s = .next { s with st := s.st ||| 0x04, fcmd := encode (.stb a) })

/-- R102: LDH loads the big-endian pair at any address, zero-extended. -/
def Obligations.LdhLoadsTheBigEndianPair : Prop :=
  ∀ (s : State) (a : BitVec 16),
    (a.toNat + 2 ≤ s.bufBytes →
      exec (.ldh a) s = .next { s with
        acc := BitVec.ofNat 32 (256 * (s.readByte a.toNat).toNat + (s.readByte (a.toNat + 1)).toNat) }) ∧
    (s.bufBytes < a.toNat + 2 →
      exec (.ldh a) s = .next { s with st := s.st ||| 0x04, fcmd := encode (.ldh a) })

/-- R103: STH stores `ACC[15:8]` at `A` and `ACC[7:0]` at `A + 1` and changes nothing else; on a fault neither byte is
written. -/
def Obligations.SthStoresTheBigEndianPair : Prop :=
  ∀ (s : State) (a : BitVec 16),
    (a.toNat + 2 ≤ s.bufBytes →
      ∃ t, exec (.sth a) s = .next t ∧ t = { s with buf := t.buf } ∧
        ∀ i, t.readByte i = if i = a.toNat then s.acc.extractLsb' 8 8
          else if i = a.toNat + 1 then s.acc.extractLsb' 0 8 else s.readByte i) ∧
    (s.bufBytes < a.toNat + 2 →
      exec (.sth a) s = .next { s with st := s.st ||| 0x04, fcmd := encode (.sth a) })

/-- Derived (R104): the four laws of the byte commands, for a pair inside `BUF` at `A`. -/
def Obligations.BytePairLawsHold : Prop :=
  ∀ (s : State) (a a1 : BitVec 16), a.toNat + 2 ≤ s.bufBytes → a1.toNat = a.toNat + 1 →
    (∃ t u, exec (.sth a) s = .next t ∧ exec (.ldh a) t = .next u ∧ u.acc.toNat = s.acc.toNat % 65536) ∧
    (∃ t u, exec (.ldh a) s = .next t ∧ exec (.sth a) t = .next u ∧ ∀ i, u.readByte i = s.readByte i) ∧
    (∃ t h l, exec (.ldh a) s = .next t ∧ exec (.ldb a) s = .next h ∧ exec (.ldb a1) s = .next l ∧
      t.acc.toNat = 256 * h.acc.toNat + l.acc.toNat) ∧
    (∃ t u v, exec (.sth a) s = .next t ∧
      exec (.stb a) { s with acc := (s.acc.extractLsb' 8 8).setWidth 32 } = .next u ∧
      exec (.stb a1) { u with acc := (s.acc.extractLsb' 0 8).setWidth 32 } = .next v ∧
      ∀ i, t.readByte i = v.readByte i)

/-- Derived (R44 (a), R40, R41): the byte view and the field view of a byte are bit reversals of each other: STB `m` and
then RDFLD `8 * m`, 8 returns the reversal of the byte stored. -/
def Obligations.FieldViewOfAByteIsItsReversal : Prop :=
  ∀ (s : State) (m a : BitVec 16), m.toNat < s.bufBytes → a.toNat = 8 * m.toNat →
    ∃ t u, exec (.stb m) s = .next t ∧ exec (.rdfld a 8) t = .next u ∧
      u.acc = (s.acc.extractLsb' 0 8).reverse.setWidth 32

/-! ### Sample quantizer -/

/-- R110: the operations on finite values are the exact results rounded once, to nearest with ties to even; the constants
have the patterns the rule gives; and `u2f(n)` is exact below 2^24. -/
def Obligations.FloatOperationsRoundToNearestEven : Prop :=
  ∀ size : Nat, let F := (Config.ofSize size).fp
    (∀ a b : Word32, IsFinite a → IsFinite b →
      RoundsTo (realValue a + realValue b) (F.add a b) ∧
      RoundsTo (realValue a - realValue b) (F.sub a b) ∧
      RoundsTo (realValue a * realValue b) (F.mul a b) ∧
      (realValue b ≠ 0 → RoundsTo (realValue a / realValue b) (F.div a b))) ∧
    F.ofNat 1 = 0x3F800000 ∧ floatHalf F = 0x3F000000 ∧ F.ofNat 2048 = 0x45000000 ∧ F.ofNat 32767 = 0x46FFFE00 ∧
    (∀ n < 2 ^ 24, IsFinite (F.ofNat n) ∧ realValue (F.ofNat n) = n)

/-- R112: S12TOF gives exactly the real number `(s - 2048) / 2048`, never -0.0, for `s` in 0..4095, and raises `Domain`
above. -/
def Obligations.S12tofIsExact : Prop :=
  ∀ s : State,
    (s.acc.toNat ≤ 4095 → ∃ p : Word32, exec .s12tof s = .next { s with acc := p } ∧ IsFinite p ∧
      realValue p = ((s.acc.toNat : ℚ) - 2048) / 2048 ∧ p ≠ 0x80000000) ∧
    (4095 < s.acc.toNat →
      exec .s12tof s = .next { s with st := s.st ||| 0x08, fcmd := 0x3000000000000000 })

/-- R114: S16TOF gives `(u2f(s) /. 32767.0) -. 1.0`, the division rounded and then the subtraction rounded, a zero result
being +0.0, for `s` in 0..65535, and raises `Domain` above. -/
def Obligations.S16tofRoundsTwice : Prop :=
  ∀ s : State,
    (s.acc.toNat ≤ 65535 → ∃ q p : Word32, exec .s16tof s = .next { s with acc := p } ∧
      RoundsTo ((s.acc.toNat : ℚ) / 32767) q ∧ RoundsTo (realValue q - 1) p ∧ IsFinite q ∧ IsFinite p ∧
      p ≠ 0x80000000) ∧
    (65535 < s.acc.toNat →
      exec .s16tof s = .next { s with st := s.st ||| 0x08, fcmd := 0x3200000000000000 })

/-- R113: FTOS12. A NaN raises `Domain`; otherwise `y` is `((f +. 1.0) *. 2048.0) +. 0.5`, each operation rounded
separately; an infinite `y` raises `Domain` (the sum is infinite exactly where the product is), and so does a `trunc(y)`
outside 0..4096; otherwise `ACC` takes it. -/
def Obligations.Ftos12FollowsTheFormula : Prop :=
  ∀ s : State,
    let faults := exec .ftos12 s = .next { s with st := s.st ||| 0x08, fcmd := 0x3100000000000000 }
    ((IsNaN s.acc ∨ IsInfinite s.acc) → faults) ∧
    (IsFinite s.acc → ∃ p m y : Word32,
      RoundsTo (realValue s.acc + 1) p ∧ IsFinite p ∧ RoundsTo (realValue p * 2048) m ∧
      (IsInfinite m → faults) ∧
      (IsFinite m → RoundsTo (realValue m + 1 / 2) y ∧ IsFinite y ∧
        if truncToward (realValue y) < 0 ∨ 4096 < truncToward (realValue y) then faults
        else exec .ftos12 s = .next { s with acc := BitVec.ofNat 32 (truncToward (realValue y)).toNat }))

/-- R115: FTOS16, with the scale 32767.0 and the limit 65535. -/
def Obligations.Ftos16FollowsTheFormula : Prop :=
  ∀ s : State,
    let faults := exec .ftos16 s = .next { s with st := s.st ||| 0x08, fcmd := 0x3300000000000000 }
    ((IsNaN s.acc ∨ IsInfinite s.acc) → faults) ∧
    (IsFinite s.acc → ∃ p m y : Word32,
      RoundsTo (realValue s.acc + 1) p ∧ IsFinite p ∧ RoundsTo (realValue p * 32767) m ∧
      (IsInfinite m → faults) ∧
      (IsFinite m → RoundsTo (realValue m + 1 / 2) y ∧ IsFinite y ∧
        if truncToward (realValue y) < 0 ∨ 65535 < truncToward (realValue y) then faults
        else exec .ftos16 s = .next { s with acc := BitVec.ofNat 32 (truncToward (realValue y)).toNat }))

/-- Derived (R113, R116): FTOS12 completes, with a result of at most 4096, exactly on the patterns
0x00000000..0x3F8007FE and 0x80000000..0xBF8017FF. -/
def Obligations.Ftos12CompletesExactlyOnItsPatterns : Prop :=
  ∀ s : State,
    ((s.acc.toNat ≤ 0x3F8007FE ∨ 0x80000000 ≤ s.acc.toNat ∧ s.acc.toNat ≤ 0xBF8017FF) →
      ∃ v : Word32, exec .ftos12 s = .next { s with acc := v } ∧ v.toNat ≤ 4096) ∧
    (¬(s.acc.toNat ≤ 0x3F8007FE ∨ 0x80000000 ≤ s.acc.toNat ∧ s.acc.toNat ≤ 0xBF8017FF) →
      exec .ftos12 s = .next { s with st := s.st ||| 0x08, fcmd := 0x3100000000000000 })

/-- Derived (R115, R116): FTOS16 completes, with a result of at most 65535, exactly on the patterns
0x00000000..0x3F80017E and 0x80000000..0xBF800180. -/
def Obligations.Ftos16CompletesExactlyOnItsPatterns : Prop :=
  ∀ s : State,
    ((s.acc.toNat ≤ 0x3F80017E ∨ 0x80000000 ≤ s.acc.toNat ∧ s.acc.toNat ≤ 0xBF800180) →
      ∃ v : Word32, exec .ftos16 s = .next { s with acc := v } ∧ v.toNat ≤ 65535) ∧
    (¬(s.acc.toNat ≤ 0x3F80017E ∨ 0x80000000 ≤ s.acc.toNat ∧ s.acc.toNat ≤ 0xBF800180) →
      exec .ftos16 s = .next { s with st := s.st ||| 0x08, fcmd := 0x3300000000000000 })

/-- Derived (R119): zeros and subnormals of either sign are absorbed by `+. 1.0`: FTOS12 gives 2048 and FTOS16 32767. -/
def Obligations.ZerosAndSubnormalsAreAbsorbed : Prop :=
  ∀ s : State, expField s.acc = 0 →
    exec .ftos12 s = .next { s with acc := 2048 } ∧ exec .ftos16 s = .next { s with acc := 32767 }

/-- R117: both round trips are exact, without a fault, over the whole valid ranges. -/
def Obligations.SampleRoundTripsAreExact : Prop :=
  (∀ s : State, s.acc.toNat ≤ 4095 → ∃ t, exec .s12tof s = .next t ∧ exec .ftos12 t = .next s) ∧
  (∀ s : State, s.acc.toNat ≤ 65535 → ∃ t, exec .s16tof s = .next t ∧ exec .ftos16 t = .next s)

/-- Derived (R118 (a), R134): S12TOF and then FTOS16 never faults on 0..4095, stays in 0..65518 and is strictly
increasing. -/
def Obligations.Sample12ToSample16IsStrictlyIncreasing : Prop :=
  ∀ s s' : State, s.acc.toNat < s'.acc.toNat → s'.acc.toNat ≤ 4095 →
    ∃ t t' u u', exec .s12tof s = .next t ∧ exec .ftos16 t = .next u ∧
      exec .s12tof s' = .next t' ∧ exec .ftos16 t' = .next u' ∧
      u = { s with acc := u.acc } ∧ u' = { s' with acc := u'.acc } ∧
      u.acc.toNat < u'.acc.toNat ∧ u'.acc.toNat ≤ 65518

/-- Derived (R118 (b), R138): S16TOF and then FTOS12 never faults on 0..65535, stays in 0..4096, is non-decreasing, and
gives 4096 exactly on 65526..65535. -/
def Obligations.Sample16ToSample12IsNondecreasing : Prop :=
  ∀ s s' : State, s.acc.toNat ≤ s'.acc.toNat → s'.acc.toNat ≤ 65535 →
    ∃ t t' u u', exec .s16tof s = .next t ∧ exec .ftos12 t = .next u ∧
      exec .s16tof s' = .next t' ∧ exec .ftos12 t' = .next u' ∧
      u = { s with acc := u.acc } ∧ u' = { s' with acc := u'.acc } ∧
      u.acc.toNat ≤ u'.acc.toNat ∧ u'.acc.toNat ≤ 4096 ∧ (u'.acc.toNat = 4096 ↔ 65526 ≤ s'.acc.toNat)

/-- Derived (R198): FTOS12 gives 4096 for every float from 0x3F7FEFFF up to 0x3F8007FE, and WRFLD with `W` = 12 then
stores zero. -/
def Obligations.FullScaleWrapsToZero : Prop :=
  ∀ (s : State) (a : BitVec 16), 0x3F7FEFFF ≤ s.acc.toNat → s.acc.toNat ≤ 0x3F8007FE →
    a.toNat + 12 ≤ 8 * s.bufBytes →
    ∃ u v, exec .ftos12 s = .next { s with acc := 4096 } ∧ exec (.wrfld a 12) { s with acc := 4096 } = .next u ∧
      exec (.rdfld a 12) u = .next v ∧ v.acc = 0

/-! ### Frames -/

/-- Derived (R22, R46, R164 and the rules of the twelve commands): NOP, LDI, SETEN, TICK, RDBIT, RDFLD, LDB, LDH and the
four quantizer commands leave every byte of `BUF`; of the registers each changes its destination only (`ACC`, or `CTRL`
for SETEN), or takes the fault entry and changes `ST` and `FCMD` only. -/
def Obligations.CommandsThatStoreNothingKeepBuf : Prop :=
  ∀ (i : Instr) (s t : State), exec i s = .next t →
    (∀ a, i ≠ .wrbit a) → (∀ a w, i ≠ .wrfld a w) → (∀ a, i ≠ .stb a) → (∀ a, i ≠ .sth a) →
    (∀ a, t.readByte a = s.readByte a) ∧
    t.bufBytes = s.bufBytes ∧ t.draw = s.draw ∧ t.pending = s.pending ∧ t.responses = s.responses ∧
    (t.ctrl = s.ctrl ∨ i = .seten) ∧
    (t.acc = s.acc ∨ (i ≠ .nop ∧ i ≠ .tick ∧ i ≠ .seten)) ∧
    ((t.st = s.st ∧ t.fcmd = s.fcmd) ∨
      (t.acc = s.acc ∧ t.fcmd = encode i ∧
        ∃ cause, faultOf s.cfg s.acc i = some cause ∧ t.st = s.st ||| cause.code))

/-- Derived (R47, R63, R164, R85, R86, R101, R103): WRBIT, WRFLD, STB and STH leave `ACC` and `CTRL`, and every byte of
`BUF` but those they store to; on a fault they leave every byte. The bytes stored to are the byte of the addressed bit, the
bytes of the `W` addressed bits, the byte at `A`, and the two bytes at `A`. -/
def Obligations.StoringCommandsKeepTheOtherBytes : Prop :=
  ∀ (i : Instr) (s t : State), exec i s = .next t →
    (∀ a, i = .wrbit a → (∀ k, k ≠ addressOf a / 8 → t.readByte k = s.readByte k)) ∧
    (∀ a w, i = .wrfld a w →
      (∀ k, (∀ j < widthOf w, k ≠ (addressOf a + j) / 8) → t.readByte k = s.readByte k)) ∧
    (∀ a, i = .stb a → (∀ k, k ≠ addressOf a → t.readByte k = s.readByte k)) ∧
    (∀ a, i = .sth a → (∀ k, k ≠ addressOf a → k ≠ addressOf a + 1 → t.readByte k = s.readByte k)) ∧
    (((∃ a, i = .wrbit a) ∨ (∃ a w, i = .wrfld a w) ∨ (∃ a, i = .stb a) ∨ (∃ a, i = .sth a)) →
      t.acc = s.acc ∧ t.ctrl = s.ctrl ∧ t.bufBytes = s.bufBytes ∧ t.draw = s.draw ∧ t.pending = s.pending ∧
      t.responses = s.responses ∧
      ((t.st = s.st ∧ t.fcmd = s.fcmd) ∨
        (t.fcmd = encode i ∧ (∀ k, t.readByte k = s.readByte k) ∧
          ∃ cause, faultOf s.cfg s.acc i = some cause ∧ t.st = s.st ||| cause.code)))

/-! ### The bridge sequences -/

/-- Derived (R132, R133, R134): where its preconditions hold, M2N never faults; afterwards the pair `k` of the network
region holds, big-endian, `FTOS16(S12TOF(sample k))`, every other byte (the modem region among them) is unchanged, and `ACC` holds the
last Sample16. -/
def Obligations.M2nConvertsModemBytesToNetworkBytes : Prop :=
  ∀ (s : State) (mb nb n : Nat), s.st = 0 → m2nPre s.cfg mb nb n = true →
    ∃ t, runInstrs (m2nCommands s.cfg mb nb n) s = .next t ∧ t.st = 0 ∧ t.fcmd = s.fcmd ∧ t.ctrl = s.ctrl ∧
      (∀ k < 2 * n / 3, ∃ v ≤ 65518,
        floatToSample16 s.cfg (sample12ToFloat s.cfg (s.fieldRead (8 * mb + 12 * k) 12).toNat) = some v ∧
        (t.readByte (nb + 2 * k)).toNat = v / 256 ∧ (t.readByte (nb + 2 * k + 1)).toNat = v % 256 ∧
        (k + 1 = 2 * n / 3 → t.acc.toNat = v)) ∧
      (∀ i, i < nb ∨ nb + 4 * n / 3 ≤ i → t.readByte i = s.readByte i)

/-- Derived (R132, R136, R137, R138): where its preconditions hold, N2M never faults; afterwards sample `i` of the modem
region is the low twelve bits of `FTOS12(S16TOF(pair i))`, and every bit outside the `12 * S` bits written, the low half of a
half-filled last byte among them, is unchanged. -/
def Obligations.N2mConvertsNetworkBytesToModemBytes : Prop :=
  ∀ (s : State) (nb mb k : Nat), s.st = 0 → n2mPre s.cfg nb mb k = true →
    ∃ t, runInstrs (n2mCommands s.cfg nb mb k) s = .next t ∧ t.st = 0 ∧ t.fcmd = s.fcmd ∧ t.ctrl = s.ctrl ∧
      (∀ i < readModemCount s.cfg k, ∃ v ≤ 4096,
        floatToSample12 s.cfg (sample16ToFloat s.cfg
          (256 * (s.readByte (nb + 2 * i)).toNat + (s.readByte (nb + 2 * i + 1)).toNat)) = some v ∧
        (t.fieldRead (8 * mb + 12 * i) 12).toNat = v % 4096) ∧
      (∀ b, b < 8 * mb ∨ 8 * mb + 12 * readModemCount s.cfg k ≤ b → t.bitRead b = s.bitRead b)

/-- Derived (R133, R135, R136, R141): on a block of legal size M2N and N2M have an expansion exactly when every
precondition holds; otherwise there is none, and N2M of no bytes expands to nothing. -/
def Obligations.BridgeCallsExpandExactlyUnderTheirPreconditions : Prop :=
  ∀ size : Nat, 3 ≤ size → size ≤ 8192 → let c := Config.ofSize size
    (∀ mb nb n, (expand c (.m2n mb nb n)).isSome ↔
      0 < n ∧ n % 3 = 0 ∧ n ≤ 255 ∧ mb + n ≤ size ∧ nb + 4 * n / 3 ≤ size ∧
        (mb + n ≤ nb ∨ nb + 4 * n / 3 ≤ mb)) ∧
    (∀ nb mb k, 0 < k → ((expand c (.n2m nb mb k)).isSome ↔
      k % 2 = 0 ∧ k ≤ 270 ∧ nb + k ≤ size ∧ mb + (12 * (k / 2) + 7) / 8 ≤ size ∧
        (nb + k ≤ mb ∨ mb + (12 * (k / 2) + 7) / 8 ≤ nb))) ∧
    (∀ nb mb, expand c (.n2m nb mb 0) = some [])
end

