-- ==== Sys2Proof/Laws/State.lean ====
section
/-! SUPPORT. One lemma per field per update of the state, true by rfl. -/

namespace Sys2Proof.Machine.State

/-! ### The configuration (00_scope.md R5): what the definitions take from it -/

@[simp] theorem cfg_bufBytes (s : State) : s.cfg.bufBytes = s.bufBytes := rfl
@[simp] theorem cfg_bitOrder (s : State) : s.cfg.bitOrder = .msbFirst := rfl
@[simp] theorem cfg_valueOrder (s : State) : s.cfg.valueOrder = .lsbFirst := rfl
@[simp] theorem cfg_s16Order (s : State) : s.cfg.s16Order = .bigEndian := rfl
@[simp] theorem cfg_fieldMax (s : State) : s.cfg.fieldMax = 32 := rfl
@[simp] theorem cfg_fp (s : State) : s.cfg.fp = .binary32 := rfl
@[simp] theorem cfg_k12 (s : State) : s.cfg.k12 = 2048 := rfl
@[simp] theorem cfg_off12 (s : State) : s.cfg.off12 = 2048 := rfl
@[simp] theorem cfg_k16 (s : State) : s.cfg.k16 = 32767 := rfl
@[simp] theorem cfg_sample12Max (s : State) : s.cfg.sample12Max = 4095 := rfl
@[simp] theorem cfg_sample16Max (s : State) : s.cfg.sample16Max = 65535 := rfl
@[simp] theorem cfg_ftos12Max (s : State) : s.cfg.ftos12Max = 4096 := rfl
@[simp] theorem cfg_ftos16Max (s : State) : s.cfg.ftos16Max = 65535 := rfl

/-- The configuration looks at `bufBytes` only. -/
theorem cfg_congr {s t : State} (h : t.bufBytes = s.bufBytes) : t.cfg = s.cfg := by rw [cfg, cfg, h]

/-- The configuration of a state is well-formed exactly when the size is in its range. -/
theorem cfg_wellFormed (s : State) : s.cfg.wellFormed = true ↔ 3 ≤ s.bufBytes ∧ s.bufBytes ≤ 8192 := by
  rw [Config.wellFormed, Bool.and_eq_true, Bool.and_eq_true, decide_eq_true_iff, decide_eq_true_iff, decide_eq_true_iff]
  exact and_iff_left rfl

/-! ### `setAcc` -/

@[simp] theorem setAcc_buf (s : State) (v : Word32) : (s.setAcc v).buf = s.buf := rfl
@[simp] theorem setAcc_acc (s : State) (v : Word32) : (s.setAcc v).acc = v := rfl
@[simp] theorem setAcc_st (s : State) (v : Word32) : (s.setAcc v).st = s.st := rfl
@[simp] theorem setAcc_fcmd (s : State) (v : Word32) : (s.setAcc v).fcmd = s.fcmd := rfl
@[simp] theorem setAcc_ctrl (s : State) (v : Word32) : (s.setAcc v).ctrl = s.ctrl := rfl
@[simp] theorem setAcc_bufBytes (s : State) (v : Word32) : (s.setAcc v).bufBytes = s.bufBytes := rfl
@[simp] theorem setAcc_draw (s : State) (v : Word32) : (s.setAcc v).draw = s.draw := rfl
@[simp] theorem setAcc_pending (s : State) (v : Word32) : (s.setAcc v).pending = s.pending := rfl
@[simp] theorem setAcc_responses (s : State) (v : Word32) : (s.setAcc v).responses = s.responses := rfl

/-! ### `setCtrl` -/

@[simp] theorem setCtrl_buf (s : State) (v : BitVec 8) : (s.setCtrl v).buf = s.buf := rfl
@[simp] theorem setCtrl_acc (s : State) (v : BitVec 8) : (s.setCtrl v).acc = s.acc := rfl
@[simp] theorem setCtrl_st (s : State) (v : BitVec 8) : (s.setCtrl v).st = s.st := rfl
@[simp] theorem setCtrl_fcmd (s : State) (v : BitVec 8) : (s.setCtrl v).fcmd = s.fcmd := rfl
@[simp] theorem setCtrl_ctrl (s : State) (v : BitVec 8) : (s.setCtrl v).ctrl = v := rfl
@[simp] theorem setCtrl_bufBytes (s : State) (v : BitVec 8) : (s.setCtrl v).bufBytes = s.bufBytes := rfl
@[simp] theorem setCtrl_draw (s : State) (v : BitVec 8) : (s.setCtrl v).draw = s.draw := rfl
@[simp] theorem setCtrl_pending (s : State) (v : BitVec 8) : (s.setCtrl v).pending = s.pending := rfl
@[simp] theorem setCtrl_responses (s : State) (v : BitVec 8) : (s.setCtrl v).responses = s.responses := rfl

/-! ### `writeByte` -/

@[simp] theorem writeByte_buf (s : State) (i : Nat) (v : Byte) : (s.writeByte i v).buf = s.buf.set i v := rfl
@[simp] theorem writeByte_acc (s : State) (i : Nat) (v : Byte) : (s.writeByte i v).acc = s.acc := rfl
@[simp] theorem writeByte_st (s : State) (i : Nat) (v : Byte) : (s.writeByte i v).st = s.st := rfl
@[simp] theorem writeByte_fcmd (s : State) (i : Nat) (v : Byte) : (s.writeByte i v).fcmd = s.fcmd := rfl
@[simp] theorem writeByte_ctrl (s : State) (i : Nat) (v : Byte) : (s.writeByte i v).ctrl = s.ctrl := rfl
@[simp] theorem writeByte_bufBytes (s : State) (i : Nat) (v : Byte) : (s.writeByte i v).bufBytes = s.bufBytes := rfl
@[simp] theorem writeByte_draw (s : State) (i : Nat) (v : Byte) : (s.writeByte i v).draw = s.draw := rfl
@[simp] theorem writeByte_pending (s : State) (i : Nat) (v : Byte) : (s.writeByte i v).pending = s.pending := rfl
@[simp] theorem writeByte_responses (s : State) (i : Nat) (v : Byte) : (s.writeByte i v).responses = s.responses := rfl

/-! ### `bitWrite` -/

@[simp] theorem bitWrite_acc (s : State) (b : Nat) (x : Bool) : (s.bitWrite b x).acc = s.acc := rfl
@[simp] theorem bitWrite_st (s : State) (b : Nat) (x : Bool) : (s.bitWrite b x).st = s.st := rfl
@[simp] theorem bitWrite_fcmd (s : State) (b : Nat) (x : Bool) : (s.bitWrite b x).fcmd = s.fcmd := rfl
@[simp] theorem bitWrite_ctrl (s : State) (b : Nat) (x : Bool) : (s.bitWrite b x).ctrl = s.ctrl := rfl
@[simp] theorem bitWrite_bufBytes (s : State) (b : Nat) (x : Bool) : (s.bitWrite b x).bufBytes = s.bufBytes := rfl
@[simp] theorem bitWrite_draw (s : State) (b : Nat) (x : Bool) : (s.bitWrite b x).draw = s.draw := rfl
@[simp] theorem bitWrite_pending (s : State) (b : Nat) (x : Bool) : (s.bitWrite b x).pending = s.pending := rfl
@[simp] theorem bitWrite_responses (s : State) (b : Nat) (x : Bool) : (s.bitWrite b x).responses = s.responses := rfl

/-! ### `raise` -/

@[simp] theorem raise_buf (s : State) (c : FaultCause) (w : CommandWord) : (s.raise c w).buf = s.buf := rfl
@[simp] theorem raise_acc (s : State) (c : FaultCause) (w : CommandWord) : (s.raise c w).acc = s.acc := rfl
@[simp] theorem raise_st (s : State) (c : FaultCause) (w : CommandWord) : (s.raise c w).st = s.st ||| c.code := rfl
@[simp] theorem raise_fcmd (s : State) (c : FaultCause) (w : CommandWord) : (s.raise c w).fcmd = w := rfl
@[simp] theorem raise_ctrl (s : State) (c : FaultCause) (w : CommandWord) : (s.raise c w).ctrl = s.ctrl := rfl
@[simp] theorem raise_bufBytes (s : State) (c : FaultCause) (w : CommandWord) : (s.raise c w).bufBytes = s.bufBytes := rfl
@[simp] theorem raise_draw (s : State) (c : FaultCause) (w : CommandWord) : (s.raise c w).draw = s.draw := rfl
@[simp] theorem raise_pending (s : State) (c : FaultCause) (w : CommandWord) : (s.raise c w).pending = s.pending := rfl
@[simp] theorem raise_responses (s : State) (c : FaultCause) (w : CommandWord) : (s.raise c w).responses = s.responses := rfl

/-! ### `respond` -/

@[simp] theorem respond_buf (s : State) : (s.respond).buf = s.buf := rfl
@[simp] theorem respond_acc (s : State) : (s.respond).acc = s.acc := rfl
@[simp] theorem respond_st (s : State) : (s.respond).st = s.st := rfl
@[simp] theorem respond_fcmd (s : State) : (s.respond).fcmd = s.fcmd := rfl
@[simp] theorem respond_ctrl (s : State) : (s.respond).ctrl = s.ctrl := rfl
@[simp] theorem respond_bufBytes (s : State) : (s.respond).bufBytes = s.bufBytes := rfl
@[simp] theorem respond_draw (s : State) : (s.respond).draw = s.draw := rfl
@[simp] theorem respond_pending (s : State) : (s.respond).pending = s.pending := rfl
@[simp] theorem respond_responses (s : State) : (s.respond).responses = s.responses ++ [s.response] := rfl

/-! ### `takeReset` -/

@[simp] theorem takeReset_buf (s : State) : (s.takeReset).buf = [] := rfl
@[simp] theorem takeReset_acc (s : State) : (s.takeReset).acc = 0 := rfl
@[simp] theorem takeReset_st (s : State) : (s.takeReset).st = 0 := rfl
@[simp] theorem takeReset_fcmd (s : State) : (s.takeReset).fcmd = 0 := rfl
@[simp] theorem takeReset_ctrl (s : State) : (s.takeReset).ctrl = 0 := rfl
@[simp] theorem takeReset_bufBytes (s : State) : (s.takeReset).bufBytes = s.bufBytes := rfl
@[simp] theorem takeReset_draw (s : State) : (s.takeReset).draw = s.draw + 1 := rfl
@[simp] theorem takeReset_pending (s : State) : (s.takeReset).pending = s.pending := rfl
@[simp] theorem takeReset_responses (s : State) : (s.takeReset).responses = s.responses := rfl

/-! ### `submit` -/

@[simp] theorem submit_buf (s : State) (ms : List HostMove) : (s.submit ms).buf = s.buf := rfl
@[simp] theorem submit_acc (s : State) (ms : List HostMove) : (s.submit ms).acc = s.acc := rfl
@[simp] theorem submit_st (s : State) (ms : List HostMove) : (s.submit ms).st = s.st := rfl
@[simp] theorem submit_fcmd (s : State) (ms : List HostMove) : (s.submit ms).fcmd = s.fcmd := rfl
@[simp] theorem submit_ctrl (s : State) (ms : List HostMove) : (s.submit ms).ctrl = s.ctrl := rfl
@[simp] theorem submit_bufBytes (s : State) (ms : List HostMove) : (s.submit ms).bufBytes = s.bufBytes := rfl
@[simp] theorem submit_draw (s : State) (ms : List HostMove) : (s.submit ms).draw = s.draw := rfl
@[simp] theorem submit_pending (s : State) (ms : List HostMove) : (s.submit ms).pending = s.pending ++ ms := rfl
@[simp] theorem submit_responses (s : State) (ms : List HostMove) : (s.submit ms).responses = s.responses := rfl

/-! ### `presenting` -/

@[simp] theorem presenting_buf (s : State) (nbits w : Nat) : (s.presenting nbits w).buf = s.buf := rfl
@[simp] theorem presenting_acc (s : State) (nbits w : Nat) : (s.presenting nbits w).acc = s.acc := rfl
@[simp] theorem presenting_st (s : State) (nbits w : Nat) : (s.presenting nbits w).st = s.st := rfl
@[simp] theorem presenting_fcmd (s : State) (nbits w : Nat) : (s.presenting nbits w).fcmd = s.fcmd := rfl
@[simp] theorem presenting_ctrl (s : State) (nbits w : Nat) : (s.presenting nbits w).ctrl = s.ctrl := rfl
@[simp] theorem presenting_bufBytes (s : State) (nbits w : Nat) : (s.presenting nbits w).bufBytes = s.bufBytes := rfl
@[simp] theorem presenting_draw (s : State) (nbits w : Nat) : (s.presenting nbits w).draw = s.draw := rfl
@[simp] theorem presenting_pending (s : State) (nbits w : Nat) : (s.presenting nbits w).pending = .command (BitVec.ofNat 64 (w % 2 ^ nbits)) :: s.pending := rfl
@[simp] theorem presenting_responses (s : State) (nbits w : Nat) : (s.presenting nbits w).responses = s.responses := rfl

/-! ### `response` and reading a byte -/

theorem response_def (s : State) : s.response = ⟨s.acc, s.st⟩ := rfl

/-- Reading a byte looks at `buf` and `draw` only. -/
theorem readByte_congr {s t : State} (hb : t.buf = s.buf) (hd : t.draw = s.draw) (i : Nat) :
    t.readByte i = s.readByte i := by
  simp [readByte, hb, hd]

@[simp] theorem readByte_setAcc (s : State) (v : Word32) (i : Nat) : (s.setAcc v).readByte i = s.readByte i := rfl
@[simp] theorem readByte_setCtrl (s : State) (v : BitVec 8) (i : Nat) : (s.setCtrl v).readByte i = s.readByte i := rfl
@[simp] theorem readByte_raise (s : State) (c : FaultCause) (w : CommandWord) (i : Nat) :
    (s.raise c w).readByte i = s.readByte i := rfl
@[simp] theorem readByte_respond (s : State) (i : Nat) : s.respond.readByte i = s.readByte i := rfl
@[simp] theorem readByte_takeReset (s : State) (i : Nat) :
    s.takeReset.readByte i = Config.resetByte (s.draw + 1) i := rfl
@[simp] theorem readByte_reset (i : Nat) : State.reset.readByte i = Config.resetByte 0 i := rfl

/-- Reading a bit looks at `buf` and `draw` only. -/
theorem bitRead_congr {s t : State} (hb : t.buf = s.buf) (hd : t.draw = s.draw) (b : Nat) :
    t.bitRead b = s.bitRead b := by
  simp [bitRead, readByte_congr hb hd]

end Sys2Proof.Machine.State
end

