-- ==== Sys2Proof/Laws/Memory.lean ====
section
/-! SUPPORT. The laws of `BUF`: read after write, the canonical form, and what the byte operations can do. -/

namespace Sys2Proof.Machine

namespace Memory

theorem get?_set_self (m : Memory) (a : Nat) (v : Byte) : (m.set a v).get? a = some v := by
  induction m with
  | nil => simp [set, get?]
  | cons c m ih =>
    simp only [set]
    split
    · simp [get?]
    · split
      · simp [get?]
      · rename_i h; simp [get?, h, ih]

theorem get?_set_ne (m : Memory) {a b : Nat} (v : Byte) (h : b ≠ a) : (m.set a v).get? b = m.get? b := by
  induction m with
  | nil => simp [set, get?, Ne.symm h]
  | cons c m ih =>
    simp only [set]
    split
    · simp [get?, Ne.symm h]
    · split
      · rename_i hc; subst hc; simp [get?, Ne.symm h]
      · simp [get?, ih]

/-- What a memory lists after one byte is set. -/
theorem mem_set {m : Memory} {a : Nat} {v : Byte} {c : Host.Cell} (h : c ∈ m.set a v) : c = (a, v) ∨ c ∈ m := by
  induction m with
  | nil => simpa [set] using h
  | cons d m ih =>
    simp only [set] at h
    split at h
    · simpa using h
    · split at h
      · rcases List.mem_cons.1 h with h | h
        · exact .inl h
        · exact .inr (List.mem_cons_of_mem _ h)
      · rcases List.mem_cons.1 h with h | h
        · exact .inr (h ▸ List.mem_cons_self)
        · exact (ih h).imp_right (List.mem_cons_of_mem _)

/-- Setting a byte keeps the canonical form. -/
theorem wf_set {m : Memory} (a : Nat) (v : Byte) (h : m.wf) : (m.set a v).wf := by
  induction m with
  | nil => simp [set, wf]
  | cons c m ih =>
    obtain ⟨hc, hm⟩ := List.pairwise_cons.1 h
    simp only [set]
    split
    · rename_i hlt
      refine List.pairwise_cons.2 ⟨fun d hd => ?_, h⟩
      rcases List.mem_cons.1 hd with rfl | hd
      · exact hlt
      · exact hlt.trans (hc d hd)
    · split
      · rename_i heq
        exact List.pairwise_cons.2 ⟨fun d hd => by simpa [← heq] using hc d hd, hm⟩
      · refine List.pairwise_cons.2 ⟨fun d hd => ?_, ih hm⟩
        rcases mem_set hd with rfl | hd
        · simp only; omega
        · exact hc d hd

end Memory

namespace State

@[simp] theorem readByte_writeByte_self (s : State) (i : Nat) (v : Byte) : (s.writeByte i v).readByte i = v := by
  simp [readByte, Memory.get?_set_self]

theorem readByte_writeByte_ne (s : State) {i j : Nat} (v : Byte) (h : j ≠ i) :
    (s.writeByte i v).readByte j = s.readByte j := by
  simp [readByte, Memory.get?_set_ne _ _ h]

/-- A write of bytes changes `BUF` only. -/
theorem writeBytes_eq (s : State) (a : Nat) (vs : List Byte) :
    s.writeBytes a vs = { s with buf := (s.writeBytes a vs).buf } := by
  induction vs generalizing s a with
  | nil => rfl
  | cons v vs ih => rw [writeBytes, ih]; rfl

/-- The bytes read after a write of bytes: the written ones inside, the old ones outside. -/
theorem readByte_writeBytes (s : State) (a : Nat) (vs : List Byte) (i : Nat) :
    (s.writeBytes a vs).readByte i = if h : a ≤ i ∧ i - a < vs.length then vs[i - a]'h.2 else s.readByte i := by
  induction vs generalizing s a with
  | nil => simp [writeBytes]
  | cons v vs ih =>
    rw [writeBytes, ih]
    rcases Nat.lt_trichotomy i a with h | rfl | h
    · have h1 : ¬ (a + 1 ≤ i ∧ i - (a + 1) < vs.length) := by omega
      have h2 : ¬ (a ≤ i ∧ i - a < (v :: vs).length) := by omega
      rw [dif_neg h1, dif_neg h2, readByte_writeByte_ne _ _ (by omega)]
    · simp
    · have e : i - a = i - (a + 1) + 1 := by omega
      by_cases hlt : i - (a + 1) < vs.length
      · rw [dif_pos ⟨h, hlt⟩, dif_pos ⟨by omega, by simp; omega⟩]
        simp [e]
      · rw [dif_neg (by omega), dif_neg (by simp; omega), readByte_writeByte_ne _ _ (by omega)]

theorem writeBytes_wf {s : State} (a : Nat) (vs : List Byte) (h : s.buf.wf) : (s.writeBytes a vs).buf.wf := by
  induction vs generalizing s a with
  | nil => exact h
  | cons v vs ih => exact ih _ (Memory.wf_set _ _ h)

/-- The cells listed after a write of bytes: old ones, or at a written address. -/
theorem mem_writeBytes {s : State} {a : Nat} {vs : List Byte} {c : Host.Cell} (h : c ∈ (s.writeBytes a vs).buf) :
    c ∈ s.buf ∨ (a ≤ c.1 ∧ c.1 < a + vs.length) := by
  induction vs generalizing s a with
  | nil => exact .inl h
  | cons v vs ih =>
    rcases ih h with h | h
    · rcases Memory.mem_set h with rfl | h
      · exact .inr ⟨Nat.le_refl _, by simp⟩
      · exact .inl h
    · exact .inr ⟨by omega, by simp; omega⟩

theorem memRead_eq_none {s : State} {a n : Nat} : s.memRead a n = none ↔ s.bufBytes < a + n := by
  simp [memRead, bytesInRange]

theorem memRead_of_le {s : State} {a n : Nat} (h : a + n ≤ s.bufBytes) :
    s.memRead a n = some ((List.range n).map fun k => s.readByte (a + k)) := by
  simp [memRead, bytesInRange, h]

theorem memWrite_eq_none {s : State} {a : Nat} {vs : List Byte} :
    s.memWrite a vs = none ↔ s.bufBytes < a + vs.length := by
  simp [memWrite, bytesInRange]

theorem memWrite_of_le {s : State} {a : Nat} {vs : List Byte} (h : a + vs.length ≤ s.bufBytes) :
    s.memWrite a vs = some (s.writeBytes a vs) := by
  simp [memWrite, bytesInRange, h]

end State

/-- A byte pair is read big-endian: high byte first (20_memory.md R42). -/
theorem bytesToWord_pair (h l : Byte) : bytesToWord .bigEndian [h, l] = (h ++ l).setWidth 32 := by
  have h0 : (0#32 <<< 8 : Word32) = 0#32 := by decide
  refine BitVec.eq_of_getLsbD_eq fun i hi => ?_
  simp only [bytesToWord, List.foldl, BitVec.getLsbD_or, BitVec.getLsbD_shiftLeft, BitVec.getLsbD_setWidth,
    BitVec.getLsbD_append, BitVec.ofNat_eq_ofNat, h0, BitVec.getLsbD_zero, Bool.false_or, hi, decide_true, Bool.true_and]
  by_cases h8 : i < 8
  · simp [h8]
  · have : i - 8 < 32 := by omega
    simp [h8, this, BitVec.getLsbD_of_ge l i (by omega)]

theorem bytesToWord_single (b : Byte) : bytesToWord .bigEndian [b] = b.setWidth 32 := by
  simp [bytesToWord]

end Sys2Proof.Machine
end

