-- ==== Sys2Proof/Laws/Bits.lean ====
section
/-! SUPPORT. The laws of bits and fields of `BUF` (40_bitfield.md R80 to R82). -/

namespace Sys2Proof.Machine

/-- The mask of bit-in-byte index `k` has the one bit `7 - k` (R82). -/
theorem bitMask_getLsbD {k : Nat} (h : k < 8) (i : Nat) : (bitMask .msbFirst k).getLsbD i = decide (i = 7 - k) := by
  have table : ∀ k i : Fin 8, (bitMask .msbFirst k).getLsbD i = decide (i.val = 7 - k.val) := by decide
  by_cases hi : i < 8
  · exact table ⟨k, h⟩ ⟨i, hi⟩
  · rw [BitVec.getLsbD_of_ge _ _ (by omega)]
    simp; omega

namespace State

/-- The bit of a byte that `BitRead` answers. -/
theorem bitRead_eq_getLsbD (s : State) (b : Nat) : s.bitRead b = (s.readByte (b / 8)).getLsbD (7 - b % 8) := by
  have h8 : b % 8 < 8 := Nat.mod_lt _ (by decide)
  rw [bitRead, cfg_bitOrder, Bool.eq_iff_iff, bne_iff_ne, ne_eq]
  constructor
  · intro hne
    by_contra hbit
    refine hne (BitVec.eq_of_getLsbD_eq fun i hi => ?_)
    rw [BitVec.getLsbD_and, bitMask_getLsbD h8]
    by_cases hi' : i = 7 - b % 8
    · simp only [Bool.not_eq_true] at hbit; simp [hi', hbit]
    · simp [hi']
  · intro hbit h0
    have := congrArg (fun v => v.getLsbD (7 - b % 8)) h0
    simp [bitMask_getLsbD h8, hbit] at this

/-- A bit write changes `BUF` only. -/
theorem bitWrite_eq (s : State) (b : Nat) (x : Bool) : s.bitWrite b x = { s with buf := (s.bitWrite b x).buf } := rfl

theorem readByte_bitWrite_ne (s : State) {b i : Nat} (x : Bool) (h : i ≠ b / 8) :
    (s.bitWrite b x).readByte i = s.readByte i := readByte_writeByte_ne s _ h

/-- The bits of the byte a bit write touches. -/
theorem readByte_bitWrite_self (s : State) (b : Nat) (x : Bool) {i : Nat} (hi : i < 8) :
    ((s.bitWrite b x).readByte (b / 8)).getLsbD i = if i = 7 - b % 8 then x else (s.readByte (b / 8)).getLsbD i := by
  have h8 : b % 8 < 8 := Nat.mod_lt _ (by decide)
  have hff : (0xFF#8).getLsbD i = true := by
    have table : ∀ i : Fin 8, (0xFF#8).getLsbD i = true := by decide
    exact table ⟨i, hi⟩
  simp only [bitWrite, cfg_bitOrder, readByte_writeByte_self]
  cases x
  · simp only [Bool.false_eq_true, if_false, BitVec.getLsbD_and, BitVec.getLsbD_xor, hff, bitMask_getLsbD h8]
    by_cases h : i = 7 - b % 8 <;> simp [h]
  · simp only [if_true, BitVec.getLsbD_or, bitMask_getLsbD h8]
    by_cases h : i = 7 - b % 8 <;> simp [h]

/-- A bit written is read back, and no other bit is altered (20_memory.md R47). -/
theorem bitRead_bitWrite (s : State) (b c : Nat) (x : Bool) :
    (s.bitWrite b x).bitRead c = if c = b then x else s.bitRead c := by
  rw [bitRead_eq_getLsbD, bitRead_eq_getLsbD]
  by_cases h : c / 8 = b / 8
  · rw [h, readByte_bitWrite_self _ _ _ (by omega)]
    by_cases hm : c % 8 = b % 8
    · rw [if_pos (by omega), if_pos (by omega)]
    · rw [if_neg (by omega), if_neg (by omega)]
  · rw [readByte_bitWrite_ne _ _ h, if_neg (fun e => h (by rw [e]))]

theorem bitWrite_wf {s : State} (b : Nat) (x : Bool) (h : s.buf.wf) : (s.bitWrite b x).buf.wf :=
  Memory.wf_set _ _ h

/-- A field of one more bit: its last value bit is the bit at `a + n`. -/
theorem fieldRead_succ (s : State) (a n : Nat) :
    s.fieldRead a (n + 1) = s.fieldRead a n ||| ((BitVec.ofBool (s.bitRead (a + n))).setWidth 32 <<< n) := rfl

theorem fieldWrite_succ (s : State) (a : Nat) (v : Word32) (n : Nat) :
    s.fieldWrite a v (n + 1) = (s.fieldWrite a v n).bitWrite (a + n) (v.getLsbD n) := rfl

/-- A field write changes `BUF` only. -/
theorem fieldWrite_eq (s : State) (a : Nat) (v : Word32) (n : Nat) :
    s.fieldWrite a v n = { s with buf := (s.fieldWrite a v n).buf } := by
  induction n with
  | zero => rfl
  | succ n ih => rw [fieldWrite_succ, bitWrite_eq, ih]

@[simp] theorem fieldWrite_acc (s : State) (a : Nat) (v : Word32) (n : Nat) : (s.fieldWrite a v n).acc = s.acc := by
  rw [fieldWrite_eq]
@[simp] theorem fieldWrite_st (s : State) (a : Nat) (v : Word32) (n : Nat) : (s.fieldWrite a v n).st = s.st := by
  rw [fieldWrite_eq]
@[simp] theorem fieldWrite_fcmd (s : State) (a : Nat) (v : Word32) (n : Nat) : (s.fieldWrite a v n).fcmd = s.fcmd := by
  rw [fieldWrite_eq]
@[simp] theorem fieldWrite_ctrl (s : State) (a : Nat) (v : Word32) (n : Nat) : (s.fieldWrite a v n).ctrl = s.ctrl := by
  rw [fieldWrite_eq]
@[simp] theorem fieldWrite_bufBytes (s : State) (a : Nat) (v : Word32) (n : Nat) : (s.fieldWrite a v n).bufBytes = s.bufBytes := by
  rw [fieldWrite_eq]
@[simp] theorem fieldWrite_draw (s : State) (a : Nat) (v : Word32) (n : Nat) : (s.fieldWrite a v n).draw = s.draw := by
  rw [fieldWrite_eq]

/-- The bits read after a field write: value bit `j` at `a + j`, every other bit as before (20_memory.md R41, R47). -/
theorem bitRead_fieldWrite (s : State) (a : Nat) (v : Word32) (n b : Nat) :
    (s.fieldWrite a v n).bitRead b = if a ≤ b ∧ b < a + n then v.getLsbD (b - a) else s.bitRead b := by
  induction n with
  | zero => rw [fieldWrite, if_neg (by omega)]
  | succ n ih =>
    rw [fieldWrite_succ, bitRead_bitWrite, ih]
    by_cases h : b = a + n
    · subst h; rw [if_pos rfl, if_pos (by omega)]; congr 1; omega
    · rw [if_neg h]
      by_cases hb : a ≤ b ∧ b < a + n
      · rw [if_pos hb, if_pos (by omega)]
      · rw [if_neg hb, if_neg (by omega)]

/-- A field write leaves every byte it has no bit in. -/
theorem readByte_fieldWrite_outside (s : State) (a : Nat) (v : Word32) (n : Nat) {i : Nat}
    (h : ∀ j < n, i ≠ (a + j) / 8) : (s.fieldWrite a v n).readByte i = s.readByte i := by
  induction n with
  | zero => rfl
  | succ n ih =>
    rw [fieldWrite_succ, readByte_bitWrite_ne _ _ (h n (Nat.lt_succ_self n)), ih fun j hj => h j (Nat.lt_succ_of_lt hj)]

theorem fieldWrite_wf {s : State} (a : Nat) (v : Word32) (n : Nat) (h : s.buf.wf) : (s.fieldWrite a v n).buf.wf := by
  induction n with
  | zero => exact h
  | succ n ih => exact bitWrite_wf _ _ ih

/-- The cells listed after a field write: old ones, or the byte of a written bit. -/
theorem mem_fieldWrite {s : State} {a : Nat} {v : Word32} {n : Nat} {c : Host.Cell}
    (h : c ∈ (s.fieldWrite a v n).buf) : c ∈ s.buf ∨ ∃ j < n, c.1 = (a + j) / 8 := by
  induction n with
  | zero => exact .inl h
  | succ n ih =>
    rcases Memory.mem_set h with rfl | h
    · exact .inr ⟨n, Nat.lt_succ_self n, rfl⟩
    · rcases ih h with h | ⟨j, hj, e⟩
      · exact .inl h
      · exact .inr ⟨j, Nat.lt_succ_of_lt hj, e⟩

/-- The bits of a field read: value bit `j` is the bit at `a + j`, bits at and above the width are zero (R41, R84). -/
theorem fieldRead_getLsbD (s : State) (a : Nat) {n : Nat} (hn : n ≤ 32) (j : Nat) :
    (s.fieldRead a n).getLsbD j = (decide (j < n) && s.bitRead (a + j)) := by
  induction n with
  | zero => simp [fieldRead]
  | succ n ih =>
    rw [fieldRead_succ, BitVec.getLsbD_or, ih (by omega), BitVec.getLsbD_shiftLeft, BitVec.getLsbD_setWidth,
      BitVec.getLsbD_ofBool]
    rcases Nat.lt_trichotomy j n with h | rfl | h
    · simp [h, Nat.lt_succ_of_lt h]
    · simp; omega
    · have h1 : ¬ j < n := by omega
      have h2 : ¬ j < n + 1 := by omega
      have h3 : j - n ≠ 0 := by omega
      simp [h1, h2, h3]

/-- Reading a field looks at `buf` and `draw` only. -/
theorem fieldRead_congr {s t : State} (hb : t.buf = s.buf) (hd : t.draw = s.draw) (a n : Nat) :
    t.fieldRead a n = s.fieldRead a n := by
  induction n with
  | zero => rfl
  | succ n ih => rw [fieldRead_succ, fieldRead_succ, ih, bitRead_congr hb hd]

end State
end Sys2Proof.Machine
end

