-- ==== Sys2Proof/Laws/Decode.lean ====
section
/-! SUPPORT. The fields of a command word and the opcode map. -/

namespace Sys2Proof

namespace CommandWord

variable (op w : BitVec 8) (a : BitVec 16) (d : BitVec 32)

@[simp] theorem opField_ofFields : opField (ofFields op w a d) = op := by
  refine BitVec.eq_of_getLsbD_eq fun i hi => ?_
  simp only [opField, ofFields, BitVec.getLsbD_extractLsb', BitVec.getLsbD_append, hi, decide_true, Bool.true_and]
  rw [if_neg (by omega), if_neg (by omega), if_neg (by omega)]
  congr 1; omega

@[simp] theorem wField_ofFields : wField (ofFields op w a d) = w := by
  refine BitVec.eq_of_getLsbD_eq fun i hi => ?_
  simp only [wField, ofFields, BitVec.getLsbD_extractLsb', BitVec.getLsbD_append, hi, decide_true, Bool.true_and]
  rw [if_neg (by omega), if_neg (by omega), if_pos (by omega)]
  congr 1; omega

@[simp] theorem aField_ofFields : aField (ofFields op w a d) = a := by
  refine BitVec.eq_of_getLsbD_eq fun i hi => ?_
  simp only [aField, ofFields, BitVec.getLsbD_extractLsb', BitVec.getLsbD_append, hi, decide_true, Bool.true_and]
  rw [if_neg (by omega), if_pos (by omega)]
  congr 1; omega

@[simp] theorem dField_ofFields : dField (ofFields op w a d) = d := by
  refine BitVec.eq_of_getLsbD_eq fun i hi => ?_
  simp only [dField, ofFields, BitVec.getLsbD_extractLsb', BitVec.getLsbD_append, hi, decide_true, Bool.true_and]
  rw [if_pos (by omega)]
  congr 1; omega

/-- A word is its four fields (30_encoding.md R60). -/
theorem ofFields_fields (x : CommandWord) : ofFields (opField x) (wField x) (aField x) (dField x) = x := by
  refine BitVec.eq_of_getLsbD_eq fun i hi => ?_
  simp only [ofFields, opField, wField, aField, dField, BitVec.getLsbD_append, BitVec.getLsbD_extractLsb']
  by_cases h1 : i < 32
  · simp [h1]
  · by_cases h2 : i - 32 < 16
    · simp only [h1, h2, if_true, if_false, decide_true, Bool.true_and]; congr 1; omega
    · by_cases h3 : i - 32 - 16 < 8
      · simp only [h1, h2, h3, if_true, if_false, decide_true, Bool.true_and]; congr 1; omega
      · have h4 : i - 32 - 16 - 8 < 8 := by omega
        simp only [h1, h2, h3, h4, if_false, decide_true, Bool.true_and]; congr 1; omega

end CommandWord

namespace Mnemonic

@[simp] theorem ofOp_op (m : Mnemonic) : ofOp m.op = some m := by cases m <;> rfl

@[simp] theorem mnemonic_build (m : Mnemonic) (w : BitVec 8) (a : BitVec 16) (d : BitVec 32) :
    (m.build w a d).mnemonic = m := by cases m <;> rfl

end Mnemonic

/-- The decoder by cases: what each answer means of the word. -/
theorem decode_cases (w : CommandWord) :
    (Mnemonic.ofOp (CommandWord.opField w) = none ∧ decode w = .error .unlistedOp) ∨
    (∃ m, Mnemonic.ofOp (CommandWord.opField w) = some m ∧ mbzZero m w = false ∧ decode w = .error .nonzeroField) ∨
    (∃ m, Mnemonic.ofOp (CommandWord.opField w) = some m ∧ mbzZero m w = true ∧
      decode w = .ok (m.build (CommandWord.wField w) (CommandWord.aField w) (CommandWord.dField w))) := by
  unfold decode
  cases h : Mnemonic.ofOp (CommandWord.opField w) with
  | none => exact .inl ⟨rfl, rfl⟩
  | some m =>
    cases hm : mbzZero m w with
    | false => exact .inr (.inl ⟨m, rfl, hm, by simp [hm]⟩)
    | true => exact .inr (.inr ⟨m, rfl, hm, by simp [hm]⟩)

end Sys2Proof
end

