-- ==== Sys2Proof/Laws/Exec.lean ====
section
/-! SUPPORT. The meaning of each command that has a test, on either side of the test. -/

namespace Sys2Proof.Machine

variable {a : BitVec 16} {w : BitVec 8} {s : State}

theorem bitsInRange_iff {b n : Nat} : s.bitsInRange b n = true ↔ b + n ≤ 8 * s.bufBytes := by
  simp [State.bitsInRange]

/-- `widthLegal` is the width test of R84 and R85. -/
theorem widthLegal_iff : widthLegal s.cfg w = true ↔ 1 ≤ w.toNat ∧ w.toNat ≤ 32 := by
  rw [widthLegal, State.cfg_fieldMax, Bool.and_eq_true, bne_iff_ne, decide_eq_true_iff, widthOf, Nat.one_le_iff_ne_zero]

theorem not_widthLegal_iff : (!widthLegal s.cfg w) = true ↔ ¬(1 ≤ w.toNat ∧ w.toNat ≤ 32) := by
  rw [Bool.not_eq_true', ← Bool.not_eq_true, widthLegal_iff]

theorem execRdbit_inside (h : a.toNat < 8 * s.bufBytes) :
    execRdbit a s = .next (s.setAcc ((BitVec.ofBool (s.bitRead a.toNat)).setWidth 32)) := by
  rw [execRdbit, if_pos (bitsInRange_iff.2 h)]; rfl

theorem execRdbit_outside (h : 8 * s.bufBytes ≤ a.toNat) :
    execRdbit a s = .next (s.raise .outOfRange (encode (.rdbit a))) := by
  rw [execRdbit, if_neg (fun hr => absurd (bitsInRange_iff.1 hr) (by rw [addressOf]; omega))]

theorem execWrbit_inside (h : a.toNat < 8 * s.bufBytes) :
    execWrbit a s = .next (s.bitWrite a.toNat (s.accBit == 1)) := by
  rw [execWrbit, if_pos (bitsInRange_iff.2 h)]; rfl

theorem execWrbit_outside (h : 8 * s.bufBytes ≤ a.toNat) :
    execWrbit a s = .next (s.raise .outOfRange (encode (.wrbit a))) := by
  rw [execWrbit, if_neg (fun hr => absurd (bitsInRange_iff.1 hr) (by rw [addressOf]; omega))]

theorem execRdfld_width (h : ¬(1 ≤ w.toNat ∧ w.toNat ≤ 32)) :
    execRdfld a w s = .next (s.raise .widthFault (encode (.rdfld a w))) := by
  rw [execRdfld, if_pos (not_widthLegal_iff.2 h)]

theorem execRdfld_inside (hw : 1 ≤ w.toNat ∧ w.toNat ≤ 32) (h : a.toNat + w.toNat ≤ 8 * s.bufBytes) :
    execRdfld a w s = .next (s.setAcc (s.fieldRead a.toNat w.toNat)) := by
  have hr : s.bitsInRange (addressOf a) (widthOf w) = true := bitsInRange_iff.2 h
  rw [execRdfld, if_neg (fun hn => not_widthLegal_iff.1 hn hw), if_pos hr]; rfl

theorem execRdfld_outside (hw : 1 ≤ w.toNat ∧ w.toNat ≤ 32) (h : 8 * s.bufBytes < a.toNat + w.toNat) :
    execRdfld a w s = .next (s.raise .outOfRange (encode (.rdfld a w))) := by
  rw [execRdfld, if_neg (fun hn => not_widthLegal_iff.1 hn hw),
    if_neg (fun hr => absurd (bitsInRange_iff.1 hr) (by rw [addressOf, widthOf]; omega))]

theorem execWrfld_width (h : ¬(1 ≤ w.toNat ∧ w.toNat ≤ 32)) :
    execWrfld a w s = .next (s.raise .widthFault (encode (.wrfld a w))) := by
  rw [execWrfld, if_pos (not_widthLegal_iff.2 h)]

theorem execWrfld_inside (hw : 1 ≤ w.toNat ∧ w.toNat ≤ 32) (h : a.toNat + w.toNat ≤ 8 * s.bufBytes) :
    execWrfld a w s = .next (s.fieldWrite a.toNat s.acc w.toNat) := by
  have hr : s.bitsInRange (addressOf a) (widthOf w) = true := bitsInRange_iff.2 h
  rw [execWrfld, if_neg (fun hn => not_widthLegal_iff.1 hn hw), if_pos hr]; rfl

theorem execWrfld_outside (hw : 1 ≤ w.toNat ∧ w.toNat ≤ 32) (h : 8 * s.bufBytes < a.toNat + w.toNat) :
    execWrfld a w s = .next (s.raise .outOfRange (encode (.wrfld a w))) := by
  rw [execWrfld, if_neg (fun hn => not_widthLegal_iff.1 hn hw),
    if_neg (fun hr => absurd (bitsInRange_iff.1 hr) (by rw [addressOf, widthOf]; omega))]

theorem execLdb_inside (h : a.toNat < s.bufBytes) :
    execLdb a s = .next (s.setAcc ((s.readByte a.toNat).setWidth 32)) := by
  have hr : addressOf a + 1 ≤ s.bufBytes := h
  rw [execLdb, State.memRead_of_le hr]
  exact congrArg (fun v => Host.Outcome.next (s.setAcc v)) (bytesToWord_single _)

theorem execLdb_outside (h : s.bufBytes ≤ a.toNat) :
    execLdb a s = .next (s.raise .outOfRange (encode (.ldb a))) := by
  have hr : s.bufBytes < addressOf a + 1 := by rw [addressOf]; omega
  simp [execLdb, State.memRead_eq_none.2 hr]

theorem execStb_inside (h : a.toNat < s.bufBytes) :
    execStb a s = .next (s.writeBytes a.toNat [s.accByte]) := by
  have hr : addressOf a + [s.accByte].length ≤ s.bufBytes := h
  rw [execStb, State.memWrite_of_le hr]; rfl

theorem execStb_outside (h : s.bufBytes ≤ a.toNat) :
    execStb a s = .next (s.raise .outOfRange (encode (.stb a))) := by
  have hr : s.bufBytes < addressOf a + [s.accByte].length := by simp [addressOf]; omega
  simp [execStb, State.memWrite_eq_none.2 hr]

theorem execLdh_inside (h : a.toNat + 2 ≤ s.bufBytes) :
    execLdh a s = .next (s.setAcc ((s.readByte a.toNat ++ s.readByte (a.toNat + 1)).setWidth 32)) := by
  have hr : addressOf a + 2 ≤ s.bufBytes := h
  rw [execLdh, State.memRead_of_le hr]
  exact congrArg (fun v => Host.Outcome.next (s.setAcc v)) (bytesToWord_pair _ _)

theorem execLdh_outside (h : s.bufBytes < a.toNat + 2) :
    execLdh a s = .next (s.raise .outOfRange (encode (.ldh a))) := by
  have hr : s.bufBytes < addressOf a + 2 := h
  simp [execLdh, State.memRead_eq_none.2 hr]

theorem execSth_inside (h : a.toNat + 2 ≤ s.bufBytes) :
    execSth a s = .next (s.writeBytes a.toNat (sample16Bytes .bigEndian s.accSample16)) := by
  have hr : addressOf a + (sample16Bytes .bigEndian s.accSample16).length ≤ s.bufBytes := h
  rw [execSth, State.memWrite_of_le hr]; rfl

theorem execSth_outside (h : s.bufBytes < a.toNat + 2) :
    execSth a s = .next (s.raise .outOfRange (encode (.sth a))) := by
  have hr : s.bufBytes < addressOf a + (sample16Bytes .bigEndian s.accSample16).length := h
  simp [execSth, State.memWrite_eq_none.2 hr]

theorem execS12tof_inside (h : s.acc.toNat ≤ 4095) : execS12tof s = .next (s.setAcc (sample12ToFloat s.cfg s.acc.toNat)) :=
  if_neg (Nat.not_lt.2 h)

theorem execS12tof_outside (h : 4095 < s.acc.toNat) : execS12tof s = .next (s.raise .domain (encode .s12tof)) :=
  if_pos h

theorem execS16tof_inside (h : s.acc.toNat ≤ 65535) : execS16tof s = .next (s.setAcc (sample16ToFloat s.cfg s.acc.toNat)) :=
  if_neg (Nat.not_lt.2 h)

theorem execS16tof_outside (h : 65535 < s.acc.toNat) : execS16tof s = .next (s.raise .domain (encode .s16tof)) :=
  if_pos h

theorem execFtos12_some {t : Nat} (h : floatToSample12 s.cfg s.acc = some t) :
    execFtos12 s = .next (s.setAcc (BitVec.ofNat 32 t)) := by
  simp only [execFtos12, State.accFloat, h]

theorem execFtos12_none (h : floatToSample12 s.cfg s.acc = none) : execFtos12 s = .next (s.raise .domain (encode .ftos12)) := by
  simp only [execFtos12, State.accFloat, h]

theorem execFtos16_some {t : Nat} (h : floatToSample16 s.cfg s.acc = some t) :
    execFtos16 s = .next (s.setAcc (BitVec.ofNat 32 t)) := by
  simp only [execFtos16, State.accFloat, h]

theorem execFtos16_none (h : floatToSample16 s.cfg s.acc = none) : execFtos16 s = .next (s.raise .domain (encode .ftos16)) := by
  simp only [execFtos16, State.accFloat, h]

end Sys2Proof.Machine
end

