-- ==== Sys2Proof/Laws/Float.lean ====
section
/-! SUPPORT. The rounding of a quotient to an integer (42_quantizer.md R122). -/

namespace Sys2Proof.Machine

/-- Rounding changes nothing where the quotient is whole. -/
theorem roundHalfEven_mul (q : Nat) {den : Nat} (h : 0 < den) : roundHalfEven (q * den) den = q := by
  simp [roundHalfEven, Nat.mul_div_cancel _ h, Nat.mul_mod_left]
  omega

/-- The rounded quotient is at most half a unit away. -/
theorem roundHalfEven_near (num : Nat) {den : Nat} (h : 0 < den) :
    2 * num ≤ 2 * (roundHalfEven num den * den) + den ∧ 2 * (roundHalfEven num den * den) ≤ 2 * num + den := by
  have hd := Nat.div_add_mod num den
  have hm := Nat.mod_lt num h
  rw [Nat.mul_comm] at hd
  unfold roundHalfEven
  split <;> constructor <;> (try rw [Nat.add_mul]) <;> omega

/-- At exactly half a unit the result is even. -/
theorem roundHalfEven_tie {num den : Nat} (h : 0 < den)
    (ht : 2 * num = 2 * (roundHalfEven num den * den) + den ∨ 2 * (roundHalfEven num den * den) = 2 * num + den) :
    roundHalfEven num den % 2 = 0 := by
  have hd := Nat.div_add_mod num den
  have hm := Nat.mod_lt num h
  rw [Nat.mul_comm] at hd
  unfold roundHalfEven at ht ⊢
  split at ht
  · rename_i hc
    rw [if_pos hc]
    rw [Nat.add_mul] at ht
    omega
  · rename_i hc
    rw [if_neg hc]
    omega

/-- Rounding is monotone in the numerator. -/
theorem roundHalfEven_mono {num num' : Nat} (den : Nat) (hle : num ≤ num') :
    roundHalfEven num den ≤ roundHalfEven num' den := by
  rcases Nat.lt_or_ge (num / den) (num' / den) with hlt | hge
  · have h1 : roundHalfEven num den ≤ num / den + 1 := by unfold roundHalfEven; split <;> omega
    have h2 : num' / den ≤ roundHalfEven num' den := by unfold roundHalfEven; split <;> omega
    omega
  · have hq : num / den = num' / den := Nat.le_antisymm (Nat.div_le_div_right hle) hge
    have hd := Nat.div_add_mod num den
    have hd' := Nat.div_add_mod num' den
    rw [hq] at hd
    unfold roundHalfEven
    rw [hq]
    split <;> split <;> omega

end Sys2Proof.Machine
end

