-- ==== Sys2Proof/Laws/PerInstr.lean ====
section
/-! SUPPORT. Facts about every command as syntax, one lemma per constructor of `Instr`. -/

namespace Sys2Proof.Laws.EncodedFields

/-- The word of a command carries the command's `OP` value and its operands in their fields, and its must-be-zero fields
are zero (30_encoding.md R60, R64). -/
def Statement (i : Instr) : Prop :=
  CommandWord.opField (encode i) = i.mnemonic.op ∧ CommandWord.wField (encode i) = i.wOperand ∧
    CommandWord.aField (encode i) = i.aOperand ∧ CommandWord.dField (encode i) = i.dOperand ∧
    mbzZero i.mnemonic (encode i) = true

theorem nop : Statement .nop := by
  simp [Statement, encode, Instr.mnemonic, Instr.wOperand, Instr.aOperand, Instr.dOperand, mbzZero]
theorem ldi (d : BitVec 32) : Statement (.ldi d) := by
  simp [Statement, encode, Instr.mnemonic, Instr.wOperand, Instr.aOperand, Instr.dOperand, mbzZero, Mnemonic.usesD]
theorem seten : Statement .seten := by
  simp [Statement, encode, Instr.mnemonic, Instr.wOperand, Instr.aOperand, Instr.dOperand, mbzZero]
theorem tick : Statement .tick := by
  simp [Statement, encode, Instr.mnemonic, Instr.wOperand, Instr.aOperand, Instr.dOperand, mbzZero]
theorem rdbit (a : BitVec 16) : Statement (.rdbit a) := by
  simp [Statement, encode, Instr.mnemonic, Instr.wOperand, Instr.aOperand, Instr.dOperand, mbzZero, Mnemonic.usesA]
theorem wrbit (a : BitVec 16) : Statement (.wrbit a) := by
  simp [Statement, encode, Instr.mnemonic, Instr.wOperand, Instr.aOperand, Instr.dOperand, mbzZero, Mnemonic.usesA]
theorem rdfld (a : BitVec 16) (w : BitVec 8) : Statement (.rdfld a w) := by
  simp [Statement, encode, Instr.mnemonic, Instr.wOperand, Instr.aOperand, Instr.dOperand, mbzZero, Mnemonic.usesA,
    Mnemonic.usesW]
theorem wrfld (a : BitVec 16) (w : BitVec 8) : Statement (.wrfld a w) := by
  simp [Statement, encode, Instr.mnemonic, Instr.wOperand, Instr.aOperand, Instr.dOperand, mbzZero, Mnemonic.usesA,
    Mnemonic.usesW]
theorem ldb (a : BitVec 16) : Statement (.ldb a) := by
  simp [Statement, encode, Instr.mnemonic, Instr.wOperand, Instr.aOperand, Instr.dOperand, mbzZero, Mnemonic.usesA]
theorem stb (a : BitVec 16) : Statement (.stb a) := by
  simp [Statement, encode, Instr.mnemonic, Instr.wOperand, Instr.aOperand, Instr.dOperand, mbzZero, Mnemonic.usesA]
theorem ldh (a : BitVec 16) : Statement (.ldh a) := by
  simp [Statement, encode, Instr.mnemonic, Instr.wOperand, Instr.aOperand, Instr.dOperand, mbzZero, Mnemonic.usesA]
theorem sth (a : BitVec 16) : Statement (.sth a) := by
  simp [Statement, encode, Instr.mnemonic, Instr.wOperand, Instr.aOperand, Instr.dOperand, mbzZero, Mnemonic.usesA]
theorem s12tof : Statement .s12tof := by
  simp [Statement, encode, Instr.mnemonic, Instr.wOperand, Instr.aOperand, Instr.dOperand, mbzZero]
theorem ftos12 : Statement .ftos12 := by
  simp [Statement, encode, Instr.mnemonic, Instr.wOperand, Instr.aOperand, Instr.dOperand, mbzZero]
theorem s16tof : Statement .s16tof := by
  simp [Statement, encode, Instr.mnemonic, Instr.wOperand, Instr.aOperand, Instr.dOperand, mbzZero]
theorem ftos16 : Statement .ftos16 := by
  simp [Statement, encode, Instr.mnemonic, Instr.wOperand, Instr.aOperand, Instr.dOperand, mbzZero]

end Sys2Proof.Laws.EncodedFields
end

