-- ==== Sys2Proof/Laws/Step.lean ====
section
/-! SUPPORT. What the meaning of a command, a command word and a step can do. -/

namespace Sys2Proof.Machine

open Sys2Proof.Safety

@[simp] theorem returning_next (t : State) : returning (.next t) = .next t.respond := rfl

theorem command_halted {s : State} (h : s.st ≠ 0) (w : CommandWord) : command w s = .next s.respond := by
  rw [command, State.halted, if_pos (bne_iff_ne.2 h)]

theorem command_illegal {s : State} (h : s.st = 0) {w : CommandWord} {why : IllegalWord} (hw : decode w = .error why) :
    command w s = .next (s.raise .illegalCommand w).respond := by
  simp [command, State.halted, h, hw]

theorem command_legal {s : State} (h : s.st = 0) {w : CommandWord} {i : Instr} (hw : decode w = .ok i) :
    command w s = returning (exec i s) := by
  simp [command, State.halted, h, hw]

theorem step_idle {s : State} (h : s.pending = []) : step s = .next s := by
  simp [step, takeMove, h]

theorem step_command {s : State} {w : CommandWord} {rest : List HostMove} (h : s.pending = .command w :: rest) :
    step s = command w { s with pending := rest } := by
  simp [step, takeMove, h, hostMove]

theorem step_reset {s : State} {rest : List HostMove} (h : s.pending = .reset :: rest) :
    step s = .next (State.takeReset { s with pending := rest }) := by
  simp [step, takeMove, h, hostMove]

/-- The cause table on a state, in the state's own size. -/
theorem faultOf_cfg (s : State) (acc : Word32) (i : Instr) :
    faultOf s.cfg acc i = if widthOffends i then some .widthFault else if rangeOffends s.bufBytes i then some .outOfRange
      else if domainOffends s.cfg acc i then some .domain else none := rfl

/-- All that the meaning of a command can do: take the fault entry for the cause of the cause table, or, where the table
names no cause, write nothing, `ACC` alone, `CTRL` alone, or cells of `BUF` alone. -/
inductive Effect (i : Instr) (s : State) : State → Prop where
  | fault (cause : FaultCause) (h : faultOf s.cfg s.acc i = some cause) : Effect i s (s.raise cause (encode i))
  | nothing (h : faultOf s.cfg s.acc i = none) : Effect i s s
  | acc (v : Word32) (h : faultOf s.cfg s.acc i = none) : Effect i s (s.setAcc v)
  | enable (en : BitVec 1) (h : faultOf s.cfg s.acc i = none) : Effect i s (s.setCtrl (ctrlOfEn en))
  | bit (b : Nat) (x : Bool) (hb : b < 8 * s.bufBytes) (h : faultOf s.cfg s.acc i = none) :
      Effect i s (s.bitWrite b x)
  | field (a n : Nat) (hn : a + n ≤ 8 * s.bufBytes) (h : faultOf s.cfg s.acc i = none) :
      Effect i s (s.fieldWrite a s.acc n)
  | bytes (a : Nat) (vs : List Byte) (hn : a + vs.length ≤ s.bufBytes)
      (h : faultOf s.cfg s.acc i = none) : Effect i s (s.writeBytes a vs)

/-- Every command answers a next state, and it is an `Effect`. -/
theorem exec_effect (i : Instr) (s : State) : ∃ t, exec i s = .next t ∧ Effect i s t := by
  cases i with
  | nop => exact ⟨s, rfl, .nothing rfl⟩
  | ldi d => exact ⟨_, rfl, .acc d rfl⟩
  | seten => exact ⟨_, rfl, .enable _ rfl⟩
  | tick => exact ⟨s, rfl, .nothing rfl⟩
  | rdbit a =>
    rcases Nat.lt_or_ge a.toNat (8 * s.bufBytes) with h | h
    · exact ⟨_, execRdbit_inside h, .acc _ (by simp [faultOf_cfg, widthOffends, rangeOffends, domainOffends, h])⟩
    · exact ⟨_, execRdbit_outside h, .fault _ (by simp [faultOf_cfg, widthOffends, rangeOffends, h])⟩
  | wrbit a =>
    rcases Nat.lt_or_ge a.toNat (8 * s.bufBytes) with h | h
    · exact ⟨_, execWrbit_inside h, .bit _ _ h (by simp [faultOf_cfg, widthOffends, rangeOffends, domainOffends, h])⟩
    · exact ⟨_, execWrbit_outside h, .fault _ (by simp [faultOf_cfg, widthOffends, rangeOffends, h])⟩
  | rdfld a w =>
    by_cases hw : 1 ≤ w.toNat ∧ w.toNat ≤ 32
    · have hn : ¬(w.toNat = 0 ∨ 32 < w.toNat) := by omega
      rcases Nat.lt_or_ge (8 * s.bufBytes) (a.toNat + w.toNat) with h | h
      · exact ⟨_, execRdfld_outside hw h, .fault _ (by simp only [faultOf_cfg, widthOffends, rangeOffends]; simp [hn, h])⟩
      · exact ⟨_, execRdfld_inside hw h, .acc _ (by
          simp only [faultOf_cfg, widthOffends, rangeOffends, domainOffends]; simp [hn]; omega)⟩
    · exact ⟨_, execRdfld_width hw, .fault _ (by
        have hn : w.toNat = 0 ∨ 32 < w.toNat := by omega
        simp only [faultOf_cfg, widthOffends]; simp [hn])⟩
  | wrfld a w =>
    by_cases hw : 1 ≤ w.toNat ∧ w.toNat ≤ 32
    · have hn : ¬(w.toNat = 0 ∨ 32 < w.toNat) := by omega
      rcases Nat.lt_or_ge (8 * s.bufBytes) (a.toNat + w.toNat) with h | h
      · exact ⟨_, execWrfld_outside hw h, .fault _ (by simp only [faultOf_cfg, widthOffends, rangeOffends]; simp [hn, h])⟩
      · exact ⟨_, execWrfld_inside hw h, .field _ _ h (by
          simp only [faultOf_cfg, widthOffends, rangeOffends, domainOffends]; simp [hn]; omega)⟩
    · exact ⟨_, execWrfld_width hw, .fault _ (by
        have hn : w.toNat = 0 ∨ 32 < w.toNat := by omega
        simp only [faultOf_cfg, widthOffends]; simp [hn])⟩
  | ldb a =>
    rcases Nat.lt_or_ge a.toNat s.bufBytes with h | h
    · exact ⟨_, execLdb_inside h, .acc _ (by simp [faultOf_cfg, widthOffends, rangeOffends, domainOffends, h])⟩
    · exact ⟨_, execLdb_outside h, .fault _ (by simp [faultOf_cfg, widthOffends, rangeOffends, h])⟩
  | stb a =>
    rcases Nat.lt_or_ge a.toNat s.bufBytes with h | h
    · exact ⟨_, execStb_inside h, .bytes _ _ h (by simp [faultOf_cfg, widthOffends, rangeOffends, domainOffends, h])⟩
    · exact ⟨_, execStb_outside h, .fault _ (by simp [faultOf_cfg, widthOffends, rangeOffends, h])⟩
  | ldh a =>
    rcases Nat.lt_or_ge s.bufBytes (a.toNat + 2) with h | h
    · exact ⟨_, execLdh_outside h, .fault _ (by simp [faultOf_cfg, widthOffends, rangeOffends, h])⟩
    · exact ⟨_, execLdh_inside h, .acc _ (by simp [faultOf_cfg, widthOffends, rangeOffends, domainOffends, h])⟩
  | sth a =>
    rcases Nat.lt_or_ge s.bufBytes (a.toNat + 2) with h | h
    · exact ⟨_, execSth_outside h, .fault _ (by simp [faultOf_cfg, widthOffends, rangeOffends, h])⟩
    · exact ⟨_, execSth_inside h, .bytes _ _ h (by simp [faultOf_cfg, widthOffends, rangeOffends, domainOffends, h])⟩
  | s12tof =>
    rcases Nat.lt_or_ge 4095 s.acc.toNat with h | h
    · exact ⟨_, execS12tof_outside h, .fault _ (by simp [faultOf_cfg, widthOffends, rangeOffends, domainOffends, h])⟩
    · exact ⟨_, execS12tof_inside h, .acc _ (by simp [faultOf_cfg, widthOffends, rangeOffends, domainOffends, h])⟩
  | ftos12 =>
    cases h : floatToSample12 s.cfg s.acc with
    | none => exact ⟨_, execFtos12_none h, .fault _ (by simp [faultOf_cfg, widthOffends, rangeOffends, domainOffends, h])⟩
    | some v => exact ⟨_, execFtos12_some h, .acc _ (by simp [faultOf_cfg, widthOffends, rangeOffends, domainOffends, h])⟩
  | s16tof =>
    rcases Nat.lt_or_ge 65535 s.acc.toNat with h | h
    · exact ⟨_, execS16tof_outside h, .fault _ (by simp [faultOf_cfg, widthOffends, rangeOffends, domainOffends, h])⟩
    · exact ⟨_, execS16tof_inside h, .acc _ (by simp [faultOf_cfg, widthOffends, rangeOffends, domainOffends, h])⟩
  | ftos16 =>
    cases h : floatToSample16 s.cfg s.acc with
    | none => exact ⟨_, execFtos16_none h, .fault _ (by simp [faultOf_cfg, widthOffends, rangeOffends, domainOffends, h])⟩
    | some v => exact ⟨_, execFtos16_some h, .acc _ (by simp [faultOf_cfg, widthOffends, rangeOffends, domainOffends, h])⟩

/-- `exec` answering `t` means `t` is an `Effect`. -/
theorem effect_of_exec {i : Instr} {s t : State} (h : exec i s = .next t) : Effect i s t := by
  obtain ⟨u, hu, he⟩ := exec_effect i s
  rw [hu] at h
  cases h
  exact he

/-- All that a command word can do: nothing on a halted block, the fault entry on an illegal word, or the effect of the
command it decodes to; and the response is returned (60_exceptions.md R164). -/
theorem command_cases (w : CommandWord) (s : State) :
    (s.st ≠ 0 ∧ command w s = .next s.respond) ∨
    (s.st = 0 ∧ ∃ why, decode w = .error why ∧ command w s = .next (s.raise .illegalCommand w).respond) ∨
    (s.st = 0 ∧ ∃ i t, decode w = .ok i ∧ Effect i s t ∧ command w s = .next t.respond) := by
  by_cases h : s.st = 0
  · refine .inr ?_
    cases hw : decode w with
    | error why => exact .inl ⟨h, why, rfl, command_illegal h hw⟩
    | ok i =>
      obtain ⟨t, ht, he⟩ := exec_effect i s
      exact .inr ⟨h, i, t, rfl, he, by rw [command_legal h hw, ht]; rfl⟩
  · exact .inl ⟨h, command_halted h w⟩

end Sys2Proof.Machine
end

