-- ==== Sys2Proof/Tests/Slice0.lean ====
section
/-! SUPPORT. The model's own tests. Every expected value is one of 95_test_vectors.md, of the rule named, or worked out by
hand from the rule; none is an answer of the model. After them, for every statement with hypotheses, a witness that
meets them. -/

namespace Sys2Proof.Tests
open Sys2Proof.Machine Sys2Proof.Safety Sys2Proof.FloatMeaning

/-! ### Helpers -/

/-- The reset state with the bytes given, at the addresses from `a` on, and `ACC`. -/
def start (a : Nat) (bytes : List Byte) (acc : Word32) : State :=
  { State.reset with buf := (List.range bytes.length).zipWith (fun k v => (a + k, v)) bytes, acc := acc }

/-- The start of the vectors of 95_test_vectors.md 2.2 and 2.3. -/
def vector (acc : Word32) : State := start 0 [0x12, 0x34, 0x56, 0x78, 0x9A, 0xBC] acc

/-- A block whose last six bytes hold 0x5A (95_test_vectors.md 2.2, end of buffer). -/
def atEnd (acc : Word32) : State := start 1018 [0x5A, 0x5A, 0x5A, 0x5A, 0x5A, 0x5A] acc

/-- The answer is a next state with the property. -/
def answers (o : Host.Outcome State Fault Refusal) (p : State → Bool) : Bool :=
  match o with
  | .next t => p t
  | .fault _ => false
  | .refused _ => false

/-- The command completes without a fault and `ACC` is `v` after it. -/
def gives (i : Instr) (s : State) (v : Word32) : Bool := answers (exec i s) fun t => t.acc == v && t.st == 0

/-- The command completes without a fault and the bytes from address `a` on are these after it. -/
def leaves (i : Instr) (s : State) (a : Nat) (bytes : List Byte) : Bool :=
  answers (exec i s) fun t => (List.range bytes.length).map (fun k => t.readByte (a + k)) == bytes && t.st == 0

/-- The command faults with this `ST`, records the word, and keeps `ACC` and `BUF`. -/
def faults (i : Instr) (s : State) (st : BitVec 8) (word : CommandWord) : Bool :=
  answers (exec i s) fun t => t.st == st && t.fcmd == word && t.acc == s.acc && t.buf == s.buf

/-- The word decodes to the command. -/
def reads (w : CommandWord) (i : Instr) : Bool := (decode w).toOption == some i

/-- The word is illegal. -/
def illegal (w : CommandWord) : Bool := (decode w).toOption == none

/-! ### Decoding: a word for every constructor (95_test_vectors.md 2.1) -/

theorem test_decode_control :
    reads 0x0000000000000000 .nop ∧ reads 0x01000000FFFFFFFF (.ldi 0xFFFFFFFF) ∧
      reads 0x0200000000000000 .seten ∧ reads 0x0300000000000000 .tick := by decide

theorem test_decode_bitfield :
    reads 0x1000FFFF00000000 (.rdbit 65535) ∧ reads 0x1100000000000000 (.wrbit 0) ∧
      reads 0x1220000000000000 (.rdfld 0 32) ∧ reads 0x130C1FF400000000 (.wrfld 8180 12) := by decide

theorem test_decode_byte_access :
    reads 0x2000000200000000 (.ldb 2) ∧ reads 0x210003FF00000000 (.stb 1023) ∧
      reads 0x2200002000000000 (.ldh 32) ∧ reads 0x2300012C00000000 (.sth 300) := by decide

theorem test_decode_quantizer :
    reads 0x3000000000000000 .s12tof ∧ reads 0x3100000000000000 .ftos12 ∧
      reads 0x3200000000000000 .s16tof ∧ reads 0x3300000000000000 .ftos16 := by decide

/-- Illegal widths are no part of decoding (R65). -/
theorem test_decode_any_width : reads 0x1200000000000000 (.rdfld 0 0) ∧ reads 0x13FF000000000000 (.wrfld 0 255) := by
  decide

theorem test_decode_unlisted_op :
    illegal 0x0400000000000000 ∧ illegal 0x0F00000000000000 ∧ illegal 0x1400000000000000 ∧
      illegal 0x2400000000000000 ∧ illegal 0x3400000000000000 ∧ illegal 0xFF00000000000000 := by decide

theorem test_decode_nonzero_field :
    illegal 0x0000000000000001 ∧ illegal 0x0001000000000000 ∧ illegal 0x0100000100000005 ∧
      illegal 0x0300000000000014 ∧ illegal 0x1001000000000000 ∧ illegal 0x120C000000000001 ∧
      illegal 0x2300000000001234 ∧ illegal 0x3310000000000000 := by decide

/-! ### Well-formedness: every check refuses an ill-formed term -/

/-- The size below and above its range, and another value of a parameter that R5 fixes. -/
theorem test_wf_config :
    Config.wellFormed (.ofSize 2) = false ∧ Config.wellFormed (.ofSize 8193) = false ∧
      Config.wellFormed { Config.ofSize 1024 with fp := { expBits := 11, fracBits := 52 } } = false ∧
      Config.wellFormed { Config.ofSize 1024 with k16 := 32768 } = false := by decide

/-- `ACC_BITS` and `CMD_BITS` are the widths of the two types (R5), and the size after reset is the default. -/
theorem test_config_widths :
    Word32 = BitVec State.reset.cfg.accBits ∧ CommandWord = BitVec State.reset.cfg.cmdBits ∧
      State.reset.cfg.bufBytes = 1024 := ⟨rfl, rfl, rfl⟩

theorem test_wf_line_operand_count :
    AsmLine.wellFormed ⟨.rdfld, [0]⟩ = false ∧ AsmLine.wellFormed ⟨.nop, [0]⟩ = false := by decide

theorem test_wf_line_operand_size :
    AsmLine.wellFormed ⟨.ldb, [65536]⟩ = false ∧ AsmLine.wellFormed ⟨.wrfld, [0, 256]⟩ = false ∧
      AsmLine.wellFormed ⟨.ldi, [4294967296]⟩ = false := by decide

theorem test_wf_pseudo :
    Pseudo.wellFormed (.ofSize 1024) (.rd12 65536) = false ∧ Pseudo.wellFormed (.ofSize 1024) (.wr12 65536) = false ∧
      Pseudo.wellFormed (.ofSize 1024) (.clock 4294967296) = false := by decide

/-- The block's size, `n` = 0, not a whole group, above 255, either region outside, overlap (R133, R135). -/
theorem test_wf_m2n :
    m2nPre (.ofSize 8193) 0 3 3 = false ∧ m2nPre (.ofSize 1024) 0 16 0 = false ∧ m2nPre (.ofSize 1024) 0 16 4 = false ∧
      m2nPre (.ofSize 1024) 0 600 258 = false ∧ m2nPre (.ofSize 1024) 1022 0 3 = false ∧ m2nPre (.ofSize 1024) 0 1021 3 = false ∧
      m2nPre (.ofSize 1024) 0 2 3 = false := by decide

/-- The block's size, odd `k`, above 270, either region outside, overlap (R136, R141). -/
theorem test_wf_n2m :
    n2mPre (.ofSize 2) 0 0 0 = false ∧ n2mPre (.ofSize 1024) 0 16 3 = false ∧ n2mPre (.ofSize 1024) 0 600 272 = false ∧
      n2mPre (.ofSize 1024) 1023 0 2 = false ∧ n2mPre (.ofSize 1024) 0 1023 2 = false ∧ n2mPre (.ofSize 1024) 0 1 2 = false := by decide

/-! ### One command (95_test_vectors.md 2.2 to 2.5) -/

theorem test_nop : exec .nop (vector 0xFF0) = .next (vector 0xFF0) := rfl

theorem test_ldi : gives (.ldi 0x3F800000) (vector 5) 0x3F800000 = true := by decide

theorem test_seten_takes_bit_zero_only :
    answers (exec .seten (vector 3)) (·.ctrl == 0x01) = true ∧
      answers (exec .seten { vector 0xFFFFFFFE with ctrl := 0x01 }) (·.ctrl == 0x00) = true := by decide

theorem test_tick : exec .tick (vector 20) = .next (vector 20) := rfl

theorem test_rdbit : gives (.rdbit 6) (vector 0xDEADBEEF) 1 = true ∧ gives (.rdbit 47) (vector 0xDEADBEEF) 0 = true := by
  decide

theorem test_rdbit_fault : faults (.rdbit 8192) (atEnd 0xFFF) 0x04 0x1000200000000000 = true := by decide

theorem test_wrbit :
    leaves (.wrbit 0) (vector 1) 0 [0x92, 0x34] = true ∧ leaves (.wrbit 3) (vector 0xFFFFFFFE) 0 [0x02, 0x34] = true := by
  decide

theorem test_wrbit_fault : faults (.wrbit 8192) (atEnd 0xFFF) 0x04 0x1100200000000000 = true := by decide

theorem test_rdfld :
    gives (.rdfld 4 8) (vector 0xDEADBEEF) 0xC4 = true ∧ gives (.rdfld 12 12) (vector 0xDEADBEEF) 0x6A2 = true ∧
      gives (.rdfld 4 32) (vector 0xDEADBEEF) 0x91E6A2C4 = true ∧ gives (.rdfld 8180 12) (atEnd 0) 0x5A5 = true := by
  decide

theorem test_rdfld_faults :
    faults (.rdfld 8181 12) (atEnd 0xFFF) 0x04 0x120C1FF500000000 = true ∧
      faults (.rdfld 65535 0) (atEnd 0xFFF) 0x02 0x1200FFFF00000000 = true ∧
      faults (.rdfld 0 33) (atEnd 0xFFF) 0x02 0x1221000000000000 = true := by decide

theorem test_wrfld :
    leaves (.wrfld 7 2) (vector 2) 0 [0x12, 0xB4, 0x56] = true ∧
      leaves (.wrfld 12 12) (vector 0xFFFFF001) 0 [0x12, 0x38, 0x00, 0x78] = true ∧
      leaves (.wrfld 4 32) (vector 0xFFFFFFFF) 0 [0x1F, 0xFF, 0xFF, 0xFF, 0xFA, 0xBC] = true := by decide

theorem test_wrfld_faults :
    faults (.wrfld 8181 12) (atEnd 0xFFF) 0x04 0x130C1FF500000000 = true ∧
      faults (.wrfld 0 255) (atEnd 0xFFF) 0x02 0x13FF000000000000 = true := by decide

theorem test_ldb : gives (.ldb 5) (vector 0xDEADBEEF) 0xBC = true := by decide

theorem test_ldb_fault : faults (.ldb 1024) (atEnd 0xFFF) 0x04 0x2000040000000000 = true := by decide

theorem test_stb : leaves (.stb 0) (vector 0xDEADBEEF) 0 [0xEF, 0x34, 0x56] = true := by decide

theorem test_stb_fault : faults (.stb 65535) (atEnd 0xFFF) 0x04 0x2100FFFF00000000 = true := by decide

theorem test_ldh : gives (.ldh 1) (vector 0) 0x3456 = true ∧ gives (.ldh 4) (vector 0) 0x9ABC = true := by decide

theorem test_ldh_fault : faults (.ldh 1023) (atEnd 0xFFF) 0x04 0x220003FF00000000 = true := by decide

theorem test_sth : leaves (.sth 1) (vector 0x00010203) 0 [0x12, 0x02, 0x03, 0x78] = true := by decide

theorem test_sth_fault : faults (.sth 1023) (atEnd 0x1234) 0x04 0x230003FF00000000 = true := by decide

theorem test_s12tof :
    gives .s12tof (vector 255) 0xBF602000 = true ∧ gives .s12tof (vector 2048) 0x00000000 = true ∧
      gives .s12tof (vector 4095) 0x3F7FE000 = true := by decide +kernel

theorem test_s12tof_fault : faults .s12tof (vector 4096) 0x08 0x3000000000000000 = true := by decide +kernel

theorem test_ftos12 :
    gives .ftos12 (vector 0x3F7FEFFE) 4095 = true ∧ gives .ftos12 (vector 0x3F7FEFFF) 4096 = true ∧
      gives .ftos12 (vector 0x807FFFFF) 2048 = true ∧ gives .ftos12 (vector 0xBF8017FF) 0 = true := by decide +kernel

theorem test_ftos12_faults :
    faults .ftos12 (vector 0x3F8007FF) 0x08 0x3100000000000000 = true ∧
      faults .ftos12 (vector 0xBF801800) 0x08 0x3100000000000000 = true ∧
      faults .ftos12 (vector 0x7F800001) 0x08 0x3100000000000000 = true := by decide +kernel

theorem test_s16tof :
    gives .s16tof (vector 4080) 0xBF601FC0 = true ∧ gives .s16tof (vector 32767) 0x00000000 = true ∧
      gives .s16tof (vector 65535) 0x3F800100 = true := by decide +kernel

theorem test_s16tof_fault : faults .s16tof (vector 65536) 0x08 0x3200000000000000 = true := by decide +kernel

theorem test_ftos16 :
    gives .ftos16 (vector 0x3E800000) 40959 = true ∧ gives .ftos16 (vector 0x3F80017E) 65535 = true ∧
      gives .ftos16 (vector 0xBF800180) 0 = true := by decide +kernel

theorem test_ftos16_faults :
    faults .ftos16 (vector 0x3F80017F) 0x08 0x3300000000000000 = true ∧
      faults .ftos16 (vector 0xBF800181) 0x08 0x3300000000000000 = true ∧
      faults .ftos16 (vector 0xFF800000) 0x08 0x3300000000000000 = true := by decide +kernel

/-! ### The step, the fetch helper, the pseudo-instructions -/

/-- 95_test_vectors.md 2.6: an illegal word returns (`ACC`, 0x01). -/
theorem test_step_illegal_word :
    answers (step ((vector 0x11).withFetchWord 64 0x0200000000000001))
      (fun t => t.st == 0x01 && t.fcmd == 0x0200000000000001 && t.responses == [⟨0x11, 0x01⟩]) = true := by decide

/-- 95_test_vectors.md 2.6: a halted block ignores LDI 7. -/
theorem test_step_halted :
    answers (step (State.withFetchWord { vector 0x1234 with st := 0x04, fcmd := 0x230003FF00000000 } 64
        0x0100000000000007))
      (fun t => t.st == 0x04 && t.fcmd == 0x230003FF00000000 && t.acc == 0x1234 && t.responses == [⟨0x1234, 0x04⟩])
      = true := by decide

theorem test_decode_table_word : decodeTableWord 64 0x120C000C00000000 = some (.rdfld 12 12) := by decide

/-- 95_test_vectors.md 2.1: `LDF 0.25`, `ENABLE 1`; 43_bridge_sequences.md R133: the first loop body of P1. -/
theorem test_expand :
    expand (.ofSize 1024) (.ldf ⟨false, 25, 2⟩) = some [.ldi 0x3E800000] ∧
      expand (.ofSize 1024) (.enable true) = some [.ldi 1, .seten] ∧
      (expand (.ofSize 1024) (.m2n 0 16 3)).map (List.take 4) = some [.rdfld 0 12, .s12tof, .ftos16, .sth 16] ∧
      expand (.ofSize 1024) (.n2m 0 16 0) = some [] := by decide +kernel

theorem test_assemble :
    assembleText (.ofSize 1024) ['R', 'D', 'F', 'L', 'D', ' ', '1', '2', ',', ' ', '0', 'x', 'C', ' ', ';', ' ', 'b']
      = some [.rdfld 12 12] := by decide +kernel

theorem test_print_illegal_word :
    printWord 0x04000000000000AB =
      ['.', 'w', 'o', 'r', 'd', ' ', '0', 'x', '0', '4', '0', '0', '0', '0', '0', '0', '0', '0', '0', '0', '0', '0',
        'A', 'B'] := by decide +kernel

/-! ### Witnesses: every hypothesis of a statement is met -/

/-- The block of program P4 after its fault (95_test_vectors.md): halted by `STH 1023`. -/
def haltedBlock : State :=
  { start 1023 [0xAB] 0x1234 with st := 0x04, fcmd := 0x230003FF00000000 }

theorem witness_HostResetRestoresResetState :
    (State.submit haltedBlock [.reset, .command 0]).pending = .reset :: [.command 0] := rfl

theorem witness_StepRunsTheDecodedCommand :
    ((vector 0).withFetchWord 64 0x0100000000000007).pending = .command 0x0100000000000007 :: [] ∧
      ((vector 0).withFetchWord 64 0x0100000000000007).st = 0 ∧ decode 0x0100000000000007 = .ok (.ldi 7) ∧
      exec (.ldi 7) { (vector 0).withFetchWord 64 0x0100000000000007 with pending := [] } = .next (vector 7) :=
  ⟨rfl, rfl, rfl, rfl⟩

theorem witness_HaltedBlockIgnoresEveryWord :
    (haltedBlock.withFetchWord 64 0x0100000000000007).pending = .command 0x0100000000000007 :: [] ∧
      (haltedBlock.withFetchWord 64 0x0100000000000007).st ≠ 0 := ⟨rfl, by decide⟩

theorem witness_IllegalWordRaisesIllegalCommand_illegal :
    ((vector 0).withFetchWord 64 0x0000000000000001).pending = .command 0x0000000000000001 :: [] ∧
      ((vector 0).withFetchWord 64 0x0000000000000001).st = 0 ∧
      (∀ r ∈ opcodeMap, 0x0000000000000001 &&& r.mask ≠ r.pattern) := ⟨rfl, rfl, by decide⟩

theorem witness_IllegalWordRaisesIllegalCommand_legal :
    ((vector 0).withFetchWord 64 0x0000000000000000).pending = .command 0x0000000000000000 :: [] ∧
      ((vector 0).withFetchWord 64 0x0000000000000000).st = 0 ∧
      (∃ r ∈ opcodeMap, 0x0000000000000000 &&& r.mask = r.pattern) ∧
      ∃ t, step ((vector 0).withFetchWord 64 0x0000000000000000) = .next t := ⟨rfl, rfl, by decide, _, rfl⟩

theorem witness_StepWithoutAMoveChangesNothing : State.reset.pending = [] := rfl

theorem reset_inv : Inv State.reset where
  config := by decide
  memory := by decide
  inside := by decide
  enable := by decide
  record := .inl ⟨rfl, rfl⟩

theorem haltedBlock_inv : Inv haltedBlock where
  config := by decide
  memory := by decide
  inside := by decide
  enable := by decide
  record := .inr (.inr ⟨.sth 1023, .outOfRange, rfl, by decide, rfl⟩)

/-- A state that is not halted, and one that is. -/
theorem witness_EveryStepKeepsTheInvariant :
    (Inv State.reset ∧ ∃ t, step State.reset = .next t) ∧ Inv haltedBlock ∧ ∃ t, step haltedBlock = .next t :=
  ⟨⟨reset_inv, _, rfl⟩, haltedBlock_inv, _, rfl⟩

theorem witness_HaltedRunRepeatsItsResponse : haltedBlock.st ≠ 0 := by decide

theorem witness_SuccessfulRunIsSuccessfulThroughout :
    SuccessfulRun ([0x0100000000000007] ++ [0x0000000000000000]) (vector 0)
      { vector 7 with responses := [⟨7, 0⟩, ⟨7, 0⟩] } := ⟨rfl, rfl⟩

theorem witness_EncodeOfDecodeIsTheWord : decode 0x13FFFFFF00000000 = .ok (.wrfld 65535 255) := rfl

theorem witness_CommandLinesAndCommandsAreInverse :
    assembleLine ⟨.wrfld, [65535, 255]⟩ = some (.wrfld 65535 255) ∧
      assembleLine ⟨.ldi, [4294967295]⟩ = some (.ldi 0xFFFFFFFF) := by decide

theorem witness_PrintedWordAssemblesBack :
    decode 0x0400000000000000 = .error .unlistedOp ∧ decode 0x0000000000000001 = .error .nonzeroField := ⟨rfl, rfl⟩

/-- The largest operands; the smallest and the largest bridge calls, their regions touching. -/
theorem witness_PseudoInstructionsExpandAsTabled :
    65535 < 65536 ∧ 4294967295 < 2 ^ 32 ∧ m2nPre (.ofSize 1024) 0 3 3 = true ∧ m2nPre (.ofSize 1024) 769 429 255 = true ∧
      n2mPre (.ofSize 1024) 0 0 0 = true ∧ n2mPre (.ofSize 1024) 754 551 270 = true := by decide

theorem witness_LegalWordFaultsByTheCauseTable_fault :
    (vector 5).st = 0 ∧ decode 0x1200FFFF00000000 = .ok (.rdfld 65535 0) ∧
      faultOf (vector 5).cfg (vector 5).acc (.rdfld 65535 0) = some .widthFault := ⟨rfl, rfl, by decide⟩

theorem witness_LegalWordFaultsByTheCauseTable_none :
    (vector 5).st = 0 ∧ decode 0x12011FFF00000000 = .ok (.rdfld 8191 1) ∧
      faultOf (vector 5).cfg (vector 5).acc (.rdfld 8191 1) = none := ⟨rfl, rfl, by decide⟩

theorem witness_WidthFaultIsForIllegalWidthsOnly :
    ((0 : BitVec 8).toNat = 0 ∨ 32 < (0 : BitVec 8).toNat) ∧ ((33 : BitVec 8).toNat = 0 ∨ 32 < (33 : BitVec 8).toNat) ∧
      (vector 5).stWid = false ∧ exec (.rdfld 0 33) (vector 5) =
        .next { vector 5 with st := 0x02, fcmd := 0x1221000000000000 } ∧
      State.stWid { vector 5 with st := 0x02, fcmd := 0x1221000000000000 } = true := ⟨by decide, by decide, rfl, rfl, rfl⟩

/-- The first bit index, the first field end, the first byte and the first pair outside. -/
theorem witness_OutOfRangeIsForAccessesBeyondBufOnly :
    8 * (atEnd 5).bufBytes ≤ (8192 : BitVec 16).toNat ∧
      (1 ≤ (1 : BitVec 8).toNat ∧ (1 : BitVec 8).toNat ≤ 32 ∧
        8 * (atEnd 5).bufBytes < (8192 : BitVec 16).toNat + (1 : BitVec 8).toNat) ∧
      (1 ≤ (32 : BitVec 8).toNat ∧ (32 : BitVec 8).toNat ≤ 32 ∧
        8 * (atEnd 5).bufBytes < (8161 : BitVec 16).toNat + (32 : BitVec 8).toNat) ∧
      (atEnd 5).bufBytes ≤ (1024 : BitVec 16).toNat ∧ (atEnd 5).bufBytes < (1023 : BitVec 16).toNat + 2 ∧
      (atEnd 5).stOor = false ∧
      exec (.sth 1023) (atEnd 5) = .next { atEnd 5 with st := 0x04, fcmd := 0x230003FF00000000 } ∧
      State.stOor { atEnd 5 with st := 0x04, fcmd := 0x230003FF00000000 } = true :=
  ⟨by decide, by decide, by decide, by decide, by decide, rfl, rfl, rfl⟩

theorem witness_EnableFlagChangesNoResponse : ∃ t, Host.Core.run core 1 (vector 5) = .next t := ⟨_, rfl⟩

/-- The last bit inside and the first outside, for `RdbitReadsOneBit` and `WrbitWritesOneBit`. -/
theorem witness_RdbitReadsOneBit_WrbitWritesOneBit :
    (8191 : BitVec 16).toNat < 8 * (atEnd 5).bufBytes ∧ 8 * (atEnd 5).bufBytes ≤ (8192 : BitVec 16).toNat := by
  decide

/-- The narrowest and the widest field that end at the end of the buffer, the illegal widths, and the first field beyond:
for `RdfldReadsTheField`, `WrfldWritesTheField` and `FieldWriteAndReadAreInverse`. -/
theorem witness_RdfldReadsTheField_WrfldWritesTheField_FieldWriteAndReadAreInverse :
    (1 ≤ (1 : BitVec 8).toNat ∧ (1 : BitVec 8).toNat ≤ 32 ∧
        (8191 : BitVec 16).toNat + (1 : BitVec 8).toNat ≤ 8 * (atEnd 5).bufBytes) ∧
      (1 ≤ (32 : BitVec 8).toNat ∧ (32 : BitVec 8).toNat ≤ 32 ∧
        (8160 : BitVec 16).toNat + (32 : BitVec 8).toNat ≤ 8 * (atEnd 5).bufBytes) ∧
      ((0 : BitVec 8).toNat = 0 ∨ 32 < (0 : BitVec 8).toNat) ∧
      ((33 : BitVec 8).toNat = 0 ∨ 32 < (33 : BitVec 8).toNat) ∧
      (1 ≤ (32 : BitVec 8).toNat ∧ (32 : BitVec 8).toNat ≤ 32 ∧
        8 * (atEnd 5).bufBytes < (8161 : BitVec 16).toNat + (32 : BitVec 8).toNat) := by decide

/-- Two fields that touch, in either order. -/
theorem witness_DisjointFieldsAreIndependent :
    1 ≤ (12 : BitVec 8).toNat ∧ (12 : BitVec 8).toNat ≤ 32 ∧
      (8168 : BitVec 16).toNat + (12 : BitVec 8).toNat ≤ 8 * (atEnd 5).bufBytes ∧
      (8180 : BitVec 16).toNat + (12 : BitVec 8).toNat ≤ 8 * (atEnd 5).bufBytes ∧
      (8168 : BitVec 16).toNat + (12 : BitVec 8).toNat ≤ (8180 : BitVec 16).toNat := by decide

theorem witness_FieldIsTheConcatenationOfItsParts :
    1 ≤ (1 : BitVec 8).toNat ∧ 1 ≤ (31 : BitVec 8).toNat ∧ (32 : BitVec 8).toNat ≤ 32 ∧
      (32 : BitVec 8).toNat = (1 : BitVec 8).toNat + (31 : BitVec 8).toNat ∧
      (8161 : BitVec 16).toNat = (8160 : BitVec 16).toNat + (1 : BitVec 8).toNat ∧
      (8160 : BitVec 16).toNat + (32 : BitVec 8).toNat ≤ 8 * (atEnd 5).bufBytes := by decide

/-- The last group of the buffer, for `PackedGroupHasTheTabledLayout` and `RepackingAGroupIsLossless`. -/
theorem witness_PackedGroupHasTheTabledLayout_RepackingAGroupIsLossless :
    1021 + 3 ≤ (atEnd 5).bufBytes ∧ 8 * 1021 + 12 < 65536 ∧ (vector 7).bufBytes = (atEnd 5).bufBytes := by decide

/-- The last byte inside and the first outside, for `LdbLoadsTheByte` and `StbStoresTheByte`. -/
theorem witness_LdbLoadsTheByte_StbStoresTheByte :
    (1023 : BitVec 16).toNat < (atEnd 5).bufBytes ∧ (atEnd 5).bufBytes ≤ (1024 : BitVec 16).toNat := by decide

/-- The last pair inside and the first outside, for `LdhLoadsTheBigEndianPair`, `SthStoresTheBigEndianPair` and
`BytePairLawsHold`. -/
theorem witness_LdhLoadsTheBigEndianPair_SthStoresTheBigEndianPair_BytePairLawsHold :
    (1022 : BitVec 16).toNat + 2 ≤ (atEnd 5).bufBytes ∧ (1023 : BitVec 16).toNat = (1022 : BitVec 16).toNat + 1 ∧
      (atEnd 5).bufBytes < (1023 : BitVec 16).toNat + 2 := by decide

theorem witness_FieldViewOfAByteIsItsReversal :
    (1023 : BitVec 16).toNat < (atEnd 5).bufBytes ∧ (8184 : BitVec 16).toNat = 8 * (1023 : BitVec 16).toNat := by
  decide

/-- 1.0 is finite and not zero, and the largest integer below 2^24. -/
theorem witness_FloatOperationsRoundToNearestEven :
    IsFinite 0x3F800000 ∧ realValue 0x3F800000 ≠ 0 ∧ 16777215 < 2 ^ 24 := by
  refine ⟨by decide, ?_, by decide⟩
  have he : expField 0x3F800000 = 127 := by decide
  have hf : fraction 0x3F800000 = 0 := by decide
  have hs : sign 0x3F800000 = false := by decide
  norm_num [realValue, signFactor, he, hf, hs]

/-- The last operand in the domain and the first outside, for `S12tofIsExact` and `S16tofRoundsTwice`. -/
theorem witness_S12tofIsExact_S16tofRoundsTwice :
    (vector 4095).acc.toNat ≤ 4095 ∧ 4095 < (vector 4096).acc.toNat ∧ (vector 65535).acc.toNat ≤ 65535 ∧
      65535 < (vector 65536).acc.toNat := by decide

/-- `trunc` of the sum of the two float-to-sample formulas, where the sum is finite. -/
def truncatedSum (scale : Nat) (f : Word32) : Option Int :=
  match FloatFormat.binary32.value (scaledSum .binary32 scale f) with
  | .finite neg units => some (FloatFormat.binary32.truncate neg units)
  | .inf _ => none
  | .nan => none

/-- A NaN, an infinity and a finite operand, for `Ftos12FollowsTheFormula` and `Ftos16FollowsTheFormula`; and the two
products that the clauses speak of: an infinite one and a finite one. -/
theorem witness_Ftos12FollowsTheFormula_Ftos16FollowsTheFormula :
    let F := FloatFormat.binary32
    IsNaN (vector 0x7F800001).acc ∧ IsInfinite (vector 0xFF800000).acc ∧ IsFinite (vector 0x7F7FFFFF).acc ∧
      IsInfinite (F.mul (F.add 0x7F7FFFFF (F.ofNat 1)) (F.ofNat 2048)) ∧
      IsInfinite (F.mul (F.add 0x7F7FFFFF (F.ofNat 1)) (F.ofNat 32767)) ∧
      IsFinite (F.mul (F.add 0x3F800000 (F.ofNat 1)) (F.ofNat 2048)) ∧
      IsFinite (F.mul (F.add 0x3F800000 (F.ofNat 1)) (F.ofNat 32767)) := by decide +kernel

/-- The last operand on either side of each end of the range of `trunc` (42_quantizer.md R113, 95_test_vectors.md 2.4):
below 0, 0, 4096, above 4096. -/
theorem witness_Ftos12FollowsTheFormula_range :
    truncatedSum 2048 (vector 0xBF801800).acc = some (-1) ∧ truncatedSum 2048 (vector 0xBF8017FF).acc = some 0 ∧
      truncatedSum 2048 (vector 0x3F8007FE).acc = some 4096 ∧ truncatedSum 2048 (vector 0x3F8007FF).acc = some 4097 := by
  decide +kernel

/-- The same for FTOS16 (42_quantizer.md R115): below 0, 0, 65535, above 65535. -/
theorem witness_Ftos16FollowsTheFormula_range :
    truncatedSum 32767 (vector 0xBF800181).acc = some (-1) ∧ truncatedSum 32767 (vector 0xBF800180).acc = some 0 ∧
      truncatedSum 32767 (vector 0x3F80017E).acc = some 65535 ∧
      truncatedSum 32767 (vector 0x3F80017F).acc = some 65536 := by decide +kernel

theorem witness_Ftos12CompletesExactlyOnItsPatterns :
    ((vector 0x00000000).acc.toNat ≤ 0x3F8007FE ∨ 0x80000000 ≤ (vector 0x00000000).acc.toNat ∧ (vector 0x00000000).acc.toNat ≤ 0xBF8017FF) ∧
    ((vector 0x3F8007FE).acc.toNat ≤ 0x3F8007FE ∨ 0x80000000 ≤ (vector 0x3F8007FE).acc.toNat ∧ (vector 0x3F8007FE).acc.toNat ≤ 0xBF8017FF) ∧
    ((vector 0x80000000).acc.toNat ≤ 0x3F8007FE ∨ 0x80000000 ≤ (vector 0x80000000).acc.toNat ∧ (vector 0x80000000).acc.toNat ≤ 0xBF8017FF) ∧
    ((vector 0xBF8017FF).acc.toNat ≤ 0x3F8007FE ∨ 0x80000000 ≤ (vector 0xBF8017FF).acc.toNat ∧ (vector 0xBF8017FF).acc.toNat ≤ 0xBF8017FF) ∧
    ¬((vector 0x3F8007FF).acc.toNat ≤ 0x3F8007FE ∨ 0x80000000 ≤ (vector 0x3F8007FF).acc.toNat ∧ (vector 0x3F8007FF).acc.toNat ≤ 0xBF8017FF) ∧
    ¬((vector 0x7FFFFFFF).acc.toNat ≤ 0x3F8007FE ∨ 0x80000000 ≤ (vector 0x7FFFFFFF).acc.toNat ∧ (vector 0x7FFFFFFF).acc.toNat ≤ 0xBF8017FF) ∧
    ¬((vector 0xBF801800).acc.toNat ≤ 0x3F8007FE ∨ 0x80000000 ≤ (vector 0xBF801800).acc.toNat ∧ (vector 0xBF801800).acc.toNat ≤ 0xBF8017FF) ∧
    ¬((vector 0xFFFFFFFF).acc.toNat ≤ 0x3F8007FE ∨ 0x80000000 ≤ (vector 0xFFFFFFFF).acc.toNat ∧ (vector 0xFFFFFFFF).acc.toNat ≤ 0xBF8017FF) := by decide

theorem witness_Ftos16CompletesExactlyOnItsPatterns :
    ((vector 0x00000000).acc.toNat ≤ 0x3F80017E ∨ 0x80000000 ≤ (vector 0x00000000).acc.toNat ∧ (vector 0x00000000).acc.toNat ≤ 0xBF800180) ∧
    ((vector 0x3F80017E).acc.toNat ≤ 0x3F80017E ∨ 0x80000000 ≤ (vector 0x3F80017E).acc.toNat ∧ (vector 0x3F80017E).acc.toNat ≤ 0xBF800180) ∧
    ((vector 0x80000000).acc.toNat ≤ 0x3F80017E ∨ 0x80000000 ≤ (vector 0x80000000).acc.toNat ∧ (vector 0x80000000).acc.toNat ≤ 0xBF800180) ∧
    ((vector 0xBF800180).acc.toNat ≤ 0x3F80017E ∨ 0x80000000 ≤ (vector 0xBF800180).acc.toNat ∧ (vector 0xBF800180).acc.toNat ≤ 0xBF800180) ∧
    ¬((vector 0x3F80017F).acc.toNat ≤ 0x3F80017E ∨ 0x80000000 ≤ (vector 0x3F80017F).acc.toNat ∧ (vector 0x3F80017F).acc.toNat ≤ 0xBF800180) ∧
    ¬((vector 0x7FFFFFFF).acc.toNat ≤ 0x3F80017E ∨ 0x80000000 ≤ (vector 0x7FFFFFFF).acc.toNat ∧ (vector 0x7FFFFFFF).acc.toNat ≤ 0xBF800180) ∧
    ¬((vector 0xBF800181).acc.toNat ≤ 0x3F80017E ∨ 0x80000000 ≤ (vector 0xBF800181).acc.toNat ∧ (vector 0xBF800181).acc.toNat ≤ 0xBF800180) ∧
    ¬((vector 0xFFFFFFFF).acc.toNat ≤ 0x3F80017E ∨ 0x80000000 ≤ (vector 0xFFFFFFFF).acc.toNat ∧ (vector 0xFFFFFFFF).acc.toNat ≤ 0xBF800180) := by decide

theorem witness_ZerosAndSubnormalsAreAbsorbed :
    expField (vector 0x807FFFFF).acc = 0 ∧ expField (vector 0x00000000).acc = 0 := by decide

theorem witness_SampleRoundTripsAreExact :
    (vector 4095).acc.toNat ≤ 4095 ∧ (vector 65535).acc.toNat ≤ 65535 := by decide

/-- For both monotonicity statements; the second admits equal operands. -/
theorem witness_Sample12ToSample16IsStrictlyIncreasing_Sample16ToSample12IsNondecreasing :
    ((vector 4094).acc.toNat < (vector 4095).acc.toNat ∧ (vector 4095).acc.toNat ≤ 4095) ∧
      (vector 65525).acc.toNat ≤ (vector 65526).acc.toNat ∧ (vector 65526).acc.toNat ≤ 65535 := by decide

theorem witness_FullScaleWrapsToZero :
    0x3F7FEFFF ≤ (atEnd 0x3F7FEFFF).acc.toNat ∧ (atEnd 0x3F8007FE).acc.toNat ≤ 0x3F8007FE ∧
      (atEnd 0x3F7FEFFF).acc.toNat ≤ 0x3F8007FE ∧
      (8180 : BitVec 16).toNat + 12 ≤ 8 * (atEnd 0x3F7FEFFF).bufBytes := by decide

/-- A command that stores nothing: one that completes, and one that faults. -/
theorem witness_CommandsThatStoreNothingKeepBuf :
    (∃ t, exec (.ldb 5) (vector 7) = .next t) ∧ (∃ t, exec (.ldb 1024) (vector 7) = .next t) ∧
      (∀ a, Instr.ldb 5 ≠ .wrbit a) ∧ (∀ a w, Instr.ldb 5 ≠ .wrfld a w) ∧ (∀ a, Instr.ldb 5 ≠ .stb a) ∧
      (∀ a, Instr.ldb 5 ≠ .sth a) ∧ (∀ a, Instr.ldb 1024 ≠ .wrbit a) ∧ (∀ a w, Instr.ldb 1024 ≠ .wrfld a w) ∧
      (∀ a, Instr.ldb 1024 ≠ .stb a) ∧ (∀ a, Instr.ldb 1024 ≠ .sth a) :=
  ⟨⟨_, rfl⟩, ⟨_, rfl⟩, nofun, nofun, nofun, nofun, nofun, nofun, nofun, nofun⟩

/-- One form for each clause, and for the clauses on stored bytes an address outside them. -/
theorem witness_StoringCommandsKeepTheOtherBytes :
    (∃ t, exec (.wrbit 47) (vector 7) = .next t) ∧ 4 ≠ addressOf 47 / 8 ∧
      (∃ t, exec (.wrfld 12 12) (vector 7) = .next t) ∧ (∀ j < widthOf 12, 0 ≠ (addressOf 12 + j) / 8) ∧
      (∃ t, exec (.stb 5) (vector 7) = .next t) ∧ 4 ≠ addressOf 5 ∧
      (∃ t, exec (.sth 4) (vector 7) = .next t) ∧ 3 ≠ addressOf 4 ∧ 3 ≠ addressOf 4 + 1 :=
  ⟨⟨_, rfl⟩, by decide, ⟨_, rfl⟩, by decide, ⟨_, rfl⟩, by decide, ⟨_, rfl⟩, by decide, by decide⟩

theorem witness_M2nConvertsModemBytesToNetworkBytes :
    (vector 7).st = 0 ∧ m2nPre (vector 7).cfg 0 3 3 = true ∧ m2nPre (vector 7).cfg 769 429 255 = true ∧ 1 < 2 * 3 / 3 := by
  decide

theorem witness_N2mConvertsNetworkBytesToModemBytes :
    (vector 7).st = 0 ∧ n2mPre (vector 7).cfg 0 2 2 = true ∧ n2mPre (vector 7).cfg 754 551 270 = true ∧
      134 < readModemCount (vector 7).cfg 270 := by decide

/-- The smallest and the largest buffer. -/
theorem witness_BridgeCallsExpandExactlyUnderTheirPreconditions :
    (3 ≤ (Config.ofSize 3).bufBytes ∧ (Config.ofSize 3).bufBytes ≤ 8192) ∧
      (3 ≤ (Config.ofSize 8192).bufBytes ∧ (Config.ofSize 8192).bufBytes ≤ 8192) ∧ 0 < 2 := by decide

end Sys2Proof.Tests
end

section
/-! The laws of the encoder that the fault record rests on (30_encoding.md R64, R65): the word that a fault records,
`encode i`, is the word presented. -/

namespace Sys2Proof

/-- An `OP` value that selects a command is that command's `OP` value (R64). -/
theorem Mnemonic.op_of_ofOp {op : BitVec 8} {m : Mnemonic} (h : ofOp op = some m) : m.op = op := by
  unfold ofOp at h
  split at h <;> cases h <;> exact BitVec.eq_of_toNat_eq (Eq.symm ‹_›)

/-- Where the must-be-zero fields are zero, the command's word has the four fields it was built from. -/
theorem encode_build {m : Mnemonic} {w : CommandWord} (h : mbzZero m w = true) :
    encode (m.build (CommandWord.wField w) (CommandWord.aField w) (CommandWord.dField w)) =
      CommandWord.ofFields m.op (CommandWord.wField w) (CommandWord.aField w) (CommandWord.dField w) := by
  cases m <;> simp [mbzZero, Mnemonic.usesW, Mnemonic.usesA, Mnemonic.usesD] at h <;>
    simp [Mnemonic.build, encode, Instr.mnemonic, Instr.wOperand, Instr.aOperand, Instr.dOperand, h]

/-- Encoding what a word decodes to gives the word back. -/
theorem encode_of_decode {w : CommandWord} {i : Instr} (h : decode w = .ok i) : encode i = w := by
  obtain ⟨-, hw⟩ | ⟨m, -, -, hw⟩ | ⟨m, hop, hmbz, hw⟩ := decode_cases w <;> rw [hw] at h <;> cases h
  rw [encode_build hmbz, Mnemonic.op_of_ofOp hop, CommandWord.ofFields_fields]

end Sys2Proof
end

section
/-! What an effect of a command leaves unchanged, clause by clause of the invariant, and the outcomes of a command. -/

namespace Sys2Proof.Machine

open Sys2Proof.Safety

theorem FaultCause.code_ne_zero (cause : FaultCause) : cause.code ≠ 0 := by
  cases cause <;> decide

namespace State

@[simp] theorem writeBytes_st (s : State) (a : Nat) (vs : List Byte) : (s.writeBytes a vs).st = s.st := by
  rw [writeBytes_eq]
@[simp] theorem writeBytes_fcmd (s : State) (a : Nat) (vs : List Byte) : (s.writeBytes a vs).fcmd = s.fcmd := by
  rw [writeBytes_eq]
@[simp] theorem writeBytes_ctrl (s : State) (a : Nat) (vs : List Byte) : (s.writeBytes a vs).ctrl = s.ctrl := by
  rw [writeBytes_eq]
@[simp] theorem writeBytes_bufBytes (s : State) (a : Nat) (vs : List Byte) :
    (s.writeBytes a vs).bufBytes = s.bufBytes := by
  rw [writeBytes_eq]
@[simp] theorem writeBytes_responses (s : State) (a : Nat) (vs : List Byte) :
    (s.writeBytes a vs).responses = s.responses := by
  rw [writeBytes_eq]
@[simp] theorem fieldWrite_responses (s : State) (a : Nat) (v : Word32) (n : Nat) :
    (s.fieldWrite a v n).responses = s.responses := by
  rw [fieldWrite_eq]

/-- A fault on a block that is not halted leaves the one bit of its cause in `ST` (60_exceptions.md R165). -/
theorem respond_raise {s : State} (h : s.st = 0) (cause : FaultCause) (w : CommandWord) :
    (s.raise cause w).respond = { s with
      st := cause.code, fcmd := w, responses := s.responses ++ [{ racc := s.acc, rst := cause.code }] } := by
  simp [respond, response, raise, h]

end State

/-- `CTRL` written from one bit has its upper seven bits zero (10_state.md R27). -/
theorem ctrlOfEn_toNat_le (en : BitVec 1) : (ctrlOfEn en).toNat ≤ 1 := by
  have table : ∀ b : BitVec 1, (ctrlOfEn b).toNat ≤ 1 := by decide
  exact table en

namespace Effect

variable {i : Instr} {s t : State}

/-- An effect is the fault entry for the cause that the cause table names, or it keeps the fault record. -/
theorem faults_or_keeps_record (he : Effect i s t) :
    (∃ cause, faultOf s.cfg s.acc i = some cause ∧ t = s.raise cause (encode i)) ∨
      (t.st = s.st ∧ t.fcmd = s.fcmd) := by
  cases he with
  | fault cause hf => exact .inl ⟨cause, hf, rfl⟩
  | nothing | acc | enable | bit => exact .inr ⟨rfl, rfl⟩
  | field | bytes => exact .inr (by simp)

/-- No effect returns a response of its own. -/
theorem responses_eq (he : Effect i s t) : t.responses = s.responses := by
  cases he with
  | fault | nothing | acc | enable | bit => rfl
  | field | bytes => simp

/-- No effect writes the parameter. -/
theorem bufBytes_eq (he : Effect i s t) : t.bufBytes = s.bufBytes := by
  cases he with
  | fault | nothing | acc | enable | bit => rfl
  | field | bytes => simp

theorem buf_wf (he : Effect i s t) (h : s.buf.wf) : t.buf.wf := by
  cases he with
  | fault | nothing | acc | enable => exact h
  | bit b x => exact State.bitWrite_wf b x h
  | field a n => exact State.fieldWrite_wf a _ n h
  | bytes a vs => exact State.writeBytes_wf a vs h

/-- The range tests of the writing commands are what keeps the listed cells inside `BUF`. -/
theorem buf_inside (he : Effect i s t) (h : ∀ c ∈ s.buf, c.1 < s.bufBytes) : ∀ c ∈ t.buf, c.1 < s.bufBytes := by
  intro c hc
  cases he with
  | fault | nothing | acc | enable => exact h c hc
  | bit b x hb =>
    obtain rfl | hc := Memory.mem_set hc
    · simp only; omega
    · exact h c hc
  | field a n hn =>
    obtain hc | ⟨j, hj, hcj⟩ := State.mem_fieldWrite hc
    · exact h c hc
    · omega
  | bytes a vs hn =>
    obtain hc | ⟨-, hlt⟩ := State.mem_writeBytes hc
    · exact h c hc
    · omega

theorem ctrl_le (he : Effect i s t) (h : s.ctrl.toNat ≤ 1) : t.ctrl.toNat ≤ 1 := by
  cases he with
  | fault | nothing | acc | bit => exact h
  | enable en => exact ctrlOfEn_toNat_le en
  | field | bytes => simpa using h

end Effect

/-- Only a legal word on a block that is not halted leaves the block not halted (60_exceptions.md R161, R167). -/
theorem legal_of_command_unhalted {w : CommandWord} {s t : State} (hc : command w s = .next t) (ht : t.st = 0) :
    s.st = 0 ∧ ∃ i, decode w = .ok i := by
  obtain ⟨hst, he⟩ | ⟨hst, why, -, he⟩ | ⟨hst, i, u, hi, -, -⟩ := command_cases w s
  · cases he.symm.trans hc
    exact absurd ht hst
  · cases he.symm.trans hc
    rw [State.respond_raise hst] at ht
    exact absurd ht FaultCause.illegalCommand.code_ne_zero
  · exact ⟨hst, i, hi⟩

end Sys2Proof.Machine
end

section
/-! The invariant of the machine: it holds after reset and every step keeps it. -/

namespace Sys2Proof.Safety

open Sys2Proof.Machine

/-- An unhalted block whose fault record is true has recorded no word. -/
theorem FaultExplained.fcmd_eq_zero {s : State} (h : FaultExplained s) (hst : s.st = 0) : s.fcmd = 0 := by
  obtain ⟨-, hf⟩ | ⟨hill, -⟩ | ⟨-, cause, -, -, hcode⟩ := h
  · exact hf
  · rw [hill] at hst; exact absurd hst (by decide)
  · exact absurd (hcode.symm.trans hst) cause.code_ne_zero

namespace Inv

variable {i : Instr} {s t : State} {w : CommandWord}

/-- A block of a legal size whose registers are zero and whose `BUF` is unknown meets the invariant. -/
theorem of_cleared (hsize : s.cfg.wellFormed = true) (hbuf : s.buf = []) (hctrl : s.ctrl = 0) (hst : s.st = 0)
    (hfcmd : s.fcmd = 0) : Inv s where
  config := hsize
  memory := by simp [hbuf]
  inside := by simp [hbuf]
  enable := by simp [hctrl]
  record := .inl ⟨hst, hfcmd⟩

theorem reset : Inv State.reset :=
  of_cleared ((State.cfg_wellFormed _).2 (by decide)) rfl rfl rfl rfl

/-- The invariant speaks of the block only, not of the moves and responses outside it. -/
theorem with_interface (h : Inv s) (moves : List HostMove) (rs : List Response) :
    Inv { s with pending := moves, responses := rs } :=
  ⟨h.config, h.memory, h.inside, h.enable, h.record⟩

theorem respond (h : Inv s) : Inv s.respond := h.with_interface s.pending _

theorem takeReset (h : Inv s) : Inv s.takeReset := of_cleared h.config rfl rfl rfl rfl

/-- An illegal word records itself under `ILL` (60_exceptions.md R161, R168). -/
theorem raise_illegal (h : Inv s) (hst : s.st = 0) {why : IllegalWord} (hw : decode w = .error why) :
    Inv (s.raise .illegalCommand w) where
  config := h.config
  memory := h.memory
  inside := h.inside
  enable := h.enable
  record := .inr (.inl ⟨by simp [hst, FaultCause.code], why, hw⟩)

/-- The fault record stays true: a fault records the presented word and its cause, on an `ACC` and a buffer size that
the fault entry does not change; and where there is no fault the record stays empty. -/
theorem record_of_effect (h : Inv s) (hst : s.st = 0) (hw : decode w = .ok i) (he : Effect i s t) :
    FaultExplained t := by
  obtain ⟨cause, hcause, rfl⟩ | ⟨hkeepSt, hkeepFcmd⟩ := he.faults_or_keeps_record
  · have hpresented : decode (encode i) = .ok i := by rw [encode_of_decode hw, hw]
    exact .inr (.inr ⟨i, cause, hpresented, hcause, by simp [hst]⟩)
  · exact .inl ⟨hkeepSt.trans hst, hkeepFcmd.trans (h.record.fcmd_eq_zero hst)⟩

/-- The effect of a legal word on a block that is not halted keeps the invariant. -/
theorem of_effect (h : Inv s) (hst : s.st = 0) (hw : decode w = .ok i) (he : Effect i s t) : Inv t where
  config := State.cfg_congr he.bufBytes_eq ▸ h.config
  memory := he.buf_wf h.memory
  inside := he.bufBytes_eq ▸ he.buf_inside h.inside
  enable := he.ctrl_le h.enable
  record := h.record_of_effect hst hw he

theorem of_command (h : Inv s) (hc : command w s = .next t) : Inv t := by
  obtain ⟨-, he⟩ | ⟨hst, why, hw, he⟩ | ⟨hst, i, u, hw, heff, he⟩ := command_cases w s <;> cases he.symm.trans hc
  · exact h.respond
  · exact (h.raise_illegal hst hw).respond
  · exact (h.of_effect hst hw heff).respond

/-- A step is idle, a command word or a reset, taken with the move removed from those pending. -/
theorem of_step (h : Inv s) (hs : step s = .next t) : Inv t := by
  match hp : s.pending with
  | [] =>
    cases (step_idle hp).symm.trans hs
    exact h
  | .command w :: rest => exact (h.with_interface rest s.responses).of_command ((step_command hp).symm.trans hs)
  | .reset :: rest =>
    cases (step_reset hp).symm.trans hs
    exact (h.with_interface rest s.responses).takeReset

end Inv

/-! ### Successful runs (00_scope.md R12) -/

/-- A run that is successful goes on from the state the first word leads to. -/
theorem successfulRun_cons {w : CommandWord} {ws : List CommandWord} {s t : State} :
    SuccessfulRun (w :: ws) s t ↔ ∃ u, command w s = .next u ∧ SuccessfulRun ws u t := by
  unfold SuccessfulRun
  rw [runWords]
  cases command w s <;> simp

/-- A successful run starts unhalted, since a halted block stays halted (60_exceptions.md R167). -/
theorem SuccessfulRun.start_unhalted {ws : List CommandWord} {s t : State} (h : SuccessfulRun ws s t) : s.st = 0 := by
  induction ws generalizing s with
  | nil =>
    obtain ⟨hrun, ht⟩ := h
    cases hrun
    exact ht
  | cons w ws ih =>
    obtain ⟨u, hc, hu⟩ := successfulRun_cons.1 h
    exact (legal_of_command_unhalted hc (ih hu)).1

theorem SuccessfulRun.words_legal {ws : List CommandWord} {s t : State} (h : SuccessfulRun ws s t) :
    ∀ w ∈ ws, ∃ i, decode w = .ok i := by
  induction ws generalizing s with
  | nil => simp
  | cons w ws ih =>
    obtain ⟨u, hc, hu⟩ := successfulRun_cons.1 h
    exact List.forall_mem_cons.2 ⟨(legal_of_command_unhalted hc hu.start_unhalted).2, ih hu⟩

/-- A successful run can be cut at any point. -/
theorem SuccessfulRun.split {ws ws' : List CommandWord} {s t : State} (h : SuccessfulRun (ws ++ ws') s t) :
    ∃ u, SuccessfulRun ws s u ∧ SuccessfulRun ws' u t := by
  induction ws generalizing s with
  | nil => exact ⟨s, ⟨rfl, h.start_unhalted⟩, h⟩
  | cons w ws ih =>
    obtain ⟨v, hc, hv⟩ := successfulRun_cons.1 h
    obtain ⟨u, hu, hu'⟩ := ih hv
    exact ⟨u, successfulRun_cons.2 ⟨v, hc, hu⟩, hu'⟩

end Sys2Proof.Safety
end

section
/-! The statements of 00_scope.md. -/

namespace Sys2Proof.Proofs

open Sys2Proof.Machine Sys2Proof.Safety

/-- Settles O9: a move is idle, a word or a reset, and each keeps the five clauses of the invariant. -/
theorem everyStepKeepsTheInvariant : Obligations.EveryStepKeepsTheInvariant :=
  fun _ _ hinv hstep => hinv.of_step hstep

/-- Settles O7, by the cases of R164: halted, an illegal word, a legal word that faults, a legal word that completes. -/
theorem commandCompletesFaultsOrIsIgnored : Obligations.CommandCompletesFaultsOrIsIgnored := by
  intro w s
  obtain ⟨hst, hc⟩ | ⟨hst, why, -, hc⟩ | ⟨hst, i, t, hw, he, hc⟩ := command_cases w s
  · exact ⟨_, hc, .inr (.inr ⟨hst, rfl⟩)⟩
  · rw [State.respond_raise hst] at hc
    exact ⟨_, hc, .inr (.inl ⟨hst, FaultCause.illegalCommand.code_ne_zero, _, rfl⟩)⟩
  · obtain ⟨cause, -, rfl⟩ | ⟨hkeepSt, hkeepFcmd⟩ := he.faults_or_keeps_record
    · rw [State.respond_raise hst, encode_of_decode hw] at hc
      exact ⟨_, hc, .inr (.inl ⟨hst, cause.code_ne_zero, cause, rfl⟩)⟩
    · exact ⟨_, hc, .inl ⟨hst, hkeepSt.trans hst, hkeepFcmd,
        congrArg (· ++ [t.response]) he.responses_eq⟩⟩

/-- Settles O12: a run that ends unhalted was never halted, so every word of it was legal. -/
theorem successfulRunIsSuccessfulThroughout : Obligations.SuccessfulRunIsSuccessfulThroughout :=
  fun _ _ _ _ hrun => ⟨hrun.split, hrun.words_legal⟩

/-- Settles O8: `BUF_BYTES` is 1024, every register is zero and no byte of `BUF` is known. -/
theorem resetStateMeetsTheInvariant : Obligations.ResetStateMeetsTheInvariant := Inv.reset

end Sys2Proof.Proofs
end

section
/-! What each command writes, and that neither `CTRL` nor the moves not yet taken have a part in it (10_state.md R20,
R27). -/

namespace Sys2Proof.Machine

open Sys2Proof.Safety

/-- The state with other values in the two places that no command reads: `CTRL` (R27), and the moves not yet taken. -/
def State.withUnread (s : State) (ctrl : BitVec 8) (moves : List HostMove) : State :=
  { s with ctrl := ctrl, pending := moves }

/-- A field write goes past the places it does not read. -/
theorem State.fieldWrite_withUnread (s : State) (ctrl : BitVec 8) (moves : List HostMove) (a : Nat) (v : Word32)
    (n : Nat) :
    (s.withUnread ctrl moves).fieldWrite a v n = (s.fieldWrite a v n).withUnread ctrl moves := by
  induction n with
  | zero => rfl
  | succ n ih => rw [fieldWrite_succ, ih]; rfl

/-- What a command can write, by the command: where `Effect` says that something is written, this says by which command
and at which address. -/
inductive Update : Instr → Type where
  | fault {i : Instr} (cause : FaultCause) : Update i
  | nothing {i : Instr} : Update i
  | acc {i : Instr} (hi : i ≠ .nop ∧ i ≠ .tick ∧ i ≠ .seten) (v : Word32) : Update i
  | enable (en : BitVec 1) : Update .seten
  | bit (a : BitVec 16) (x : Bool) : Update (.wrbit a)
  | field (a : BitVec 16) (w : BitVec 8) (v : Word32) : Update (.wrfld a w)
  | byte (a : BitVec 16) (v : Byte) : Update (.stb a)
  | pair (a : BitVec 16) (v : BitVec 16) : Update (.sth a)

namespace Update

variable {i : Instr}

/-- The state after the write. -/
def apply (s : State) : Update i → State
  | fault cause => s.raise cause (encode i)
  | nothing => s
  | acc _ v => s.setAcc v
  | enable en => s.setCtrl (ctrlOfEn en)
  | bit a x => s.bitWrite (addressOf a) x
  | field a w v => s.fieldWrite (addressOf a) v (widthOf w)
  | byte a v => s.writeBytes (addressOf a) [v]
  | pair a v => s.writeBytes (addressOf a) (sample16Bytes .bigEndian v)

/-- `CTRL` after the write, as it depends on `CTRL` before. -/
def ctrlAfter : Update i → BitVec 8 → BitVec 8
  | enable en, _ => ctrlOfEn en
  | fault _, ctrl | nothing, ctrl | acc _ _, ctrl | bit _ _, ctrl | field _ _ _, ctrl | byte _ _, ctrl
  | pair _ _, ctrl => ctrl

/-- A write leaves the moves as they are, and what it does to `CTRL` has no part in the rest. -/
theorem apply_withUnread (u : Update i) (s : State) (ctrl : BitVec 8) (moves : List HostMove) :
    u.apply (s.withUnread ctrl moves) = (u.apply s).withUnread (u.ctrlAfter ctrl) moves := by
  cases u with
  | fault | nothing | acc | enable | bit | byte | pair => rfl
  | field a w v => exact s.fieldWrite_withUnread ctrl moves _ v _

end Update

/-- The meaning of a command is one `Update`, the same whatever `CTRL` and the moves not yet taken are. -/
theorem exec_update (i : Instr) (s : State) :
    ∃ u : Update i, ∀ ctrl moves, exec i (s.withUnread ctrl moves) = .next (u.apply (s.withUnread ctrl moves)) := by
  cases i with
  | nop | tick => exact ⟨.nothing, fun _ _ => rfl⟩
  | ldi d => exact ⟨.acc ⟨nofun, nofun, nofun⟩ d, fun _ _ => rfl⟩
  | seten => exact ⟨.enable s.accBit, fun _ _ => rfl⟩
  | rdbit a =>
    rcases Nat.lt_or_ge a.toNat (8 * s.bufBytes) with h | h
    · exact ⟨.acc ⟨nofun, nofun, nofun⟩ ((BitVec.ofBool (s.bitRead a.toNat)).setWidth 32),
        fun _ _ => execRdbit_inside h⟩
    · exact ⟨.fault .outOfRange, fun _ _ => execRdbit_outside h⟩
  | wrbit a =>
    rcases Nat.lt_or_ge a.toNat (8 * s.bufBytes) with h | h
    · exact ⟨.bit a (s.accBit == 1), fun _ _ => execWrbit_inside h⟩
    · exact ⟨.fault .outOfRange, fun _ _ => execWrbit_outside h⟩
  | rdfld a w =>
    by_cases hw : 1 ≤ w.toNat ∧ w.toNat ≤ 32
    · rcases Nat.lt_or_ge (8 * s.bufBytes) (a.toNat + w.toNat) with h | h
      · exact ⟨.fault .outOfRange, fun _ _ => execRdfld_outside hw h⟩
      · refine ⟨.acc ⟨nofun, nofun, nofun⟩ (s.fieldRead a.toNat w.toNat), fun ctrl moves => ?_⟩
        have hread := State.fieldRead_congr (s := s) (t := s.withUnread ctrl moves) rfl rfl a.toNat w.toNat
        exact hread ▸ execRdfld_inside (s := s.withUnread ctrl moves) hw h
    · exact ⟨.fault .widthFault, fun _ _ => execRdfld_width hw⟩
  | wrfld a w =>
    by_cases hw : 1 ≤ w.toNat ∧ w.toNat ≤ 32
    · rcases Nat.lt_or_ge (8 * s.bufBytes) (a.toNat + w.toNat) with h | h
      · exact ⟨.fault .outOfRange, fun _ _ => execWrfld_outside hw h⟩
      · exact ⟨.field a w s.acc, fun _ _ => execWrfld_inside hw h⟩
    · exact ⟨.fault .widthFault, fun _ _ => execWrfld_width hw⟩
  | ldb a =>
    rcases Nat.lt_or_ge a.toNat s.bufBytes with h | h
    · exact ⟨.acc ⟨nofun, nofun, nofun⟩ ((s.readByte a.toNat).setWidth 32), fun _ _ => execLdb_inside h⟩
    · exact ⟨.fault .outOfRange, fun _ _ => execLdb_outside h⟩
  | stb a =>
    rcases Nat.lt_or_ge a.toNat s.bufBytes with h | h
    · exact ⟨.byte a s.accByte, fun _ _ => execStb_inside h⟩
    · exact ⟨.fault .outOfRange, fun _ _ => execStb_outside h⟩
  | ldh a =>
    rcases Nat.lt_or_ge s.bufBytes (a.toNat + 2) with h | h
    · exact ⟨.fault .outOfRange, fun _ _ => execLdh_outside h⟩
    · exact ⟨.acc ⟨nofun, nofun, nofun⟩ ((s.readByte a.toNat ++ s.readByte (a.toNat + 1)).setWidth 32),
        fun _ _ => execLdh_inside h⟩
  | sth a =>
    rcases Nat.lt_or_ge s.bufBytes (a.toNat + 2) with h | h
    · exact ⟨.fault .outOfRange, fun _ _ => execSth_outside h⟩
    · exact ⟨.pair a s.accSample16, fun _ _ => execSth_inside h⟩
  | s12tof =>
    rcases Nat.lt_or_ge 4095 s.acc.toNat with h | h
    · exact ⟨.fault .domain, fun _ _ => execS12tof_outside h⟩
    · exact ⟨.acc ⟨nofun, nofun, nofun⟩ (sample12ToFloat s.cfg s.acc.toNat), fun _ _ => execS12tof_inside h⟩
  | ftos12 =>
    cases h : floatToSample12 s.cfg s.acc with
    | none => exact ⟨.fault .domain, fun _ _ => execFtos12_none h⟩
    | some v => exact ⟨.acc ⟨nofun, nofun, nofun⟩ (BitVec.ofNat 32 v), fun _ _ => execFtos12_some h⟩
  | s16tof =>
    rcases Nat.lt_or_ge 65535 s.acc.toNat with h | h
    · exact ⟨.fault .domain, fun _ _ => execS16tof_outside h⟩
    · exact ⟨.acc ⟨nofun, nofun, nofun⟩ (sample16ToFloat s.cfg s.acc.toNat), fun _ _ => execS16tof_inside h⟩
  | ftos16 =>
    cases h : floatToSample16 s.cfg s.acc with
    | none => exact ⟨.fault .domain, fun _ _ => execFtos16_none h⟩
    | some v => exact ⟨.acc ⟨nofun, nofun, nofun⟩ (BitVec.ofNat 32 v), fun _ _ => execFtos16_some h⟩

/-- `exec` answering `t` means that `t` is the state after an `Update` of the command. -/
theorem update_of_exec {i : Instr} {s t : State} (h : exec i s = .next t) : ∃ u : Update i, t = u.apply s := by
  obtain ⟨u, hu⟩ := exec_update i s
  cases h.symm.trans (hu s.ctrl s.pending)
  exact ⟨u, rfl⟩

/-- A command word leaves the moves not yet taken, and the `CTRL` it finds has a part in the `CTRL` it leaves only. -/
theorem command_withUnread (w : CommandWord) (s : State) :
    ∃ (t : State) (f : BitVec 8 → BitVec 8), ∀ ctrl moves,
      command w (s.withUnread ctrl moves) = .next (t.withUnread (f ctrl) moves) := by
  by_cases hst : s.st = 0
  · cases hw : decode w with
    | error why =>
      exact ⟨(s.raise .illegalCommand w).respond, id, fun ctrl moves =>
        command_illegal (s := s.withUnread ctrl moves) hst hw⟩
    | ok i =>
      obtain ⟨u, hu⟩ := exec_update i s
      refine ⟨(u.apply s).respond, u.ctrlAfter, fun ctrl moves => ?_⟩
      rw [command_legal (s := s.withUnread ctrl moves) hst hw, hu, u.apply_withUnread]; rfl
  · exact ⟨s.respond, id, fun ctrl moves => command_halted (s := s.withUnread ctrl moves) hst w⟩

/-- The `CTRL` that a step finds has a part in the `CTRL` it leaves only. -/
theorem step_setCtrl (s : State) :
    ∃ (t : State) (f : BitVec 8 → BitVec 8), ∀ ctrl, step (s.setCtrl ctrl) = .next (t.setCtrl (f ctrl)) := by
  match hp : s.pending with
  | [] => exact ⟨s, id, fun ctrl => step_idle (s := s.setCtrl ctrl) hp⟩
  | .command w :: rest =>
    obtain ⟨t, f, hc⟩ := command_withUnread w s
    exact ⟨{ t with pending := rest }, f, fun ctrl => (step_command (s := s.setCtrl ctrl) hp).trans (hc ctrl rest)⟩
  | .reset :: rest =>
    exact ⟨State.takeReset { s with pending := rest }, fun _ => 0, fun ctrl => step_reset (s := s.setCtrl ctrl) hp⟩

/-- A run whose first step is known. -/
theorem run_succ_of_step {s t : State} (n : Nat) (h : step s = .next t) :
    Host.Core.run core (n + 1) s = Host.Core.run core n t := by
  have hcore : core.step s = .next t := h
  simp only [Host.Core.run, hcore]

/-- A fold over words of which the first one's effect is known. -/
theorem runWords_cons_of_command {w : CommandWord} {s t : State} (ws : List CommandWord) (h : command w s = .next t) :
    runWords (w :: ws) s = runWords ws t := by
  rw [runWords, h]

/-- An effect keeps the fault record, or it is the fault entry for the cause of the cause table, which keeps `ACC`
(60_exceptions.md R165). -/
theorem Effect.record_frame {i : Instr} {s t : State} (he : Effect i s t) :
    (t.st = s.st ∧ t.fcmd = s.fcmd) ∨
      (t.acc = s.acc ∧ t.fcmd = encode i ∧
        ∃ cause, faultOf s.cfg s.acc i = some cause ∧ t.st = s.st ||| cause.code) := by
  obtain ⟨cause, hcause, rfl⟩ | hkeep := he.faults_or_keeps_record
  · exact .inr ⟨rfl, rfl, cause, hcause, rfl⟩
  · exact .inl hkeep

end Sys2Proof.Machine
end

section
/-! The statements of 10_state.md. -/

namespace Sys2Proof.Proofs

open Sys2Proof.Machine

/-- Settles O10, by induction on the words: a step takes the first word off the moves, and its command does not see the
rest of them. -/
theorem stepsOverPendingWordsAreTheFold : Obligations.StepsOverPendingWordsAreTheFold := by
  intro ws
  induction ws with
  | nil => exact fun _ => rfl
  | cons w ws ih =>
    intro s
    obtain ⟨t, f, hc⟩ := command_withUnread w s
    have hstep : step { s with pending := (w :: ws).map .command } =
        .next (t.withUnread (f s.ctrl) (ws.map .command)) :=
      (step_command rfl).trans (hc s.ctrl _)
    have hword : command w { s with pending := [] } = .next (t.withUnread (f s.ctrl) []) := hc s.ctrl []
    have hrest := ih (t.withUnread (f s.ctrl) (ws.map .command))
    exact (run_succ_of_step ws.length hstep).trans (hrest.trans (runWords_cons_of_command ws hword).symm)

/-- Settles O27, by induction on the steps: each leads from states that differ in `CTRL` only to such states. -/
theorem enableFlagChangesNoResponse : Obligations.EnableFlagChangesNoResponse := by
  intro n
  induction n with
  | zero =>
    intro s t c hrun
    cases hrun
    exact ⟨c, rfl⟩
  | succ n ih =>
    intro s t c hrun
    obtain ⟨u, f, hstep⟩ := step_setCtrl s
    have hfirst := run_succ_of_step n (hstep s.ctrl)
    obtain ⟨c', hc'⟩ := ih _ t (f c) (hfirst.symm.trans hrun)
    exact ⟨c', (run_succ_of_step n (hstep c)).trans hc'⟩

/-- Settles O55, by what a command can write: the four writes of `BUF` belong to the four commands shut out. -/
theorem commandsThatStoreNothingKeepBuf : Obligations.CommandsThatStoreNothingKeepBuf := by
  intro i s t h hwrbit hwrfld hstb hsth
  have hrecord := (effect_of_exec h).record_frame
  obtain ⟨u, rfl⟩ := update_of_exec h
  cases u with
  | fault | nothing => exact ⟨fun _ => rfl, rfl, rfl, rfl, rfl, .inl rfl, .inl rfl, hrecord⟩
  | acc hi => exact ⟨fun _ => rfl, rfl, rfl, rfl, rfl, .inl rfl, .inr hi, hrecord⟩
  | enable => exact ⟨fun _ => rfl, rfl, rfl, rfl, rfl, .inr rfl, .inl rfl, hrecord⟩
  | bit a => exact absurd rfl (hwrbit a)
  | field a w => exact absurd rfl (hwrfld a w)
  | byte a => exact absurd rfl (hstb a)
  | pair a => exact absurd rfl (hsth a)

/-- Settles O6: no move is taken. -/
theorem stepWithoutAMoveChangesNothing : Obligations.StepWithoutAMoveChangesNothing :=
  fun _ hpending => step_idle hpending

end Sys2Proof.Proofs
end

section
/-! Which bytes of `BUF` a command stores to, and the two views of one byte (20_memory.md R44, R46, R47). -/

namespace Sys2Proof.Machine

namespace State

@[simp] theorem writeBytes_draw (s : State) (a : Nat) (vs : List Byte) : (s.writeBytes a vs).draw = s.draw := by
  rw [writeBytes_eq]
@[simp] theorem writeBytes_acc (s : State) (a : Nat) (vs : List Byte) : (s.writeBytes a vs).acc = s.acc := by
  rw [writeBytes_eq]
@[simp] theorem writeBytes_pending (s : State) (a : Nat) (vs : List Byte) :
    (s.writeBytes a vs).pending = s.pending := by
  rw [writeBytes_eq]
@[simp] theorem fieldWrite_pending (s : State) (a : Nat) (v : Word32) (n : Nat) :
    (s.fieldWrite a v n).pending = s.pending := by
  rw [fieldWrite_eq]

/-- A write of bytes leaves every byte before and after them. -/
theorem readByte_writeBytes_outside (s : State) (a : Nat) (vs : List Byte) {i : Nat}
    (h : i < a ∨ a + vs.length ≤ i) : (s.writeBytes a vs).readByte i = s.readByte i := by
  rw [readByte_writeBytes, dif_neg (by omega)]

/-- The field of the eight bits of a byte is the byte reversed: bit-in-byte index 0 is the most significant bit of the
byte and the least significant bit of the field (20_memory.md R40, R41, R44). -/
theorem fieldRead_byte (s : State) (i : Nat) : s.fieldRead (8 * i) 8 = (s.readByte i).reverse.setWidth 32 := by
  refine BitVec.eq_of_getLsbD_eq fun j hj => ?_
  rw [fieldRead_getLsbD _ _ (by decide), BitVec.getLsbD_setWidth, BitVec.getLsbD_reverse, BitVec.getMsbD]
  by_cases h8 : j < 8
  · have hbyte : (8 * i + j) / 8 = i := by omega
    have hindex : 7 - (8 * i + j) % 8 = 8 - 1 - j := by omega
    rw [bitRead_eq_getLsbD, hbyte, hindex, decide_eq_true hj, Bool.true_and]
  · simp [h8]

end State

/-- The byte `k` of `BUF` is one that the command stores to. -/
def StoresTo : Instr → Nat → Prop
  | .wrbit a, k => k = addressOf a / 8
  | .wrfld a w, k => ∃ j < widthOf w, k = (addressOf a + j) / 8
  | .stb a, k => k = addressOf a
  | .sth a, k => k = addressOf a ∨ k = addressOf a + 1
  | .nop, _ | .ldi _, _ | .seten, _ | .tick, _ | .rdbit _, _ | .rdfld _ _, _ | .ldb _, _ | .ldh _, _
  | .s12tof, _ | .ftos12, _ | .s16tof, _ | .ftos16, _ => False

/-- The four commands that store (20_memory.md R46). -/
def IsStore (i : Instr) : Prop :=
  (∃ a, i = .wrbit a) ∨ (∃ a w, i = .wrfld a w) ∨ (∃ a, i = .stb a) ∨ (∃ a, i = .sth a)

/-- What a command writes leaves every byte that the command does not store to. -/
theorem Update.readByte_apply {i : Instr} (u : Update i) (s : State) {k : Nat} (hk : ¬StoresTo i k) :
    (u.apply s).readByte k = s.readByte k := by
  cases u with
  | fault | nothing | acc | enable => rfl
  | bit a x => exact s.readByte_bitWrite_ne x hk
  | field a w v => exact s.readByte_fieldWrite_outside _ v _ fun j hj hkj => hk ⟨j, hj, hkj⟩
  | byte a v => exact s.readByte_writeBytes_outside _ [v] (Nat.lt_or_gt_of_ne hk)
  | pair a v =>
    obtain ⟨hhigh, hlow⟩ := not_or.1 hk
    refine s.readByte_writeBytes_outside _ (sample16Bytes .bigEndian v) ?_
    rw [show (sample16Bytes .bigEndian v).length = 2 from rfl]
    omega

/-- A meaning leaves every byte that the command does not store to, whether it completes or faults. -/
theorem readByte_exec {i : Instr} {s t : State} (h : exec i s = .next t) {k : Nat} (hk : ¬StoresTo i k) :
    t.readByte k = s.readByte k := by
  obtain ⟨u, rfl⟩ := update_of_exec h
  exact u.readByte_apply s hk

/-- The source of a store stays in `ACC` (30_encoding.md R63). -/
theorem IsStore.exec_acc {i : Instr} {s t : State} (hi : IsStore i) (h : exec i s = .next t) : t.acc = s.acc := by
  obtain ⟨a, rfl⟩ | ⟨a, w, rfl⟩ | ⟨a, rfl⟩ | ⟨a, rfl⟩ := hi
  · rcases Nat.lt_or_ge a.toNat (8 * s.bufBytes) with ha | ha
    · cases (execWrbit_inside ha).symm.trans h; rfl
    · cases (execWrbit_outside ha).symm.trans h; rfl
  · by_cases hw : 1 ≤ w.toNat ∧ w.toNat ≤ 32
    · rcases Nat.lt_or_ge (8 * s.bufBytes) (a.toNat + w.toNat) with ha | ha
      · cases (execWrfld_outside hw ha).symm.trans h; rfl
      · cases (execWrfld_inside hw ha).symm.trans h; simp
    · cases (execWrfld_width hw).symm.trans h; rfl
  · rcases Nat.lt_or_ge a.toNat s.bufBytes with ha | ha
    · cases (execStb_inside ha).symm.trans h; rfl
    · cases (execStb_outside ha).symm.trans h; rfl
  · rcases Nat.lt_or_ge s.bufBytes (a.toNat + 2) with ha | ha
    · cases (execSth_outside ha).symm.trans h; rfl
    · cases (execSth_inside ha).symm.trans h; rfl

end Sys2Proof.Machine
end

section
/-! The statements of 20_memory.md. -/

namespace Sys2Proof.Proofs

open Sys2Proof.Machine

/-- Settles O42: STB `m` leaves the byte stored at `m`, and the field of its eight bits is that byte reversed. -/
theorem fieldViewOfAByteIsItsReversal : Obligations.FieldViewOfAByteIsItsReversal := by
  intro s m a hm ha
  have hbyte : (s.writeBytes m.toNat [s.accByte]).readByte m.toNat = s.accByte :=
    s.readByte_writeByte_self m.toNat s.accByte
  refine ⟨_, _, execStb_inside hm, execRdfld_inside (by decide) ?_, ?_⟩
  · rw [State.writeBytes_bufBytes, ha, show (8 : BitVec 8).toNat = 8 from rfl]
    omega
  · calc (s.writeBytes m.toNat [s.accByte]).fieldRead a.toNat 8
      _ = ((s.writeBytes m.toNat [s.accByte]).readByte m.toNat).reverse.setWidth 32 := by rw [ha, State.fieldRead_byte]
      _ = s.accByte.reverse.setWidth 32 := by rw [hbyte]

/-- Settles O56, by what a command can write: every write of `BUF` is at a byte of `StoresTo`, a store keeps `ACC`, and
the fault entry is the one write that touches the fault record. -/
theorem storingCommandsKeepTheOtherBytes : Obligations.StoringCommandsKeepTheOtherBytes := by
  intro i s t h
  refine ⟨?_, ?_, ?_, ?_, fun (hi : IsStore i) => ?_⟩
  · rintro a rfl k hk
    exact readByte_exec h hk
  · rintro a w rfl k hk
    exact readByte_exec h fun ⟨j, hj, hkj⟩ => hk j hj hkj
  · rintro a rfl k hk
    exact readByte_exec h hk
  · rintro a rfl k hhigh hlow
    exact readByte_exec h (not_or.2 ⟨hhigh, hlow⟩)
  · have hacc := hi.exec_acc h
    have hrecord := (effect_of_exec h).record_frame
    obtain ⟨u, rfl⟩ := update_of_exec h
    cases u with
    | fault =>
      exact ⟨rfl, rfl, rfl, rfl, rfl, rfl,
        hrecord.imp_right fun ⟨_, hword, hcause⟩ => ⟨hword, fun _ => rfl, hcause⟩⟩
    | nothing | acc | bit => exact ⟨hacc, rfl, rfl, rfl, rfl, rfl, .inl ⟨rfl, rfl⟩⟩
    | enable => simp [IsStore] at hi
    | field | byte | pair => simp [Update.apply]

end Sys2Proof.Proofs
end

section
/-! The word and the line of a command: decoding what was encoded, the rows of the opcode map as masks of the four fields
(30_encoding.md R60, R64, R65), and well-formed command lines (R68). -/

namespace Sys2Proof

/-! ### Decoding an encoded command -/

/-- The word of every command carries its `OP` value and its operands, and its must-be-zero fields are zero. -/
theorem encodedFields (i : Instr) : Laws.EncodedFields.Statement i := by
  cases i with
  | nop => exact Laws.EncodedFields.nop
  | ldi d => exact Laws.EncodedFields.ldi d
  | seten => exact Laws.EncodedFields.seten
  | tick => exact Laws.EncodedFields.tick
  | rdbit a => exact Laws.EncodedFields.rdbit a
  | wrbit a => exact Laws.EncodedFields.wrbit a
  | rdfld a w => exact Laws.EncodedFields.rdfld a w
  | wrfld a w => exact Laws.EncodedFields.wrfld a w
  | ldb a => exact Laws.EncodedFields.ldb a
  | stb a => exact Laws.EncodedFields.stb a
  | ldh a => exact Laws.EncodedFields.ldh a
  | sth a => exact Laws.EncodedFields.sth a
  | s12tof => exact Laws.EncodedFields.s12tof
  | ftos12 => exact Laws.EncodedFields.ftos12
  | s16tof => exact Laws.EncodedFields.s16tof
  | ftos16 => exact Laws.EncodedFields.ftos16

/-- A command is its row of the opcode map with its operands. -/
theorem Instr.build_operands (i : Instr) : i.mnemonic.build i.wOperand i.aOperand i.dOperand = i := by
  cases i <;> rfl

theorem decode_of_row {w : CommandWord} {m : Mnemonic} (hop : CommandWord.opField w = m.op) (hmbz : mbzZero m w = true) :
    decode w = .ok (m.build (CommandWord.wField w) (CommandWord.aField w) (CommandWord.dField w)) := by
  simp [decode, hop, hmbz]

theorem decode_encode (i : Instr) : decode (encode i) = .ok i := by
  obtain ⟨hop, hw, ha, hd, hmbz⟩ := encodedFields i
  rw [decode_of_row hop hmbz, hw, ha, hd, i.build_operands]

theorem decode_eq_ok_iff {w : CommandWord} {i : Instr} : decode w = .ok i ↔ encode i = w := by
  refine ⟨encode_of_decode, ?_⟩
  rintro rfl
  exact decode_encode i

/-! ### The opcode map (R64) -/

namespace CommandWord

theorem ofFields_and (op op' w w' : BitVec 8) (a a' : BitVec 16) (d d' : BitVec 32) :
    ofFields op w a d &&& ofFields op' w' a' d' = ofFields (op &&& op') (w &&& w') (a &&& a') (d &&& d') :=
  (BitVec.and_append (x₁ := op ++ w ++ a) (x₂ := op' ++ w' ++ a')).trans (by simp only [BitVec.and_append]; rfl)

theorem ofFields_inj {op op' w w' : BitVec 8} {a a' : BitVec 16} {d d' : BitVec 32} :
    ofFields op w a d = ofFields op' w' a' d' ↔ op = op' ∧ w = w' ∧ a = a' ∧ d = d' := by
  refine ⟨fun h => ⟨?_, ?_, ?_, ?_⟩, ?_⟩
  · simpa using congrArg opField h
  · simpa using congrArg wField h
  · simpa using congrArg aField h
  · simpa using congrArg dField h
  · rintro ⟨rfl, rfl, rfl, rfl⟩
    rfl

end CommandWord

/-- The part of a mask over one field: no bit of an operand, every bit of a field that must be zero. -/
def fieldMask (n : Nat) (isOperand : Bool) : BitVec n := if isOperand then 0 else BitVec.allOnes n

theorem and_fieldMask_eq_zero {n : Nat} (x : BitVec n) (isOperand : Bool) :
    x &&& fieldMask n isOperand = 0 ↔ (isOperand || x == 0) = true := by
  cases isOperand <;> simp [fieldMask]

/-- The row of a mnemonic, written from the fields of R60: all of `OP`, and each field that is no operand, are tested. -/
def Mnemonic.row (m : Mnemonic) : OpcodeRow :=
  { mnemonic := m
    pattern := CommandWord.ofFields m.op 0 0 0
    mask := CommandWord.ofFields 0xFF (fieldMask 8 m.usesW) (fieldMask 16 m.usesA) (fieldMask 32 m.usesD) }

/-- The printed table is the rows written from the fields. -/
theorem opcodeMap_eq_rows : opcodeMap = Machine.allMnemonics.map Mnemonic.row := by decide

theorem Machine.mem_allMnemonics (m : Mnemonic) : m ∈ allMnemonics := by cases m <;> decide

theorem mem_opcodeMap {r : OpcodeRow} : r ∈ opcodeMap ↔ ∃ m : Mnemonic, m.row = r := by
  simp [opcodeMap_eq_rows, Machine.mem_allMnemonics]

/-- The mask and the match of a row test what R65 tests: `OP`, and the must-be-zero fields. -/
theorem matches_row_iff (m : Mnemonic) (w : CommandWord) :
    w &&& m.row.mask = m.row.pattern ↔ CommandWord.opField w = m.op ∧ mbzZero m w = true := by
  conv_lhs => rw [← CommandWord.ofFields_fields w]
  simp only [Mnemonic.row, CommandWord.ofFields_and, CommandWord.ofFields_inj, and_fieldMask_eq_zero, mbzZero,
    Bool.and_eq_true, and_assoc, show (0xFF : BitVec 8) = BitVec.allOnes 8 from rfl, BitVec.and_allOnes]

theorem op_injective {m m' : Mnemonic} (h : m.op = m'.op) : m = m' :=
  Option.some.inj (by rw [← Mnemonic.ofOp_op m, h, Mnemonic.ofOp_op])

end Sys2Proof
end

section
/-! Command lines as terms (30_encoding.md R68): a line is well-formed exactly when it is the line of a command. -/

namespace Sys2Proof

theorem operandsFit_nil {xs : List Nat} : operandsFit [] xs = true ↔ xs = [] := by
  cases xs <;> simp [operandsFit]

theorem operandsFit_cons {bound : Nat} {bounds xs : List Nat} :
    operandsFit (bound :: bounds) xs = true ↔ ∃ x ys, xs = x :: ys ∧ x < bound ∧ operandsFit bounds ys = true := by
  cases xs <;> simp [operandsFit]

namespace Mnemonic

/-- The four forms of a row of R64: no operand, an address, an address and a width, a datum. -/
theorem uses_cases (m : Mnemonic) :
    (m.usesA = false ∧ m.usesW = false ∧ m.usesD = false) ∨ (m.usesA = true ∧ m.usesW = false ∧ m.usesD = false) ∨
      (m.usesA = true ∧ m.usesW = true ∧ m.usesD = false) ∨ (m.usesA = false ∧ m.usesW = false ∧ m.usesD = true) := by
  cases m <;> decide

variable (m : Mnemonic) (w : BitVec 8) (a : BitVec 16) (d : BitVec 32)

theorem aOperand_build : (m.build w a d).aOperand = if m.usesA then a else 0 := by cases m <;> rfl

theorem wOperand_build : (m.build w a d).wOperand = if m.usesW then w else 0 := by cases m <;> rfl

theorem dOperand_build : (m.build w a d).dOperand = if m.usesD then d else 0 := by cases m <;> rfl

end Mnemonic

namespace Machine

theorem assembleLine_of_wellFormed {l : AsmLine} (h : l.wellFormed = true) :
    assembleLine l = some (l.mnemonic.build (BitVec.ofNat 8 (l.operands.getD 1 0))
      (BitVec.ofNat 16 (l.operands.getD 0 0)) (BitVec.ofNat 32 (l.operands.getD 0 0))) := if_pos h

theorem assembleLine_isSome (l : AsmLine) : (assembleLine l).isSome = l.wellFormed := by
  cases h : l.wellFormed <;> simp [assembleLine, h]

/-- The operands of a command fit, because each has the width of its field. -/
theorem lineOf_wellFormed (i : Instr) : (lineOf i).wellFormed = true := by
  have ha := i.aOperand.isLt
  have hw := i.wOperand.isLt
  have hd := i.dOperand.isLt
  unfold AsmLine.wellFormed lineOf Mnemonic.operandBounds
  cases i.mnemonic.usesA <;> cases i.mnemonic.usesW <;> cases i.mnemonic.usesD <;> simp [operandsFit] <;> omega

theorem assembleLine_lineOf (i : Instr) : assembleLine (lineOf i) = some i := by
  rw [assembleLine_of_wellFormed (lineOf_wellFormed i)]
  cases i <;> simp [lineOf, Instr.mnemonic, Mnemonic.usesA, Mnemonic.usesW, Mnemonic.usesD, Mnemonic.build,
    Instr.aOperand, Instr.wOperand, Instr.dOperand]

theorem lineOf_of_assembleLine {l : AsmLine} {i : Instr} (h : assembleLine l = some i) : lineOf i = l := by
  obtain ⟨m, ops⟩ := l
  have hfit : AsmLine.wellFormed ⟨m, ops⟩ = true := by rw [← assembleLine_isSome, h]; rfl
  rw [assembleLine_of_wellFormed hfit, Option.some.injEq] at h
  subst h
  obtain ⟨hA, hW, hD⟩ | ⟨hA, hW, hD⟩ | ⟨hA, hW, hD⟩ | ⟨hA, hW, hD⟩ := m.uses_cases <;>
    simp only [AsmLine.wellFormed, Mnemonic.operandBounds, hA, hW, hD, operandsFit_cons, operandsFit_nil, if_true,
      Bool.false_eq_true, if_false, List.nil_append, List.append_nil, List.cons_append] at hfit <;>
    simp only [lineOf, Mnemonic.mnemonic_build, Mnemonic.aOperand_build, Mnemonic.wOperand_build,
      Mnemonic.dOperand_build, hA, hW, hD, if_true, Bool.false_eq_true, if_false]
  · rw [hfit]
    rfl
  · obtain ⟨a, _, rfl, ha, rfl⟩ := hfit
    simpa using ha
  · obtain ⟨a, _, rfl, ha, w, _, rfl, hw, rfl⟩ := hfit
    simpa using ⟨ha, hw⟩
  · obtain ⟨d, _, rfl, hd, rfl⟩ := hfit
    simpa using hd

end Machine
end Sys2Proof
end

section
/-! The text of a line (30_encoding.md R68, R71): the digits of a number read back, and a written line splits into the
mnemonic and the operands it was written from. -/

namespace Sys2Proof.Machine

/-! ### Digits -/

theorem digitChar_toNat {v : Nat} (h : v < 16) : (digitChar v).toNat = if v < 10 then 48 + v else 55 + v := by
  revert v
  decide

theorem digitValue_digitChar {base v : Nat} (hbase : base ≤ 16) (hv : v < base) :
    digitValue base (digitChar v) = some v := by
  unfold digitValue
  rw [digitChar_toNat (hv.trans_le hbase)]
  grind

theorem readDigits_digitChar {base v : Nat} (hbase : base ≤ 16) (hv : v < base) (acc : Nat) (cs : List Char) :
    readDigits base acc (digitChar v :: cs) = readDigits base (acc * base + v) cs := by
  simp only [readDigits, digitValue_digitChar hbase hv]

theorem readDigits_writeDigits {base fuel n : Nat} (hbase : 2 ≤ base) (hbase' : base ≤ 16) (hn : n < fuel)
    (cs : List Char) : readDigits base 0 (writeDigits base fuel n cs) = readDigits base n cs := by
  induction fuel generalizing n cs with
  | zero => omega
  | succ fuel ih =>
    unfold writeDigits
    split
    · next hlt => rw [readDigits_digitChar hbase' hlt, Nat.zero_mul, Nat.zero_add]
    · next hge =>
      have hdiv : n / base < n := Nat.div_lt_self (by omega) (by omega)
      rw [ih (by omega), readDigits_digitChar hbase' (Nat.mod_lt n (by omega)), Nat.div_add_mod']

theorem readDigits_writeHex (k n : Nat) (cs : List Char) :
    readDigits 16 0 (writeHex k n cs) = readDigits 16 (n % 16 ^ k) cs := by
  induction k generalizing n cs with
  | zero => rw [writeHex, Nat.pow_zero, Nat.mod_one]
  | succ k ih =>
    rw [writeHex, ih, readDigits_digitChar le_rfl (Nat.mod_lt n (by decide)), Nat.pow_succ', Nat.mod_mul]
    congr 1
    omega

theorem writeHex_length (k n : Nat) (cs : List Char) : (writeHex k n cs).length = k + cs.length := by
  induction k generalizing n cs with
  | zero => rw [writeHex, Nat.zero_add]
  | succ k ih =>
    rw [writeHex, ih, List.length_cons]
    omega

/-! ### Words: pieces of a line that the reader does not cut -/

/-- The characters that the reader of a line or of a number gives a meaning of their own. -/
def marks : List Char := [' ', ',', ';', 'x']

/-- A piece of text without marks: a mnemonic or a decimal number. -/
def IsWord (cs : List Char) : Prop := cs ≠ [] ∧ ∀ c ∈ cs, c ∉ marks

theorem IsWord.ne_of_mem {cs : List Char} (h : IsWord cs) {c m : Char} (hc : c ∈ cs) (hm : m ∈ marks) : c ≠ m :=
  fun heq => h.2 c hc (heq ▸ hm)

theorem mnemonicText_isWord (m : Mnemonic) : IsWord (mnemonicText m) := by
  cases m <;> simp [IsWord, mnemonicText, marks]

theorem digitChar_not_mark {v : Nat} (h : v < 10) : digitChar v ∉ marks := by
  revert v
  decide

theorem writeDigits_isWord {fuel n : Nat} {cs : List Char} (hfuel : fuel ≠ 0) (hcs : ∀ c ∈ cs, c ∉ marks) :
    IsWord (writeDigits 10 fuel n cs) := by
  induction fuel generalizing n cs with
  | zero => exact absurd rfl hfuel
  | succ fuel ih =>
    unfold writeDigits
    split
    · next hlt => exact ⟨List.cons_ne_nil _ _, List.forall_mem_cons.2 ⟨digitChar_not_mark hlt, hcs⟩⟩
    · have hcs' : ∀ c ∈ digitChar (n % 10) :: cs, c ∉ marks :=
        List.forall_mem_cons.2 ⟨digitChar_not_mark (Nat.mod_lt n (by decide)), hcs⟩
      by_cases hf : fuel = 0
      · subst hf
        exact ⟨List.cons_ne_nil _ _, hcs'⟩
      · exact ih hf hcs'

theorem writeDecimal_isWord (n : Nat) : IsWord (writeDecimal n) :=
  writeDigits_isWord (Nat.succ_ne_zero n) (List.forall_mem_nil _)

/-- A word has no `x`, so that it is read as a decimal number. -/
theorem IsWord.readNumber_eq {cs : List Char} (h : IsWord cs) : readNumber cs = readDigits 10 0 cs := by
  unfold readNumber
  split
  · exact absurd rfl h.1
  · exact absurd rfl (h.ne_of_mem (c := 'x') (by simp) (by decide))
  · rfl

theorem readNumber_writeDecimal (n : Nat) : readNumber (writeDecimal n) = some n := by
  rw [(writeDecimal_isWord n).readNumber_eq, writeDecimal,
    readDigits_writeDigits (by decide) (by decide) (Nat.lt_succ_self n), readDigits]

theorem readNumbers_writeDecimal (ns : List Nat) : readNumbers (ns.map writeDecimal) = some ns := by
  induction ns with
  | nil => rfl
  | cons n ns ih => simp only [List.map_cons, readNumbers, readNumber_writeDecimal, ih]

/-! ### Code: text that begins and ends with a word -/

/-- Text that is not empty, does not begin or end with a space and holds no comment. -/
structure IsCode (cs : List Char) : Prop where
  ne_nil : cs ≠ []
  head : cs.head? ≠ some ' '
  last : cs.getLast? ≠ some ' '
  noComment : ∀ c ∈ cs, c ≠ ';'

theorem IsWord.isCode {cs : List Char} (h : IsWord cs) : IsCode cs where
  ne_nil := h.1
  head hs := h.ne_of_mem (List.mem_of_mem_head? hs) (by decide) rfl
  last hs := h.ne_of_mem (List.mem_of_getLast? hs) (by decide) rfl
  noComment _ hc := h.ne_of_mem hc (by decide)

theorem IsWord.isCode_append {p sep q : List Char} (hp : IsWord p) (hsep : ∀ c ∈ sep, c ≠ ';') (hq : IsCode q) :
    IsCode (p ++ sep ++ q) where
  ne_nil := by simp [hp.1]
  head := by
    rw [List.append_assoc, List.head?_append_of_ne_nil _ hp.1]
    exact hp.isCode.head
  last := by
    rw [List.getLast?_append_of_ne_nil _ hq.ne_nil]
    exact hq.last
  noComment c hc := by
    obtain (hc | hc) | hc := (List.mem_append.1 hc).imp_left List.mem_append.1
    · exact hp.isCode.noComment c hc
    · exact hsep c hc
    · exact hq.noComment c hc

theorem dropWhile_space_of_head {cs : List Char} (h : cs.head? ≠ some ' ') : cs.dropWhile (· == ' ') = cs := by
  cases cs with
  | nil => rfl
  | cons c cs =>
    rw [List.dropWhile_cons_of_neg]
    simpa using h

theorem IsCode.trim_eq {cs : List Char} (h : IsCode cs) : trim cs = cs := by
  rw [trim, dropWhile_space_of_head h.head, dropWhile_space_of_head (by rw [List.head?_reverse]; exact h.last),
    List.reverse_reverse]

theorem trim_space_cons (cs : List Char) : trim (' ' :: cs) = trim cs := by
  rw [trim, List.dropWhile_cons_of_pos (by rfl), trim]

theorem IsCode.takeWhile_eq {cs : List Char} (h : IsCode cs) : cs.takeWhile (· ≠ ';') = cs :=
  List.takeWhile_eq_self_iff.2 fun c hc => by simpa using h.noComment c hc

/-! ### A line splits into its head word and its operands -/

theorem splitLine_word {p : List Char} (hp : IsWord p) : splitLine p = (p, []) := by
  have hspace : ∀ c ∈ p, (c ≠ ' ' : Bool) = true := fun c hc => by simpa using hp.ne_of_mem hc (by decide)
  simp only [splitLine, hp.isCode.takeWhile_eq, hp.isCode.trim_eq]
  rw [List.takeWhile_eq_self_iff.2 hspace, List.dropWhile_eq_nil_iff.2 hspace]
  rfl

theorem splitLine_word_operands {p q : List Char} (hp : IsWord p) (hq : IsCode q) :
    splitLine (p ++ ' ' :: q) = (p, (splitCommas q).map trim) := by
  have hcode : IsCode (p ++ ' ' :: q) := by simpa using hp.isCode_append (sep := [' ']) (by simp) hq
  have hspace : ∀ c ∈ p, (c ≠ ' ' : Bool) = true := fun c hc => by simpa using hp.ne_of_mem hc (by decide)
  simp only [splitLine, hcode.takeWhile_eq, hcode.trim_eq]
  rw [List.takeWhile_append_of_pos hspace, List.dropWhile_append_of_pos hspace, List.takeWhile_cons_of_neg (by decide),
    List.dropWhile_cons_of_neg (by decide), trim_space_cons, hq.trim_eq, List.append_nil,
    if_neg (by simpa using hq.ne_nil)]

theorem splitCommas_ne_nil (cs : List Char) : splitCommas cs ≠ [] := by
  cases cs with
  | nil => exact List.cons_ne_nil _ _
  | cons c cs =>
    unfold splitCommas
    split
    · exact List.cons_ne_nil _ _
    · split <;> exact List.cons_ne_nil _ _

theorem splitCommas_cons_of_ne {c : Char} {cs p : List Char} {ps : List (List Char)} (hc : c ≠ ',')
    (h : splitCommas cs = p :: ps) : splitCommas (c :: cs) = (c :: p) :: ps := by
  rw [splitCommas, if_neg hc, h]

theorem splitCommas_of_no_comma {p : List Char} (h : ∀ c ∈ p, c ≠ ',') : splitCommas p = [p] := by
  induction p with
  | nil => rfl
  | cons c p ih =>
    obtain ⟨hc, hp⟩ := List.forall_mem_cons.1 h
    exact splitCommas_cons_of_ne hc (ih hp)

theorem splitCommas_append_comma {p : List Char} (h : ∀ c ∈ p, c ≠ ',') (cs : List Char) :
    splitCommas (p ++ ',' :: cs) = p :: splitCommas cs := by
  induction p with
  | nil => rw [List.nil_append, splitCommas, if_pos rfl]
  | cons c p ih =>
    obtain ⟨hc, hp⟩ := List.forall_mem_cons.1 h
    exact splitCommas_cons_of_ne hc (ih hp)

/-- The space that a written line has after a comma is trimmed off. -/
theorem trim_splitCommas_space_cons (cs : List Char) :
    (splitCommas (' ' :: cs)).map trim = (splitCommas cs).map trim := by
  obtain ⟨p, ps, hcs⟩ := List.exists_cons_of_ne_nil (splitCommas_ne_nil cs)
  rw [splitCommas_cons_of_ne (by decide) hcs, hcs, List.map_cons, List.map_cons, trim_space_cons]

/-! ### A written line reads back -/

theorem writeOperands_isCode (n : Nat) (ns : List Nat) : IsCode (writeOperands (n :: ns)) := by
  induction ns generalizing n with
  | nil => exact (writeDecimal_isWord n).isCode
  | cons k ns ih => exact (writeDecimal_isWord n).isCode_append (by simp) (ih k)

theorem splitCommas_writeOperands (n : Nat) (ns : List Nat) :
    (splitCommas (writeOperands (n :: ns))).map trim = (n :: ns).map writeDecimal := by
  induction ns generalizing n with
  | nil =>
    have hword := writeDecimal_isWord n
    rw [writeOperands, splitCommas_of_no_comma fun c hc => hword.ne_of_mem hc (by decide), List.map_singleton,
      hword.isCode.trim_eq, List.map_singleton]
  | cons k ns ih =>
    have hword := writeDecimal_isWord n
    have htext : writeOperands (n :: k :: ns) = writeDecimal n ++ ',' :: (' ' :: writeOperands (k :: ns)) := by
      simp [writeOperands]
    rw [htext, splitCommas_append_comma fun c hc => hword.ne_of_mem hc (by decide), List.map_cons,
      trim_splitCommas_space_cons, ih, hword.isCode.trim_eq, List.map_cons (l := k :: ns)]

theorem splitLine_writeLine (l : AsmLine) :
    splitLine (writeLine l) = (mnemonicText l.mnemonic, l.operands.map writeDecimal) := by
  obtain ⟨m, ops⟩ := l
  cases ops with
  | nil =>
    rw [writeLine, if_pos List.isEmpty_nil, List.append_nil]
    exact splitLine_word (mnemonicText_isWord m)
  | cons n ns =>
    rw [writeLine, if_neg (by simp), splitLine_word_operands (mnemonicText_isWord m) (writeOperands_isCode n ns),
      splitCommas_writeOperands]

theorem readMnemonic_mnemonicText (m : Mnemonic) : readMnemonic (mnemonicText m) = some m := by
  cases m <;> decide

/-- A line written as text assembles to what the line as a term assembles to. -/
theorem assembleText_writeLine (c : Config) (l : AsmLine) :
    assembleText c (writeLine l) = (assembleLine l).map fun i => [i] := by
  unfold assembleText
  rw [splitLine_writeLine]
  split
  · next hnil => exact absurd (congrArg Prod.fst hnil) (mnemonicText_isWord l.mnemonic).1
  · next heq =>
    cases heq
    simp only [readMnemonic_mnemonicText, readNumbers_writeDecimal]

theorem printWord_encode (i : Instr) : printWord (encode i) = writeLine (lineOf i) := by
  simp only [printWord, decode_encode]

theorem printWord_illegal {w : CommandWord} {why : IllegalWord} (h : decode w = .error why) :
    printWord w = ['.', 'w', 'o', 'r', 'd', ' ', '0', 'x'] ++ writeHex 16 w.toNat [] := by
  simp only [printWord, h]

end Sys2Proof.Machine
end

section
/-! Rounding to binary32 is to nearest, ties to even (42_quantizer.md R122): what a pattern is worth in units of 2^-149, how
a rounded quotient stands to the multiples of its last place, and that `round` answers what `RoundsTo` asks for. -/

namespace Sys2Proof.FloatMeaning

open Sys2Proof.Machine

/-! ### The value of a pattern in units -/

/-- The bits of a pattern below its sign. -/
def magnitude (p : Word32) : Nat := p.toNat % 2 ^ 31

/-- What a finite magnitude is worth, in units of 2^-149. -/
def unitsOf (mag : Nat) : Nat :=
  if mag < 2 ^ 23 then mag else (2 ^ 23 + mag % 2 ^ 23) * 2 ^ (mag / 2 ^ 23 - 1)

theorem expField_eq (p : Word32) : expField p = magnitude p / 2 ^ 23 := by
  simp only [expField, magnitude, BitVec.extractLsb'_toNat, Nat.shiftRight_eq_div_pow]
  omega

theorem fraction_eq (p : Word32) : fraction p = magnitude p % 2 ^ 23 := by
  simp only [fraction, magnitude, BitVec.extractLsb'_toNat, Nat.shiftRight_eq_div_pow]
  omega

theorem signFactor_mul_units (p : Word32) (n : Nat) : signFactor p * n = (signedUnits (sign p) n : ℚ) := by
  unfold signFactor signedUnits
  split <;> simp

/-- A pattern is worth a whole number of units, with its sign. -/
theorem realValue_eq (p : Word32) :
    realValue p = (signedUnits (sign p) (unitsOf (magnitude p)) : ℚ) / 2 ^ 149 := by
  rw [← signFactor_mul_units, realValue, expField_eq, fraction_eq, unitsOf]
  by_cases h : magnitude p < 2 ^ 23
  · rw [if_pos (Nat.div_eq_of_lt h), if_pos h, Nat.mod_eq_of_lt h]
    norm_num
    ring
  · obtain ⟨e, he⟩ : ∃ e, magnitude p / 2 ^ 23 = e + 1 := ⟨magnitude p / 2 ^ 23 - 1, by omega⟩
    rw [if_neg (by omega), if_neg h, he, Nat.add_sub_cancel,
      show ((e + 1 : Nat) : ℤ) - 127 = (e : ℤ) - 126 by push_cast; ring, zpow_sub₀ two_ne_zero, zpow_natCast]
    push_cast
    norm_num
    ring

theorem magnitude_pattern (neg : Bool) {mag : Nat} (h : mag < 2 ^ 31) :
    magnitude (FloatFormat.binary32.pattern neg mag) = mag := by
  cases neg <;> simp [magnitude, FloatFormat.pattern, FloatFormat.magBits, FloatFormat.binary32] <;> omega

theorem sign_eq (p : Word32) : sign p = decide (2 ^ 31 ≤ p.toNat) := BitVec.msb_eq_decide p

theorem sign_pattern (neg : Bool) {mag : Nat} (h : mag < 2 ^ 31) :
    sign (FloatFormat.binary32.pattern neg mag) = neg := by
  rw [sign_eq]
  cases neg <;> simp [FloatFormat.pattern, FloatFormat.magBits, FloatFormat.binary32] <;> omega

/-- A finite value is a multiple of `2 ^ k`, or it is too small to have its last place there. -/
theorem dvd_unitsOf_or_lt (k mag : Nat) : 2 ^ k ∣ unitsOf mag ∨ (0 < k ∧ unitsOf mag < 2 ^ (k + 23)) := by
  have hfrac := Nat.mod_lt mag (show 2 ^ 23 > 0 by decide)
  unfold unitsOf
  split
  · next hsmall =>
    rcases Nat.eq_zero_or_pos k with rfl | hk
    · exact .inl (one_dvd _)
    · exact .inr ⟨hk, hsmall.trans_le (Nat.pow_le_pow_right two_pos (by omega))⟩
  · rcases Nat.lt_or_ge k (mag / 2 ^ 23) with hlt | hge
    · exact .inl (Dvd.dvd.mul_left (pow_dvd_pow 2 (by omega)) _)
    · refine .inr ⟨by omega, ?_⟩
      calc (2 ^ 23 + mag % 2 ^ 23) * 2 ^ (mag / 2 ^ 23 - 1)
        _ < 2 ^ 24 * 2 ^ (mag / 2 ^ 23 - 1) := by gcongr; omega
        _ = 2 ^ (24 + (mag / 2 ^ 23 - 1)) := (pow_add 2 _ _).symm
        _ ≤ 2 ^ (k + 23) := Nat.pow_le_pow_right two_pos (by omega)

/-- The magnitude that `roundMag` writes for a significand `q` in the last place `2 ^ k` is worth `q * 2 ^ k`. -/
theorem unitsOf_significand {k q : Nat} (hq : q ≤ 2 ^ 24) (hnormal : 0 < k → 2 ^ 23 ≤ q) :
    unitsOf (k * 2 ^ 23 + q) = q * 2 ^ k := by
  rcases Nat.lt_or_ge q (2 ^ 23) with hlt | hge
  · obtain rfl : k = 0 := by omega
    rw [Nat.zero_mul, Nat.zero_add, unitsOf, if_pos hlt, pow_zero, mul_one]
  rw [unitsOf, if_neg (by omega)]
  rcases Nat.lt_or_ge q (2 ^ 24) with hlt | htop
  · rw [show (k * 2 ^ 23 + q) % 2 ^ 23 = q - 2 ^ 23 by omega, show (k * 2 ^ 23 + q) / 2 ^ 23 - 1 = k by omega,
      Nat.add_sub_cancel' hge]
  · obtain rfl : q = 2 ^ 24 := by omega
    rw [show (k * 2 ^ 23 + 2 ^ 24) % 2 ^ 23 = 0 by omega, show (k * 2 ^ 23 + 2 ^ 24) / 2 ^ 23 - 1 = k + 1 by omega]
    ring

end Sys2Proof.FloatMeaning

namespace Sys2Proof.Machine

/-! ### A rounded quotient is the nearest multiple -/

theorem abs_roundHalfEven_sub_le (num : Nat) {den : Nat} (h : 0 < den) :
    |(roundHalfEven num den : ℚ) - num / den| ≤ 1 / 2 := by
  have hden : (0 : ℚ) < den := mod_cast h
  obtain ⟨hlow, hhigh⟩ := roundHalfEven_near num h
  have hlow' : 2 * (num : ℚ) ≤ 2 * (roundHalfEven num den * den) + den := mod_cast hlow
  have hhigh' : 2 * (roundHalfEven num den * den) ≤ 2 * (num : ℚ) + den := mod_cast hhigh
  have hx : (num : ℚ) = num / den * den := (div_mul_cancel₀ _ hden.ne').symm
  rw [hx] at hlow' hhigh'
  rw [abs_le]
  constructor <;> nlinarith

theorem roundHalfEven_even_of_half {num den : Nat} (h : 0 < den)
    (hhalf : |(roundHalfEven num den : ℚ) - num / den| = 1 / 2) : roundHalfEven num den % 2 = 0 := by
  have hden : (den : ℚ) ≠ 0 := mod_cast h.ne'
  apply roundHalfEven_tie h
  rcases (abs_eq (by norm_num)).1 hhalf with hq | hq <;> field_simp at hq
  · right
    have : 2 * ((roundHalfEven num den : ℚ) * den) = 2 * num + den := by linarith
    exact_mod_cast this
  · left
    have : 2 * (num : ℚ) = 2 * (roundHalfEven num den * den) + den := by linarith
    exact_mod_cast this

/-- No integer is nearer to the quotient than the rounded one, and where another is equally near it is even. -/
theorem roundHalfEven_nearest (num : Nat) {den : Nat} (h : 0 < den) (j : ℤ) :
    |(roundHalfEven num den : ℚ) - num / den| ≤ |(j : ℚ) - num / den| ∧
      (|(j : ℚ) - num / den| = |(roundHalfEven num den : ℚ) - num / den| → j ≠ roundHalfEven num den →
        roundHalfEven num den % 2 = 0) := by
  have hnear := abs_roundHalfEven_sub_le num h
  by_cases hj : j = roundHalfEven num den
  · subst hj
    exact ⟨le_rfl, fun _ hne => absurd rfl hne⟩
  have hone : (1 : ℚ) ≤ |(j : ℚ) - roundHalfEven num den| := mod_cast Int.one_le_abs (sub_ne_zero.2 hj)
  have htri := abs_sub_le (j : ℚ) (num / den) (roundHalfEven num den)
  rw [abs_sub_comm ((num : ℚ) / den)] at htri
  exact ⟨by linarith, fun heq _ => roundHalfEven_even_of_half h (by linarith)⟩

/-- The same on the multiples of a last place `g`. -/
theorem roundHalfEven_nearest_multiple (num : Nat) {den g : Nat} (hden : 0 < den) (hg : 0 < g) {z : ℤ} (hz : (g : ℤ) ∣ z) :
    |(roundHalfEven num (den * g) * g : ℚ) - num / den| ≤ |(z : ℚ) - num / den| ∧
      (|(z : ℚ) - num / den| = |(roundHalfEven num (den * g) * g : ℚ) - num / den| →
        z ≠ roundHalfEven num (den * g) * g → roundHalfEven num (den * g) % 2 = 0) := by
  obtain ⟨j, rfl⟩ := hz
  have hg' : (0 : ℚ) < g := mod_cast hg
  have hscale (y : ℚ) : |y * g - num / den| = |y - num / (den * g : Nat)| * g := by
    have hd : (den : ℚ) ≠ 0 := mod_cast hden.ne'
    rw [← abs_of_pos hg', ← abs_mul, abs_of_pos hg']
    congr 1
    push_cast
    field_simp
  obtain ⟨hle, heven⟩ := roundHalfEven_nearest num (Nat.mul_pos hden hg) j
  rw [Int.cast_mul, Int.cast_natCast, mul_comm (g : ℚ) (j : ℚ), hscale, hscale]
  refine ⟨mul_le_mul_of_nonneg_right hle hg'.le, fun heq hne => heven (mul_right_cancel₀ hg'.ne' heq) ?_⟩
  rintro rfl
  exact hne (mul_comm _ _)

/-- A quotient rounds up to `2^24` from half a unit below it on, `2^24 - 1` being odd. -/
theorem two_pow_le_roundHalfEven_iff (num : Nat) {half : Nat} (h : 0 < half) :
    2 ^ 24 ≤ roundHalfEven num (2 * half) ↔ (2 ^ 25 - 1) * half ≤ num := by
  have hpos : 0 < 2 * half := by omega
  obtain ⟨hlow, hhigh⟩ := roundHalfEven_near num hpos
  have htie := roundHalfEven_tie (num := num) hpos
  generalize roundHalfEven num (2 * half) = q at *
  constructor
  · intro hq
    have hmul : 2 ^ 24 * (2 * half) ≤ q * (2 * half) := Nat.mul_le_mul_right _ hq
    omega
  · intro hnum
    by_contra hcon
    have hmul : q * (2 * half) ≤ (2 ^ 24 - 1) * (2 * half) := Nat.mul_le_mul_right _ (by omega)
    have heven := htie (.inl (by omega))
    have hmul' : q * (2 * half) ≤ (2 ^ 24 - 2) * (2 * half) := Nat.mul_le_mul_right _ (by omega)
    omega

end Sys2Proof.Machine

namespace Sys2Proof.FloatFormat

open Sys2Proof.Machine Sys2Proof.FloatMeaning

/-! ### The last place and the significand of a rounded quotient -/

section

variable (num : Nat) {den : Nat}

/-- The significand that `roundMag` rounds to, counted in the last place of the result. -/
def significand (num den : Nat) : Nat := roundHalfEven num (den * 2 ^ binary32.lastPlace num den)

theorem roundMag_eq (den : Nat) :
    binary32.roundMag num den = min (binary32.lastPlace num den * 2 ^ 23 + significand num den) (255 * 2 ^ 23) := rfl

theorem lt_two_pow_lastPlace_mul (hden : 0 < den) : num < 2 ^ (binary32.lastPlace num den + 24) * den := by
  rw [← Nat.div_lt_iff_lt_mul hden]
  have hlog : num / den < 2 ^ (Nat.log2 (num / den) + 1) := Nat.lt_log2_self
  refine hlog.trans_le (Nat.pow_le_pow_right two_pos ?_)
  simp only [lastPlace, binary32]
  omega

theorem two_pow_lastPlace_mul_le (hden : 0 < den) (hk : 0 < binary32.lastPlace num den) :
    2 ^ (binary32.lastPlace num den + 23) * den ≤ num := by
  rw [← Nat.le_div_iff_mul_le hden]
  simp only [lastPlace, binary32] at hk ⊢
  rw [Nat.sub_add_cancel (by omega)]
  refine Nat.log2_self_le fun h0 => ?_
  simp [h0] at hk

theorem significand_le (hden : 0 < den) : significand num den ≤ 2 ^ 24 := by
  have hpos : 0 < den * 2 ^ binary32.lastPlace num den := by positivity
  have hlt := lt_two_pow_lastPlace_mul num hden
  rw [significand, ← roundHalfEven_mul (2 ^ 24) hpos]
  refine roundHalfEven_mono _ (hlt.le.trans_eq ?_)
  ring

theorem le_significand (hden : 0 < den) (hk : 0 < binary32.lastPlace num den) : 2 ^ 23 ≤ significand num den := by
  have hpos : 0 < den * 2 ^ binary32.lastPlace num den := by positivity
  have hle := two_pow_lastPlace_mul_le num hden hk
  rw [significand, ← roundHalfEven_mul (2 ^ 23) hpos]
  refine roundHalfEven_mono _ (Eq.trans_le ?_ hle)
  ring

/-- No whole number of units that a pattern can be worth is nearer to the quotient than the rounded one: those below the
last place are beyond a multiple of it that is nearer. -/
theorem significand_nearest (hden : 0 < den) {z : ℤ}
    (hz : ((2 ^ binary32.lastPlace num den : Nat) : ℤ) ∣ z ∨
      (0 < binary32.lastPlace num den ∧ z < (2 ^ (binary32.lastPlace num den + 23) : Nat))) :
    |(significand num den * (2 ^ binary32.lastPlace num den : Nat) : ℚ) - num / den| ≤ |(z : ℚ) - num / den| ∧
      (|(z : ℚ) - num / den| = |(significand num den * (2 ^ binary32.lastPlace num den : Nat) : ℚ) - num / den| →
        z ≠ significand num den * (2 ^ binary32.lastPlace num den : Nat) → significand num den % 2 = 0) := by
  have hgrid {z : ℤ} := roundHalfEven_nearest_multiple num (z := z) hden
    (Nat.two_pow_pos (binary32.lastPlace num den))
  obtain hdvd | ⟨hk, hlt⟩ := hz
  · exact hgrid hdvd
  have hle := two_pow_lastPlace_mul_le num hden hk
  generalize hB : 2 ^ (binary32.lastPlace num den + 23) = B at hlt hle
  have hdvd : ((2 ^ binary32.lastPlace num den : Nat) : ℤ) ∣ (B : ℤ) :=
    Int.natCast_dvd_natCast.2 (hB ▸ pow_dvd_pow 2 (Nat.le_add_right _ _))
  have hnear := (hgrid hdvd).1
  have hBx : (B : ℚ) ≤ num / den := (le_div_iff₀ (mod_cast hden)).2 (mod_cast hle)
  have hzB : (z : ℚ) < B := mod_cast hlt
  rw [Int.cast_natCast, abs_of_nonpos (sub_nonpos.2 hBx)] at hnear
  rw [abs_of_neg (show (z : ℚ) - num / den < 0 by linarith), significand]
  exact ⟨by linarith, fun heq => False.elim (by linarith)⟩

theorem le_two_pow_mul_of_le {a b c : Nat} (n : Nat) (h : a + b ≤ c) : 2 ^ a * (n * 2 ^ b) ≤ 2 ^ c * n := by
  rw [mul_comm n, ← mul_assoc, ← pow_add]
  exact Nat.mul_le_mul_right n (Nat.pow_le_pow_right two_pos h)

theorem two_pow_mul_le_of_le {a b c : Nat} (n : Nat) (h : c ≤ a + b) : 2 ^ c * n ≤ 2 ^ a * (n * 2 ^ b) := by
  rw [mul_comm n, ← mul_assoc, ← pow_add]
  exact Nat.mul_le_mul_right n (Nat.pow_le_pow_right two_pos h)

/-- The magnitude reaches that of infinity exactly from `(2^25 - 1) * 2^252` units on, which is halfway between the largest
finite value and the next power of two. -/
theorem infMag_le_iff (hden : 0 < den) :
    255 * 2 ^ 23 ≤ binary32.lastPlace num den * 2 ^ 23 + significand num den ↔ (2 ^ 25 - 1) * (den * 2 ^ 252) ≤ num := by
  have hq := significand_le num hden
  have hlt := lt_two_pow_lastPlace_mul num hden
  have hD : 0 < den * 2 ^ 252 := by positivity
  rcases lt_trichotomy (binary32.lastPlace num den) 253 with hk | hk | hk
  · have hsmall : num < 2 ^ 24 * (den * 2 ^ 252) := hlt.trans_le (two_pow_mul_le_of_le den (by omega))
    omega
  · have hdef : significand num den = roundHalfEven num (2 * (den * 2 ^ 252)) := by
      rw [significand, hk, Nat.pow_succ, ← Nat.mul_assoc, Nat.mul_comm _ 2]
    rw [← two_pow_le_roundHalfEven_iff num hD, ← hdef, hk]
    omega
  · have hq' := le_significand num hden (by omega)
    have hbig : 2 ^ 25 * (den * 2 ^ 252) ≤ num :=
      (le_two_pow_mul_of_le den (by omega)).trans (two_pow_lastPlace_mul_le num hden (by omega))
    omega

end

/-! ### Rounding -/

/-- The signed units of a pattern, counted in the direction of the given sign. -/
def unitsToward (neg : Bool) (p : Word32) : ℤ :=
  (if neg then -1 else 1) * signedUnits (sign p) (unitsOf (magnitude p))

theorem realValue_eq_unitsToward (neg : Bool) (p : Word32) :
    realValue p = (if neg then -1 else 1) * (unitsToward neg p : ℚ) / 2 ^ 149 := by
  rw [realValue_eq, unitsToward]
  cases neg <;> simp

theorem unitsToward_pattern (neg : Bool) {mag : Nat} (h : mag < 2 ^ 31) :
    unitsToward neg (binary32.pattern neg mag) = unitsOf mag := by
  rw [unitsToward, sign_pattern neg h, magnitude_pattern neg h, signedUnits]
  cases neg <;> simp

theorem dvd_unitsToward_or_lt (k : Nat) (neg : Bool) (p : Word32) :
    ((2 ^ k : Nat) : ℤ) ∣ unitsToward neg p ∨ (0 < k ∧ unitsToward neg p < (2 ^ (k + 23) : Nat)) := by
  refine (dvd_unitsOf_or_lt k (magnitude p)).imp (fun h => Dvd.dvd.mul_left ?_ _) (And.imp_right fun h => ?_)
  · have h' := Int.natCast_dvd_natCast.2 h
    unfold signedUnits
    split
    · exact (dvd_neg).2 h'
    · exact h'
  · generalize 2 ^ (k + 23) = B at h ⊢
    unfold unitsToward signedUnits
    cases neg <;> cases sign p <;> simp <;> omega

/-- The distance of a pattern from a signed number of units is a distance on the side of its sign. -/
theorem abs_realValue_sub (p : Word32) (neg : Bool) (x : ℚ) :
    |realValue p - (if neg then -1 else 1) * x / 2 ^ 149| = |(unitsToward neg p : ℚ) - x| / 2 ^ 149 := by
  rw [realValue_eq_unitsToward neg, ← sub_div, ← mul_sub, abs_div, abs_mul,
    abs_of_pos (show (0 : ℚ) < 2 ^ 149 by positivity)]
  cases neg <;> simp

section

variable (neg : Bool) (num : Nat) {den : Nat}

/-- Below the overflow threshold no finite pattern is nearer than the rounded one, and at equal distance it is even. -/
theorem finite_pattern_nearest (hden : 0 < den) {p : Word32}
    (hfin : binary32.lastPlace num den * 2 ^ 23 + significand num den < 255 * 2 ^ 23)
    (hp : p = binary32.pattern neg (binary32.lastPlace num den * 2 ^ 23 + significand num den)) (q : Word32) :
    |realValue p - (if neg then -1 else 1) * ((num : ℚ) / den) / 2 ^ 149| ≤
        |realValue q - (if neg then -1 else 1) * ((num : ℚ) / den) / 2 ^ 149| ∧
      (|realValue q - (if neg then -1 else 1) * ((num : ℚ) / den) / 2 ^ 149| =
          |realValue p - (if neg then -1 else 1) * ((num : ℚ) / den) / 2 ^ 149| →
        realValue q ≠ realValue p → fraction p % 2 = 0) := by
  have hunits : unitsToward neg p = significand num den * (2 ^ binary32.lastPlace num den : Nat) := by
    rw [hp, unitsToward_pattern neg (by omega),
      unitsOf_significand (significand_le num hden) (le_significand num hden), Nat.cast_mul]
  have hfrac : fraction p % 2 = significand num den % 2 := by
    rw [fraction_eq, hp, magnitude_pattern neg (by omega)]
    omega
  obtain ⟨hle, heven⟩ := significand_nearest num hden (dvd_unitsToward_or_lt _ neg q)
  have hcast : (unitsToward neg p : ℚ) = significand num den * (2 ^ binary32.lastPlace num den : Nat) := by
    rw [hunits, Int.cast_mul, Int.cast_natCast, Int.cast_natCast]
  rw [← hcast] at hle heven
  rw [abs_realValue_sub, abs_realValue_sub, hfrac, div_left_inj' (by positivity)]
  refine ⟨by gcongr, fun heq hne => heven heq fun hz => hne ?_⟩
  rw [realValue_eq_unitsToward neg q, realValue_eq_unitsToward neg p, hunits, hz]

theorem overflow_iff (hden : 0 < den) :
    (2 : ℚ) ^ 128 - 2 ^ 103 ≤ |(if neg then -1 else 1) * ((num : ℚ) / den) / 2 ^ 149| ↔
      255 * 2 ^ 23 ≤ binary32.lastPlace num den * 2 ^ 23 + significand num den := by
  have habs : |(if neg then -1 else 1) * ((num : ℚ) / den) / 2 ^ 149| = (num : ℚ) / den / 2 ^ 149 := by
    rw [abs_div, abs_mul, abs_of_nonneg (show (0 : ℚ) ≤ num / den by positivity),
      abs_of_pos (show (0 : ℚ) < 2 ^ 149 by positivity)]
    cases neg <;> simp
  rw [habs, infMag_le_iff num hden, le_div_iff₀ (by positivity), le_div_iff₀ (mod_cast hden),
    show ((2 : ℚ) ^ 128 - 2 ^ 103) * 2 ^ 149 * den = ((2 ^ 25 - 1) * (den * 2 ^ 252) : Nat) by push_cast; ring,
    Nat.cast_le]

/-- `round` is the rounding of R122: `RoundsTo` holds of what it answers for any quotient of units and either sign. -/
theorem roundsTo_round (hden : 0 < den) :
    RoundsTo ((if neg then -1 else 1) * ((num : ℚ) / den) / 2 ^ 149) (binary32.round neg num den) := by
  by_cases hover : 255 * 2 ^ 23 ≤ binary32.lastPlace num den * 2 ^ 23 + significand num den
  · have hbig := (overflow_iff neg num hden).2 hover
    have hx : (0 : ℚ) < num / den := by
      refine lt_of_le_of_ne (by positivity) fun h0 => ?_
      rw [← h0] at hbig
      norm_num at hbig
    have hx' : (0 : ℚ) < num / den / 2 ^ 149 := by positivity
    rw [RoundsTo, if_pos hbig, round, roundMag_eq, Nat.min_eq_right hover, IsInfinite, expField_eq, fraction_eq,
      magnitude_pattern neg (by decide), sign_pattern neg (by decide)]
    refine ⟨by decide, ?_⟩
    cases neg
    · simpa using hx'.le
    · simpa [neg_div] using hx'
  · have hround : binary32.round neg num den =
        binary32.pattern neg (binary32.lastPlace num den * 2 ^ 23 + significand num den) := by
      rw [round, roundMag_eq, Nat.min_eq_left (by omega)]
    have hnearest := finite_pattern_nearest neg num hden (Nat.lt_of_not_le hover) hround
    rw [RoundsTo, if_neg (mt (overflow_iff neg num hden).1 hover)]
    refine ⟨?_, fun q _ => (hnearest q).1, fun q _ => (hnearest q).2⟩
    rw [hround, IsFinite, expField_eq, magnitude_pattern neg (by omega)]
    omega

end

/-- The float that the assembler takes for a decimal literal (R69, LDF). -/
theorem roundsTo_ofRatio (neg : Bool) (num : Nat) {den : Nat} (hden : 0 < den) :
    RoundsTo ((if neg then -1 else 1) * (num : ℚ) / den) (binary32.ofRatio neg num den) := by
  have hunits := roundsTo_round neg (num * binary32.one) hden
  have hvalue : (if neg then -1 else 1) * (((num * binary32.one : Nat) : ℚ) / den) / 2 ^ 149 =
      (if neg then -1 else 1) * (num : ℚ) / den := by
    rw [show binary32.one = 2 ^ 149 from rfl, Nat.cast_mul, Nat.cast_pow, Nat.cast_ofNat]
    field_simp
  rwa [hvalue] at hunits

end Sys2Proof.FloatFormat
end

section
/-! The expansion of a pseudo-instruction (30_encoding.md R69) and the loops of the two bridge sequences
(43_bridge_sequences.md R133, R136) at the parameters of R5. -/

namespace Sys2Proof.Machine

theorem expand_of_wellFormed {c : Config} {p : Pseudo} (h : p.wellFormed c = true) :
    expand c p = some (pseudoCommands c p) := if_pos h

section

variable (size : Nat)

theorem pairBytes_ofSize : (Config.ofSize size).pairBytes = 2 := by
  rw [Config.pairBytes, show (Config.ofSize size).s16Bits = 16 from rfl]

theorem sampleWidth_ofSize : sampleWidth (.ofSize size) = 12 := rfl

theorem sampleBit_ofSize (mb k : Nat) : sampleBit (.ofSize size) mb k = 8 * mb + 12 * k := rfl

theorem pairByte_ofSize (nb k : Nat) : pairByte (.ofSize size) nb k = nb + 2 * k := by
  rw [pairByte, pairBytes_ofSize]

theorem m2nSamples_ofSize (n : Nat) : m2nSamples (.ofSize size) n = 2 * n / 3 := rfl

theorem n2mSamples_ofSize (k : Nat) : n2mSamples (.ofSize size) k = k / 2 := by
  rw [n2mSamples, pairBytes_ofSize]

theorem m2nBody_ofSize (mb nb k : Nat) :
    m2nBody (.ofSize size) mb nb k =
      [.rdfld (BitVec.ofNat 16 (8 * mb + 12 * k)) 12, .s12tof, .ftos16, .sth (BitVec.ofNat 16 (nb + 2 * k))] := by
  rw [m2nBody, sampleBit_ofSize, pairByte_ofSize, sampleWidth_ofSize, addressField, addressField]

theorem n2mBody_ofSize (nb mb i : Nat) :
    n2mBody (.ofSize size) nb mb i =
      [.ldh (BitVec.ofNat 16 (nb + 2 * i)), .s16tof, .ftos12, .wrfld (BitVec.ofNat 16 (8 * mb + 12 * i)) 12] := by
  rw [n2mBody, sampleBit_ofSize, pairByte_ofSize, sampleWidth_ofSize, addressField, addressField]

end

end Sys2Proof.Machine
end

section
/-! The statements of 30_encoding.md. -/

namespace Sys2Proof.Proofs

open Sys2Proof.Machine

/-- Settles O13: the word of a command has its row's `OP`, its operands, and zero must-be-zero fields. -/
theorem decodeOfEncodeIsTheCommand : Obligations.DecodeOfEncodeIsTheCommand := decode_encode

/-- Settles O14: a legal word is its four fields, and those that are no operand are zero. -/
theorem encodeOfDecodeIsTheWord : Obligations.EncodeOfDecodeIsTheWord := fun _ _ => encode_of_decode

/-- Settles O15, by the cases of the decoder; a word matches a row exactly when it has the row's `OP` and its must-be-zero
fields are zero. -/
theorem decodingIsTotalAndFollowsTheOpcodeMap : Obligations.DecodingIsTotalAndFollowsTheOpcodeMap := by
  intro w
  obtain ⟨hop, hw⟩ | ⟨m, hop, hmbz, hw⟩ | ⟨m, hop, hmbz, hw⟩ := decode_cases w
  · have hno : ∀ m : Mnemonic, CommandWord.opField w ≠ m.op := fun m h => by simp [h] at hop
    refine .inr (.inl ⟨hw, fun r _ => hno r.mnemonic, fun r hr hmatch => ?_⟩)
    obtain ⟨m, rfl⟩ := mem_opcodeMap.1 hr
    exact hno m ((matches_row_iff m w).1 hmatch).1
  · have hm := Mnemonic.op_of_ofOp hop
    refine .inr (.inr ⟨hw, ⟨m.row, mem_opcodeMap.2 ⟨m, rfl⟩, hm.symm⟩, fun r hr hmatch => ?_⟩)
    obtain ⟨m', rfl⟩ := mem_opcodeMap.1 hr
    obtain ⟨hop', hmbz'⟩ := (matches_row_iff m' w).1 hmatch
    obtain rfl : m = m' := op_injective (hm.trans hop')
    simp [hmbz] at hmbz'
  · have hm := Mnemonic.op_of_ofOp hop
    refine .inl ⟨_, hw, m.row, mem_opcodeMap.2 ⟨m, rfl⟩, (Mnemonic.mnemonic_build m _ _ _).symm, fun r hr => ?_⟩
    obtain ⟨m', rfl⟩ := mem_opcodeMap.1 hr
    rw [matches_row_iff]
    constructor
    · rintro ⟨hop', -⟩
      rw [op_injective (hm.trans hop')]
    · intro h
      obtain rfl : m' = m := congrArg OpcodeRow.mnemonic h
      exact ⟨hm.symm, hmbz⟩

/-- Settles O17: the operands of a command fit their fields, and a well-formed line has one of the four forms of a row. -/
theorem commandLinesAndCommandsAreInverse : Obligations.CommandLinesAndCommandsAreInverse :=
  ⟨assembleLine_lineOf, fun _ _ => lineOf_of_assembleLine, assembleLine_isSome⟩

/-- Settles O18: a written line splits into the text of its mnemonic and of its operands, and digits read back. -/
theorem printedWordAssemblesBack : Obligations.PrintedWordAssemblesBack := by
  constructor
  · intro c i
    rw [printWord_encode, assembleText_writeLine, assembleLine_lineOf, Option.map_some]
  · intro w why hw
    refine ⟨writeHex 16 w.toNat [], printWord_illegal hw, writeHex_length 16 w.toNat [], ?_⟩
    rw [readDigits_writeHex, readDigits, show 16 ^ 16 = 2 ^ 64 by decide, Nat.mod_eq_of_lt w.isLt]

/-- Settles O19: a well-formed pseudo-instruction expands to its commands, those of a bridge call being the loop of its
body, and the float of a decimal literal is the rounding of the literal. -/
theorem pseudoInstructionsExpandAsTabled : Obligations.PseudoInstructionsExpandAsTabled := by
  intro size c
  refine ⟨fun a ha => ?rd12_wr12, fun x => ?ldf, rfl, rfl, rfl, rfl, fun ms hms => ?clock, rfl, rfl,
    fun mb nb n h => ?m2n, fun nb mb k h => ?n2m⟩
  case rd12_wr12 =>
    exact ⟨expand_of_wellFormed (p := .rd12 a) (decide_eq_true ha),
      expand_of_wellFormed (p := .wr12 a) (decide_eq_true ha)⟩
  case ldf =>
    have hround := FloatFormat.roundsTo_ofRatio x.neg x.digits (Nat.pow_pos (n := x.scale) (show 0 < 10 by decide))
    rw [Nat.cast_pow, Nat.cast_ofNat] at hround
    exact ⟨_, expand_of_wellFormed (p := .ldf x) rfl, hround⟩
  case clock => exact expand_of_wellFormed (p := .clock ms) (decide_eq_true hms)
  case m2n =>
    rw [expand_of_wellFormed (p := .m2n mb nb n) h, pseudoCommands, m2nCommands, m2nSamples_ofSize,
      funext (m2nBody_ofSize size mb nb)]
  case n2m =>
    rw [expand_of_wellFormed (p := .n2m nb mb k) h, pseudoCommands, n2mCommands, n2mSamples_ofSize,
      funext (n2mBody_ofSize size nb mb)]

/-- Settles O16: each example is the word of its command, by the encoder, and so decodes to it. -/
theorem exampleWordsDecode : Obligations.ExampleWordsDecode := by
  have of_encode {w : CommandWord} {i : Instr} (h : encode i = w) : decode w = .ok i ∧ encode i = w :=
    ⟨decode_eq_ok_iff.2 h, h⟩
  exact ⟨of_encode rfl, of_encode rfl, of_encode rfl, of_encode rfl, of_encode rfl, of_encode rfl, of_encode rfl,
    of_encode rfl, of_encode rfl, of_encode rfl⟩

end Sys2Proof.Proofs
end

section
/-! The laws of a bit and of a field of `BUF` as values (40_bitfield.md R80, R87): the integer of a field, and a field
read or written after another is written. -/

namespace Sys2Proof.Machine

namespace State

/-! ### `ACC` has no part in `BUF` -/

@[simp] theorem bitRead_setAcc (s : State) (v : Word32) (b : Nat) : (s.setAcc v).bitRead b = s.bitRead b := rfl

@[simp] theorem fieldRead_setAcc (s : State) (v : Word32) (a n : Nat) : (s.setAcc v).fieldRead a n = s.fieldRead a n :=
  fieldRead_congr (s := s) (t := s.setAcc v) rfl rfl a n

@[simp] theorem fieldWrite_setAcc (s : State) (v x : Word32) (a n : Nat) :
    (s.setAcc v).fieldWrite a x n = (s.fieldWrite a x n).setAcc v := by
  induction n with
  | zero => rfl
  | succ n ih => rw [fieldWrite_succ, fieldWrite_succ, ih]; rfl

/-! ### One bit -/

/-- The bool of WRBIT is the low bit of `ACC` (30_encoding.md R63). -/
theorem accBit_eq_one (s : State) : (s.accBit == 1) = s.acc.getLsbD 0 :=
  (BitVec.getLsbD_eq_extractLsb' s.acc 0).symm

/-- The bit read, zero-extended, is the formula of R80. -/
theorem setWidth_bitRead (s : State) (b : Nat) :
    (BitVec.ofBool (s.bitRead b)).setWidth 32 = ((s.readByte (b / 8) >>> (7 - b % 8)) &&& 1#8).setWidth 32 := by
  rw [BitVec.and_one_eq_setWidth_ofBool_getLsbD, BitVec.getLsbD_ushiftRight, Nat.add_zero, ← bitRead_eq_getLsbD,
    BitVec.setWidth_setWidth (by decide)]

/-- A byte is its eight bits. -/
theorem readByte_eq_of_bitRead {s t : State} {i : Nat} (h : ∀ b, b / 8 = i → t.bitRead b = s.bitRead b) :
    t.readByte i = s.readByte i := by
  refine BitVec.eq_of_getLsbD_eq fun k hk => ?_
  have hbyte : (8 * i + (7 - k)) / 8 = i := by omega
  have hindex : 7 - (8 * i + (7 - k)) % 8 = k := by omega
  have hbit := h (8 * i + (7 - k)) hbyte
  rwa [bitRead_eq_getLsbD, bitRead_eq_getLsbD, hbyte, hindex] at hbit

/-! ### The integer of a field -/

/-- A field reads alike where its bits do. -/
theorem fieldRead_eq_of_bitRead {s t : State} {a n : Nat} (hn : n ≤ 32)
    (h : ∀ j < n, t.bitRead (a + j) = s.bitRead (a + j)) : t.fieldRead a n = s.fieldRead a n := by
  refine BitVec.eq_of_getLsbD_eq fun j _ => ?_
  rw [fieldRead_getLsbD _ _ hn, fieldRead_getLsbD _ _ hn]
  by_cases hj : j < n
  · rw [h j hj]
  · simp [hj]

theorem testBit_fieldRead (s : State) (a : Nat) {n : Nat} (hn : n ≤ 32) (j : Nat) :
    (s.fieldRead a n).toNat.testBit j = (decide (j < n) && s.bitRead (a + j)) := by
  rw [BitVec.testBit_toNat, fieldRead_getLsbD _ _ hn]

theorem fieldRead_toNat_lt (s : State) (a : Nat) {n : Nat} (hn : n ≤ 32) : (s.fieldRead a n).toNat < 2 ^ n := by
  refine Nat.lt_pow_two_of_testBit _ fun j hj => ?_
  rw [testBit_fieldRead _ _ hn, decide_eq_false (Nat.not_lt.2 hj), Bool.false_and]

/-- A field is its two parts, the one at the lower bit index less significant (R87 (f)). -/
theorem fieldRead_add (s : State) (a : Nat) {m n : Nat} (h : m + n ≤ 32) :
    (s.fieldRead a (m + n)).toNat = (s.fieldRead a m).toNat + 2 ^ m * (s.fieldRead (a + m) n).toNat := by
  have hm : m ≤ 32 := by omega
  have hn : n ≤ 32 := by omega
  refine Nat.eq_of_testBit_eq fun j => ?_
  rw [Nat.add_comm (BitVec.toNat _), Nat.testBit_two_pow_mul_add _ (s.fieldRead_toNat_lt a hm),
    testBit_fieldRead _ _ h, testBit_fieldRead _ _ hm, testBit_fieldRead _ _ hn]
  by_cases hj : j < m
  · rw [if_pos hj, decide_eq_true hj, decide_eq_true (by omega)]
  · have hindex : a + m + (j - m) = a + j := by omega
    have hwidth : j - m < n ↔ j < m + n := by omega
    rw [if_neg hj, hindex, decide_eq_decide.2 hwidth]

/-! ### A field after a field -/

/-- A field written is read back (R87 (c)). -/
theorem fieldRead_fieldWrite_self (s : State) (a : Nat) (v : Word32) {n : Nat} (hn : n ≤ 32) :
    ((s.fieldWrite a v n).fieldRead a n).toNat = v.toNat % 2 ^ n := by
  refine Nat.eq_of_testBit_eq fun j => ?_
  rw [testBit_fieldRead _ _ hn, Nat.testBit_mod_two_pow, BitVec.testBit_toNat]
  by_cases hj : j < n
  · rw [bitRead_fieldWrite, if_pos (by omega), Nat.add_sub_cancel_left]
  · simp [hj]

/-- A field written over another state carries the bits of the state it was read from (R87 (d), (g)). -/
theorem bitRead_fieldWrite_fieldRead (s s' : State) (a : Nat) {n : Nat} (hn : n ≤ 32) (b : Nat) :
    (s'.fieldWrite a (s.fieldRead a n) n).bitRead b = if a ≤ b ∧ b < a + n then s.bitRead b else s'.bitRead b := by
  rw [bitRead_fieldWrite]
  refine if_ctx_congr Iff.rfl (fun hb => ?_) fun _ => rfl
  rw [fieldRead_getLsbD _ _ hn, decide_eq_true (by omega), Bool.true_and, Nat.add_sub_cancel' hb.1]

/-- A write leaves what is read of a field with disjoint bits (R87 (e)). -/
theorem fieldRead_fieldWrite_disjoint (s : State) (v : Word32) {a n a' n' : Nat} (hn' : n' ≤ 32)
    (h : a + n ≤ a' ∨ a' + n' ≤ a) : (s.fieldWrite a v n).fieldRead a' n' = s.fieldRead a' n' :=
  fieldRead_eq_of_bitRead hn' fun j _ => by rw [bitRead_fieldWrite, if_neg (by omega)]

/-- Writes of fields with disjoint bits commute (20_memory.md R51). -/
theorem readByte_fieldWrite_comm (s : State) (v v' : Word32) {a n a' n' : Nat}
    (h : a + n ≤ a' ∨ a' + n' ≤ a) (i : Nat) :
    ((s.fieldWrite a v n).fieldWrite a' v' n').readByte i = ((s.fieldWrite a' v' n').fieldWrite a v n).readByte i := by
  refine readByte_eq_of_bitRead fun b _ => ?_
  simp only [bitRead_fieldWrite]
  by_cases hb : a ≤ b ∧ b < a + n
  · have hb' : ¬(a' ≤ b ∧ b < a' + n') := by omega
    rw [if_neg hb', if_pos hb, if_pos hb]
  · rw [if_neg hb, if_neg hb]

/-- A group written with the two samples read from it carries its three bytes (R87 (g)): each of its 24 bits is a bit of one
of the two fields. -/
theorem readByte_repackGroup (s s' : State) (m : Nat) {k : Nat} (hk : k < 3) :
    ((s'.fieldWrite (8 * m) (s.fieldRead (8 * m) 12) 12).fieldWrite (8 * m + 12) (s.fieldRead (8 * m + 12) 12) 12).readByte
      (m + k) = s.readByte (m + k) := by
  refine readByte_eq_of_bitRead fun b hb => ?_
  have h12 : 12 ≤ 32 := by decide
  rw [bitRead_fieldWrite_fieldRead _ _ _ h12, bitRead_fieldWrite_fieldRead _ _ _ h12]
  by_cases hsecond : 8 * m + 12 ≤ b ∧ b < 8 * m + 12 + 12
  · rw [if_pos hsecond]
  · rw [if_neg hsecond, if_pos (by omega)]

end State

/-! ### RDFLD and WRFLD of a 12-bit sample (30_encoding.md R69: RD12, WR12) -/

section

variable {s : State} {b : Nat} (hfit : b < 65536) (hinside : b + 12 ≤ 8 * s.bufBytes)
include hfit hinside

theorem exec_rdfld_sample12 : exec (.rdfld (BitVec.ofNat 16 b) 12) s = .next (s.setAcc (s.fieldRead b 12)) := by
  have hb : (BitVec.ofNat 16 b).toNat = b := Nat.mod_eq_of_lt hfit
  have h := execRdfld_inside (s := s) (a := BitVec.ofNat 16 b) (w := 12) (by decide) (by rw [hb]; exact hinside)
  rwa [hb] at h

theorem exec_wrfld_sample12 : exec (.wrfld (BitVec.ofNat 16 b) 12) s = .next (s.fieldWrite b s.acc 12) := by
  have hb : (BitVec.ofNat 16 b).toNat = b := Nat.mod_eq_of_lt hfit
  have h := execWrfld_inside (s := s) (a := BitVec.ofNat 16 b) (w := 12) (by decide) (by rw [hb]; exact hinside)
  rwa [hb] at h

end

end Sys2Proof.Machine
end

section
/-! The statements of 40_bitfield.md. -/

namespace Sys2Proof.Proofs

open Sys2Proof.Machine

/-- Settles O28: the bit read is the formula of R80. -/
theorem rdbitReadsOneBit : Obligations.RdbitReadsOneBit := by
  refine fun s a => ⟨fun ha => ?_, fun ha => execRdbit_outside ha⟩
  rw [← State.setWidth_bitRead]
  exact execRdbit_inside ha

/-- Settles O29: the bit write alters one bit of one byte. -/
theorem wrbitWritesOneBit : Obligations.WrbitWritesOneBit := by
  refine fun s a => ⟨fun ha => ⟨_, execWrbit_inside ha, rfl, fun i hi => ?_, fun k hk => ?_⟩,
    fun ha => execWrbit_outside ha⟩
  · exact s.readByte_bitWrite_ne _ hi
  · rw [State.readByte_bitWrite_self _ _ _ hk, State.accBit_eq_one]

/-- Settles O30: the bits of the field read, with the width tested before the range. -/
theorem rdfldReadsTheField : Obligations.RdfldReadsTheField := by
  refine fun s a w => ⟨fun hpos hle ha => ⟨_, execRdfld_inside ⟨hpos, hle⟩ ha, fun j _ => ?_⟩,
    fun hw => execRdfld_width (by omega), fun hpos hle ha => execRdfld_outside ⟨hpos, hle⟩ ha⟩
  rw [State.fieldRead_getLsbD _ _ hle, State.bitRead_eq_getLsbD]

/-- Settles O31: the bits of `BUF` after the field is written, with the width tested before the range. -/
theorem wrfldWritesTheField : Obligations.WrfldWritesTheField := by
  refine fun s a w => ⟨fun hpos hle ha => ⟨_, execWrfld_inside ⟨hpos, hle⟩ ha, s.fieldWrite_eq _ _ _, fun b => ?_⟩,
    fun hw => execWrfld_width (by omega), fun hpos hle ha => execWrfld_outside ⟨hpos, hle⟩ ha⟩
  rw [← State.bitRead_eq_getLsbD, ← State.bitRead_eq_getLsbD, State.bitRead_fieldWrite]

/-- Settles O32: a field written is read back, and a field written back over the state it was read from alters no bit. -/
theorem fieldWriteAndReadAreInverse : Obligations.FieldWriteAndReadAreInverse := by
  intro s a w hpos hle ha
  have hw : 1 ≤ w.toNat ∧ w.toNat ≤ 32 := ⟨hpos, hle⟩
  constructor
  · exact ⟨_, _, execWrfld_inside hw ha, execRdfld_inside hw (by simpa using ha), s.fieldRead_fieldWrite_self _ _ hle⟩
  · refine ⟨_, _, execRdfld_inside hw ha, execWrfld_inside hw ha, fun i => ?_⟩
    rw [State.fieldWrite_setAcc, State.readByte_setAcc, State.setAcc_acc]
    refine State.readByte_eq_of_bitRead fun b _ => ?_
    rw [State.bitRead_fieldWrite_fieldRead _ _ _ hle, ite_self]

/-- Settles O33: neither what is read of a field nor what a write leaves depends on a write of disjoint bits before it. -/
theorem disjointFieldsAreIndependent : Obligations.DisjointFieldsAreIndependent := by
  intro s a a' w w' v v' hpos hle hpos' hle' ha ha' hdisjoint
  have hw : 1 ≤ w.toNat ∧ w.toNat ≤ 32 := ⟨hpos, hle⟩
  have hw' : 1 ≤ w'.toNat ∧ w'.toNat ≤ 32 := ⟨hpos', hle'⟩
  constructor
  · exact ⟨_, _, _, execWrfld_inside hw ha, execRdfld_inside hw' (by simpa using ha'), execRdfld_inside hw' ha',
      s.fieldRead_fieldWrite_disjoint _ hle' hdisjoint⟩
  · refine ⟨_, _, _, _, execWrfld_inside (s := s.setAcc v) hw ha,
      execWrfld_inside (s := ((s.setAcc v).fieldWrite a.toNat v w.toNat).setAcc v') hw' (by simpa using ha'),
      execWrfld_inside (s := s.setAcc v') hw' ha',
      execWrfld_inside (s := ((s.setAcc v').fieldWrite a'.toNat v' w'.toNat).setAcc v) hw (by simpa using ha),
      fun i => ?_⟩
    simpa using s.readByte_fieldWrite_comm v v' hdisjoint i

/-- Settles O34: the integer of a field is that of its two parts. -/
theorem fieldIsTheConcatenationOfItsParts : Obligations.FieldIsTheConcatenationOfItsParts := by
  intro s a a' w w1 w2 hpos1 hpos2 hle hcut ha' ha
  refine ⟨_, _, _, execRdfld_inside (by omega) ha, execRdfld_inside (by omega) (by omega),
    execRdfld_inside (by omega) (by omega), ?_⟩
  simp only [State.setAcc_acc, hcut, ha']
  exact s.fieldRead_add _ (hcut ▸ hle)

/-- Settles O36: each bit of the group is a bit of one of the two fields, which carry the bits they were read from. -/
theorem repackingAGroupIsLossless : Obligations.RepackingAGroupIsLossless := by
  intro s s' m hm hfit hsize
  have hfirst : 8 * m < 65536 := by omega
  have hinside : 8 * m + 12 ≤ 8 * s.bufBytes := by omega
  have hinside' : 8 * m + 12 + 12 ≤ 8 * s.bufBytes := by omega
  refine ⟨_, _, _, _, exec_rdfld_sample12 hfirst hinside, exec_rdfld_sample12 hfit hinside',
    exec_wrfld_sample12 (s := s'.setAcc _) hfirst (by simpa [hsize] using hinside),
    exec_wrfld_sample12 (s := State.setAcc _ _) hfit (by simpa [hsize] using hinside'), fun k hk => ?_⟩
  simpa using s.readByte_repackGroup s' m hk

end Sys2Proof.Proofs
end

section
/-! A byte and a byte pair of `BUF` as values (20_memory.md R42; 41_byte_access.md R104): the integer of a pair, its two
bytes, and what is read after a byte or a pair is stored. -/

namespace Sys2Proof.Machine

/-! ### The word of a byte pair -/

theorem toNat_pairWord (h l : Byte) : ((h ++ l).setWidth 32 : Word32).toNat = 256 * h.toNat + l.toNat := by
  rw [BitVec.toNat_setWidth_of_le (by decide), BitVec.toNat_append, ← Nat.shiftLeft_add_eq_or_of_lt l.isLt,
    Nat.shiftLeft_eq, Nat.mul_comm]

theorem pairWord_high (h l : Byte) : ((h ++ l).setWidth 32 : Word32).extractLsb' 8 8 = h :=
  (BitVec.extractLsb'_setWidth_of_le (by decide)).trans BitVec.extractLsb'_append_eq_left

theorem pairWord_low (h l : Byte) : ((h ++ l).setWidth 32 : Word32).extractLsb' 0 8 = l :=
  (BitVec.extractLsb'_setWidth_of_le (by decide)).trans BitVec.extractLsb'_append_eq_right

/-- The two low bytes of a word, as a pair, are its low sixteen bits. -/
theorem toNat_pairWord_extractLsb' (v : Word32) :
    ((v.extractLsb' 8 8 ++ v.extractLsb' 0 8).setWidth 32 : Word32).toNat = v.toNat % 65536 := by
  rw [BitVec.extractLsb'_append_extractLsb'_eq_extractLsb' (show 8 = 0 + 8 from rfl),
    BitVec.toNat_setWidth_of_le (by decide)]
  rfl

/-- The byte pair of the Sample16 in `ACC` is `ACC[15:8]`, `ACC[7:0]` (30_encoding.md R63). -/
theorem sample16Bytes_accSample16 (s : State) :
    sample16Bytes .bigEndian s.accSample16 = [s.acc.extractLsb' 8 8, s.acc.extractLsb' 0 8] := by
  rw [sample16Bytes, State.accSample16, BitVec.extractLsb'_extractLsb'_of_le (by decide),
    BitVec.extractLsb'_extractLsb'_of_le (by decide)]

namespace State

/-- A zero-extended byte in `ACC` is the byte that STB stores (30_encoding.md R63). -/
theorem accByte_setAcc (s : State) (b : Byte) : (s.setAcc (b.setWidth 32)).accByte = b :=
  (BitVec.extractLsb'_setWidth_of_le (by decide)).trans BitVec.extractLsb'_eq_self

/-! ### A byte or a pair after a store -/

/-- What is read after one byte is written. -/
theorem readByte_writeBytes_single (s : State) (a : Nat) (v : Byte) (i : Nat) :
    (s.writeBytes a [v]).readByte i = if i = a then v else s.readByte i := by
  split
  · next h => rw [h]; exact s.readByte_writeByte_self a v
  · next h => exact s.readByte_writeByte_ne v h

/-- What is read after the pair of STH is written: its two bytes, and the old ones elsewhere. -/
theorem readByte_writeBytes_accPair (s : State) (a i : Nat) :
    (s.writeBytes a (sample16Bytes .bigEndian s.accSample16)).readByte i =
      if i = a then s.acc.extractLsb' 8 8 else if i = a + 1 then s.acc.extractLsb' 0 8 else s.readByte i := by
  rw [sample16Bytes_accSample16]
  by_cases hlow : i = a + 1
  · rw [if_neg (by omega), if_pos hlow, hlow]
    exact (s.writeByte a _).readByte_writeByte_self (a + 1) _
  · rw [if_neg hlow, ← readByte_writeBytes_single]
    exact (s.writeByte a _).readByte_writeByte_ne _ hlow

end State

end Sys2Proof.Machine
end

section
/-! The statements of 41_byte_access.md. -/

namespace Sys2Proof.Proofs

open Sys2Proof.Machine

/-- Settles O39: the word of the pair read is the integer of its two bytes. -/
theorem ldhLoadsTheBigEndianPair : Obligations.LdhLoadsTheBigEndianPair := by
  refine fun s a => ⟨fun ha => ?_, fun ha => execLdh_outside ha⟩
  rw [← toNat_pairWord, BitVec.ofNat_toNat, BitVec.setWidth_eq]
  exact execLdh_inside ha

/-- Settles O40: the two bytes written, and every other byte as before. -/
theorem sthStoresTheBigEndianPair : Obligations.SthStoresTheBigEndianPair :=
  fun s a => ⟨fun ha => ⟨_, execSth_inside ha, s.writeBytes_eq _ _, s.readByte_writeBytes_accPair a.toNat⟩,
    fun ha => execSth_outside ha⟩

/-- Settles O41: a pair written is read back and a pair read is written back, byte by byte; the integer of a pair is
that of its two bytes; and a pair is stored as its two bytes are. -/
theorem bytePairLawsHold : Obligations.BytePairLawsHold := by
  intro s a a1 ha ha1
  have hhigh : a.toNat < s.bufBytes := by omega
  have hlow : a1.toNat < s.bufBytes := by omega
  refine ⟨?_, ?_, ?_, ?_⟩
  · refine ⟨_, _, execSth_inside ha, execLdh_inside (by simpa using ha), ?_⟩
    rw [State.setAcc_acc, s.readByte_writeBytes_accPair, s.readByte_writeBytes_accPair, if_pos rfl,
      if_neg (Nat.succ_ne_self _), if_pos rfl, toNat_pairWord_extractLsb']
  · refine ⟨_, _, execLdh_inside ha, execSth_inside ha, fun i => ?_⟩
    rw [State.readByte_writeBytes_accPair, State.setAcc_acc, pairWord_high, pairWord_low, State.readByte_setAcc]
    split
    · next h => rw [h]
    · split
      · next h => rw [h]
      · rfl
  · refine ⟨_, _, _, execLdh_inside ha, execLdb_inside hhigh, execLdb_inside hlow, ?_⟩
    have hword (b : Byte) : (b.setWidth 32).toNat = b.toNat := BitVec.toNat_setWidth_of_le (by decide)
    simp only [State.setAcc_acc, toNat_pairWord, hword, ha1]
  · refine ⟨_, _, _, execSth_inside ha, execStb_inside (s := s.setAcc _) hhigh,
      execStb_inside (s := State.setAcc _ _) (by simpa using hlow), fun i => ?_⟩
    rw [s.readByte_writeBytes_accPair, State.readByte_writeBytes_single, State.readByte_setAcc,
      State.readByte_writeBytes_single, State.readByte_setAcc, State.accByte_setAcc, State.accByte_setAcc, ha1]
    by_cases h : i = a.toNat
    · rw [if_pos h, if_neg (by omega), if_pos h]
    · rw [if_neg h, if_neg h]

/-- Settles O37: one byte is read, on the two sides of the range test. -/
theorem ldbLoadsTheByte : Obligations.LdbLoadsTheByte :=
  fun _ _ => ⟨fun ha => execLdb_inside ha, fun ha => execLdb_outside ha⟩

/-- Settles O38: the byte written, and every other byte as before. -/
theorem stbStoresTheByte : Obligations.StbStoresTheByte :=
  fun s _ => ⟨fun ha => ⟨_, execStb_inside ha, s.writeBytes_eq _ _, s.readByte_writeBytes_single _ _⟩,
    fun ha => execStb_outside ha⟩

end Sys2Proof.Proofs
end

section
/-! What the operations of binary32 answer (42_quantizer.md R110, R122): the kinds of a pattern by its magnitude, each
operation on finite values as one rounding, the values that the format holds, and the error of a rounding. -/

namespace Sys2Proof.FloatMeaning

open Sys2Proof.Machine

/-! ### The kinds of a pattern, by its magnitude -/

theorem magnitude_lt (p : Word32) : magnitude p < 2 ^ 31 := Nat.mod_lt _ (by decide)

theorem isFinite_iff (p : Word32) : IsFinite p ↔ magnitude p < 255 * 2 ^ 23 := by
  have := magnitude_lt p
  rw [IsFinite, expField_eq]
  omega

theorem isInfinite_iff (p : Word32) : IsInfinite p ↔ magnitude p = 255 * 2 ^ 23 := by
  have := magnitude_lt p
  rw [IsInfinite, expField_eq, fraction_eq]
  omega

theorem isNaN_iff (p : Word32) : IsNaN p ↔ 255 * 2 ^ 23 < magnitude p := by
  have := magnitude_lt p
  rw [IsNaN, expField_eq, fraction_eq]
  omega

theorem not_isNaN_iff (p : Word32) : ¬IsNaN p ↔ IsFinite p ∨ IsInfinite p := by
  rw [isNaN_iff, isFinite_iff, isInfinite_iff]
  omega

/-! ### Signed units -/

/-- The signed number of units that a pattern is worth. An infinity counts as 2^128. -/
def units (p : Word32) : ℤ := signedUnits (sign p) (unitsOf (magnitude p))

theorem realValue_eq_units (p : Word32) : realValue p = (units p : ℚ) / 2 ^ 149 := realValue_eq p

theorem natAbs_signedUnits (neg : Bool) (n : Nat) : (signedUnits neg n).natAbs = n := by
  cases neg <;> simp [signedUnits]

/-- The sign that `roundInt` takes for a number and its absolute value make up the number. -/
theorem signedUnits_natAbs (zeroNeg : Bool) (z : ℤ) :
    signedUnits (if z = 0 then zeroNeg else decide (z < 0)) z.natAbs = z := by
  by_cases hz : z = 0
  · cases zeroNeg <;> simp [signedUnits, hz]
  · simp only [signedUnits, if_neg hz, decide_eq_true_eq]
    split <;> omega

theorem signedUnits_mul (neg neg' : Bool) (n n' : Nat) :
    signedUnits (neg ^^ neg') (n * n') = signedUnits neg n * signedUnits neg' n' := by
  cases neg <;> cases neg' <;> simp [signedUnits]

theorem units_pattern (neg : Bool) {mag : Nat} (h : mag < 2 ^ 31) :
    units (FloatFormat.binary32.pattern neg mag) = signedUnits neg (unitsOf mag) := by
  rw [units, sign_pattern neg h, magnitude_pattern neg h]

theorem units_of_isInfinite {p : Word32} (h : IsInfinite p) : units p = signedUnits (sign p) (2 ^ 25 * 2 ^ 252) := by
  rw [units, (isInfinite_iff p).1 h]
  rfl

theorem abs_realValue (p : Word32) : |realValue p| = unitsOf (magnitude p) / 2 ^ 149 := by
  rw [realValue_eq_units, abs_div, ← Int.cast_abs, Int.abs_eq_natAbs, units, natAbs_signedUnits, Int.cast_natCast,
    abs_of_pos (show (0 : ℚ) < 2 ^ 149 by positivity)]

theorem unitsOf_magnitude_ne_zero {p : Word32} (h : realValue p ≠ 0) : unitsOf (magnitude p) ≠ 0 := by
  intro h0
  exact h (abs_eq_zero.1 (by rw [abs_realValue, h0, Nat.cast_zero, zero_div]))

/-- The next magnitude is the next significand in the same last place. -/
theorem unitsOf_mono : Monotone unitsOf := by
  refine monotone_nat_of_le_succ fun n => ?_
  obtain ⟨k, q, hn, hlt, hnormal⟩ : ∃ k q, n = k * 2 ^ 23 + q ∧ q < 2 ^ 24 ∧ (0 < k → 2 ^ 23 ≤ q) :=
    ⟨n / 2 ^ 23 - 1, n - (n / 2 ^ 23 - 1) * 2 ^ 23, by omega, by omega, by omega⟩
  rw [hn, add_assoc, unitsOf_significand hlt.le hnormal,
    unitsOf_significand hlt fun hk => (hnormal hk).trans (Nat.le_succ q)]
  exact Nat.mul_le_mul_right _ (Nat.le_succ q)

theorem abs_realValue_le {p : Word32} (h : IsFinite p) : |realValue p| ≤ 2 ^ 128 - 2 ^ 104 := by
  have hmag : magnitude p ≤ 253 * 2 ^ 23 + (2 ^ 24 - 1) := by
    rw [isFinite_iff] at h
    omega
  have hunits := unitsOf_mono hmag
  rw [unitsOf_significand (by decide) (by decide)] at hunits
  have hunits' : (unitsOf (magnitude p) : ℚ) ≤ 16777215 * 2 ^ 253 := mod_cast hunits
  rw [abs_realValue, div_le_iff₀ (by positivity)]
  exact hunits'.trans_eq (by norm_num)

/-! ### The pattern with its sign changed -/

theorem magnitude_negate (p : Word32) : magnitude (FloatFormat.binary32.negate p) = magnitude p := by
  rw [magnitude, FloatFormat.negate, BitVec.toNat_xor, Nat.xor_mod_two_pow]
  exact Nat.xor_zero _

theorem sign_negate (p : Word32) : sign (FloatFormat.binary32.negate p) = !sign p := by
  simp [sign, FloatFormat.negate, FloatFormat.magBits, FloatFormat.binary32]

theorem isFinite_negate {p : Word32} : IsFinite (FloatFormat.binary32.negate p) ↔ IsFinite p := by
  rw [isFinite_iff, isFinite_iff, magnitude_negate]

theorem realValue_negate (p : Word32) : realValue (FloatFormat.binary32.negate p) = -realValue p := by
  rw [realValue_eq, realValue_eq, magnitude_negate, sign_negate, signedUnits, signedUnits]
  cases sign p <;> simp [neg_div]

end Sys2Proof.FloatMeaning

namespace Sys2Proof.FloatFormat

open Sys2Proof.Machine Sys2Proof.FloatMeaning

/-! ### The value of a pattern, by its kind -/

/-- The model's reading of a pattern is that of R122. -/
theorem value_eq (p : Word32) :
    binary32.value p =
      if expField p = 255 then if fraction p = 0 then .inf (sign p) else .nan
      else .finite (sign p) (unitsOf (magnitude p)) := by
  have hsign : (p.toNat / 2 ^ 31 % 2 == 1) = sign p := by
    rw [sign_eq, Bool.eq_iff_iff, beq_iff_eq, decide_eq_true_iff]
    omega
  have he : p.toNat / 2 ^ 23 % 2 ^ 8 = magnitude p / 2 ^ 23 := by rw [magnitude]; omega
  have hm : p.toNat % 2 ^ 23 = magnitude p % 2 ^ 23 := by rw [magnitude]; omega
  have hsub : magnitude p < 2 ^ 23 ↔ magnitude p / 2 ^ 23 = 0 := by omega
  have hvalue : binary32.value p =
      if magnitude p / 2 ^ 23 = 255 then if magnitude p % 2 ^ 23 = 0 then .inf (sign p) else .nan
      else if magnitude p / 2 ^ 23 = 0 then .finite (sign p) (magnitude p % 2 ^ 23)
      else .finite (sign p) ((2 ^ 23 + magnitude p % 2 ^ 23) * 2 ^ (magnitude p / 2 ^ 23 - 1)) := by
    rw [← hsign, ← he, ← hm]
    rfl
  rw [hvalue, expField_eq, fraction_eq, unitsOf]
  split
  · rfl
  · rw [apply_ite (FloatVal.finite (sign p))]
    split
    · next h => rw [if_pos (hsub.2 h), Nat.mod_eq_of_lt (hsub.2 h)]
    · next h => rw [if_neg (mt hsub.1 h)]

theorem value_of_isFinite {p : Word32} (h : IsFinite p) :
    binary32.value p = .finite (sign p) (unitsOf (magnitude p)) := by
  rw [value_eq, if_neg h]

theorem value_of_isInfinite {p : Word32} (h : IsInfinite p) : binary32.value p = .inf (sign p) := by
  rw [value_eq, if_pos h.1, if_pos h.2]

theorem value_of_isNaN {p : Word32} (h : IsNaN p) : binary32.value p = .nan := by
  rw [value_eq, if_pos h.1, if_neg h.2]

/-! ### The operations on values that are no NaN -/

theorem add_of_isFinite {a b : Word32} (ha : IsFinite a) (hb : IsFinite b) :
    binary32.add a b = binary32.roundInt (sign a && sign b) (units a + units b) := by
  rw [add, value_of_isFinite ha, value_of_isFinite hb]
  rfl

theorem add_of_isInfinite {a b : Word32} (ha : IsInfinite a) (hb : IsFinite b) :
    binary32.add a b = binary32.pattern (sign a) (255 * 2 ^ 23) := by
  rw [add, value_of_isInfinite ha, value_of_isFinite hb]
  rfl

theorem mul_of_isFinite {a b : Word32} (ha : IsFinite a) (hb : IsFinite b) :
    binary32.mul a b =
      binary32.round (sign a ^^ sign b) (unitsOf (magnitude a) * unitsOf (magnitude b)) (2 ^ 149) := by
  rw [mul, value_of_isFinite ha, value_of_isFinite hb]
  rfl

theorem mul_of_isInfinite {a b : Word32} (ha : IsInfinite a) (hb : IsFinite b) (hpos : unitsOf (magnitude b) ≠ 0) :
    binary32.mul a b = binary32.pattern (sign a ^^ sign b) (255 * 2 ^ 23) := by
  rw [mul, value_of_isInfinite ha, value_of_isFinite hb]
  exact if_neg hpos

theorem div_of_isFinite {a b : Word32} (ha : IsFinite a) (hb : IsFinite b) (hpos : unitsOf (magnitude b) ≠ 0) :
    binary32.div a b =
      binary32.round (sign a ^^ sign b) (unitsOf (magnitude a) * 2 ^ 149) (unitsOf (magnitude b)) := by
  rw [div, value_of_isFinite ha, value_of_isFinite hb]
  exact if_neg hpos

theorem isInfinite_add {a b : Word32} (ha : IsInfinite a) (hb : IsFinite b) : IsInfinite (binary32.add a b) := by
  rw [add_of_isInfinite ha hb, isInfinite_iff, magnitude_pattern _ (by decide)]

theorem isInfinite_mul {a b : Word32} (ha : IsInfinite a) (hb : IsFinite b) (hne : realValue b ≠ 0) :
    IsInfinite (binary32.mul a b) := by
  rw [mul_of_isInfinite ha hb (unitsOf_magnitude_ne_zero hne), isInfinite_iff, magnitude_pattern _ (by decide)]

/-! ### Each operation on finite values is one rounding -/

theorem roundsTo_round_units (neg : Bool) (num : Nat) {den : Nat} (hden : 0 < den) :
    RoundsTo ((signedUnits neg num : ℚ) / den / 2 ^ 149) (binary32.round neg num den) := by
  have hround := roundsTo_round neg num hden
  cases neg <;> simpa [signedUnits, neg_div] using hround

theorem roundsTo_roundInt (zeroNeg : Bool) (z : ℤ) : RoundsTo ((z : ℚ) / 2 ^ 149) (binary32.roundInt zeroNeg z) := by
  have hround := roundsTo_round_units (if z = 0 then zeroNeg else decide (z < 0)) z.natAbs one_pos
  rwa [signedUnits_natAbs, Nat.cast_one, div_one] at hround

section

variable {a b : Word32} (ha : IsFinite a) (hb : IsFinite b)
include ha hb

theorem roundsTo_add : RoundsTo (realValue a + realValue b) (binary32.add a b) := by
  rw [add_of_isFinite ha hb, realValue_eq_units, realValue_eq_units, ← add_div, ← Int.cast_add]
  exact roundsTo_roundInt _ _

theorem roundsTo_sub : RoundsTo (realValue a - realValue b) (binary32.sub a b) := by
  rw [sub_eq_add_neg, ← realValue_negate]
  exact roundsTo_add ha (isFinite_negate.2 hb)

theorem roundsTo_mul : RoundsTo (realValue a * realValue b) (binary32.mul a b) := by
  have hround := roundsTo_round_units (sign a ^^ sign b) (unitsOf (magnitude a) * unitsOf (magnitude b))
    (Nat.two_pow_pos 149)
  rw [signedUnits_mul, Int.cast_mul, Nat.cast_pow, Nat.cast_ofNat, mul_div_assoc, mul_div_right_comm] at hround
  rw [realValue_eq, realValue_eq, mul_of_isFinite ha hb]
  exact hround

theorem roundsTo_div (hne : realValue b ≠ 0) : RoundsTo (realValue a / realValue b) (binary32.div a b) := by
  have hb0 := unitsOf_magnitude_ne_zero hne
  have hround := roundsTo_round_units (sign a ^^ sign b) (unitsOf (magnitude a) * 2 ^ 149) (Nat.pos_of_ne_zero hb0)
  have hb0' : (unitsOf (magnitude b) : ℚ) ≠ 0 := mod_cast hb0
  have hquot : realValue a / realValue b =
      (signedUnits (sign a ^^ sign b) (unitsOf (magnitude a) * 2 ^ 149) : ℚ) / unitsOf (magnitude b) / 2 ^ 149 := by
    rw [realValue_eq, realValue_eq, signedUnits_mul, Int.cast_mul]
    cases sign b <;> simp [signedUnits] <;> field_simp <;> norm_num
  rw [hquot, div_of_isFinite ha hb hb0]
  exact hround

end

/-! ### Values that the format holds -/

/-- A whole number is a significand in the last place `2 ^ k` where it has 24 bits, or where there is no lower place. -/
theorem exists_realValue_eq_of_normal {z : ℤ} (hz : z.natAbs ≤ 2 ^ 24) {k : Nat} (hk : k ≤ 252)
    (hnormal : 0 < k → 2 ^ 23 ≤ z.natAbs) : ∃ q, IsFinite q ∧ realValue q = z * 2 ^ k / 2 ^ 149 := by
  refine ⟨binary32.pattern (if z = 0 then false else decide (z < 0)) (k * 2 ^ 23 + z.natAbs), ?_, ?_⟩
  · rw [isFinite_iff, magnitude_pattern _ (by omega)]
    omega
  · have hsigned := signedUnits_mul (if z = 0 then false else decide (z < 0)) false z.natAbs (2 ^ k)
    have hpos : signedUnits false (2 ^ k) = 2 ^ k := by simp [signedUnits]
    rw [Bool.xor_false, signedUnits_natAbs, hpos] at hsigned
    rw [realValue_eq_units, units_pattern _ (by omega), unitsOf_significand hz hnormal, hsigned, Int.cast_mul,
      Int.cast_pow, Int.cast_ofNat]

/-- The format holds every whole number of at most 24 bits, in every last place: a shorter one is shifted down to where
it has 24 bits. -/
theorem exists_realValue_eq {z : ℤ} (hz : z.natAbs ≤ 2 ^ 24) {j : Nat} (hj : j ≤ 252) :
    ∃ q, IsFinite q ∧ realValue q = z * 2 ^ j / 2 ^ 149 := by
  induction j generalizing z with
  | zero => exact exists_realValue_eq_of_normal hz hj (by omega)
  | succ j ih =>
    rcases Nat.lt_or_ge z.natAbs (2 ^ 23) with hsmall | hbig
    · obtain ⟨q, hq, hv⟩ := ih (z := 2 * z) (by omega) (by omega)
      refine ⟨q, hq, ?_⟩
      rw [hv, Int.cast_mul, Int.cast_ofNat]
      ring
    · exact exists_realValue_eq_of_normal hz hj fun _ => hbig

end Sys2Proof.FloatFormat

namespace Sys2Proof.FloatMeaning

variable {x : ℚ} {p q : Word32}

theorem RoundsTo.isFinite (h : RoundsTo x p) (hx : |x| < 2 ^ 128 - 2 ^ 103) : IsFinite p := by
  rw [RoundsTo, if_neg hx.not_ge] at h
  exact h.1

theorem RoundsTo.nearest (h : RoundsTo x p) (hx : |x| < 2 ^ 128 - 2 ^ 103) (hq : IsFinite q) :
    |realValue p - x| ≤ |realValue q - x| := by
  rw [RoundsTo, if_neg hx.not_ge] at h
  exact h.2.1 q hq

/-- A value of the format is its own rounding. -/
theorem RoundsTo.is_exact (h : RoundsTo x p) (hq : IsFinite q) (hx : realValue q = x) : IsFinite p ∧ realValue p = x := by
  have hsmall : |x| < 2 ^ 128 - 2 ^ 103 := by
    rw [← hx]
    exact (abs_realValue_le hq).trans_lt (by norm_num)
  have hnear := h.nearest hsmall hq
  rw [hx, sub_self, abs_zero] at hnear
  exact ⟨h.isFinite hsmall, sub_eq_zero.1 (abs_nonpos_iff.1 hnear)⟩

/-- The multiple of `2 ^ e / 2 ^ 24` nearest to a number below `2 ^ e` is a value of the format. -/
theorem exists_isFinite_near {e : Nat} (he : e ≤ 127) (hx : |x| < 2 ^ e) :
    ∃ q, IsFinite q ∧ |realValue q - x| ≤ 2 ^ e / 2 ^ 25 := by
  have hE : (0 : ℚ) < 2 ^ e := by positivity
  have hround := abs_sub_round (x / 2 ^ e * 2 ^ 24)
  set z := round (x / 2 ^ e * 2 ^ 24)
  have hx' : |x / 2 ^ e * 2 ^ 24| < 2 ^ 24 := by
    rw [abs_mul, abs_div, abs_of_pos hE, abs_of_pos (show (0 : ℚ) < 2 ^ 24 by positivity)]
    exact mul_lt_of_lt_one_left (by positivity) ((div_lt_one hE).2 hx)
  have hz : (z.natAbs : ℚ) < (2 ^ 24 + 1 : Nat) := by
    have htri := abs_sub_abs_le_abs_sub (z : ℚ) (x / 2 ^ e * 2 ^ 24)
    rw [abs_sub_comm] at htri
    rw [Nat.cast_natAbs, Int.cast_abs]
    push_cast
    linarith
  obtain ⟨q, hq, hv⟩ :=
    FloatFormat.exists_realValue_eq (Nat.lt_succ_iff.1 (Nat.cast_lt.1 hz)) (j := e + 125) (by omega)
  have hdist : realValue q - x = -(x / 2 ^ e * 2 ^ 24 - z) * (2 ^ e / 2 ^ 24) := by
    rw [hv, pow_add]
    field_simp
    ring
  refine ⟨q, hq, ?_⟩
  rw [hdist, abs_mul, abs_neg, abs_of_pos (show (0 : ℚ) < 2 ^ e / 2 ^ 24 by positivity)]
  calc _ ≤ 1 / 2 * (2 ^ e / 2 ^ 24 : ℚ) := by gcongr
    _ = _ := by ring

/-- The error of a rounding is at most half a unit in the last place, 24 bits below the power of two that bounds it. -/
theorem RoundsTo.near {e : Nat} (h : RoundsTo x p) (he : e ≤ 127) (hx : |x| < 2 ^ e) :
    IsFinite p ∧ |realValue p - x| ≤ 2 ^ e / 2 ^ 25 := by
  have hpow : (2 : ℚ) ^ e ≤ 2 ^ 127 := pow_le_pow_right₀ one_le_two he
  have hsmall : |x| < 2 ^ 128 - 2 ^ 103 := hx.trans_le (hpow.trans (by norm_num))
  obtain ⟨q, hq, hnear⟩ := exists_isFinite_near he hx
  exact ⟨h.isFinite hsmall, (h.nearest hsmall hq).trans hnear⟩

end Sys2Proof.FloatMeaning

namespace Sys2Proof.FloatFormat

open Sys2Proof.Machine Sys2Proof.FloatMeaning

/-! ### The constants (R110) and the small sums -/

theorem realValue_ofRatio {n k : Nat} (hn : n ≤ 2 ^ 24) (hk : k ≤ 149) :
    IsFinite (binary32.ofRatio false n (2 ^ k)) ∧ realValue (binary32.ofRatio false n (2 ^ k)) = n / 2 ^ k := by
  obtain ⟨q, hq, hv⟩ := exists_realValue_eq (z := n) (j := 149 - k) hn (by omega)
  have hround := roundsTo_ofRatio false n (Nat.two_pow_pos k)
  rw [if_neg Bool.false_ne_true, one_mul, Nat.cast_pow, Nat.cast_ofNat] at hround
  refine hround.is_exact hq ?_
  rw [hv, Int.cast_natCast, pow_sub₀ _ two_ne_zero hk]
  field_simp

theorem realValue_ofNat {n : Nat} (h : n ≤ 2 ^ 24) :
    IsFinite (binary32.ofNat n) ∧ realValue (binary32.ofNat n) = n := by
  have hexact := realValue_ofRatio (k := 0) h (by decide)
  rwa [pow_zero, pow_zero, div_one] at hexact

theorem realValue_one : IsFinite (binary32.ofNat 1) ∧ realValue (binary32.ofNat 1) = 1 := by
  have hexact := realValue_ofNat (n := 1) (by decide)
  rwa [Nat.cast_one] at hexact

theorem realValue_floatHalf : IsFinite (floatHalf .binary32) ∧ realValue (floatHalf .binary32) = 1 / 2 := by
  have hexact := realValue_ofRatio (n := 1) (k := 1) (by decide) (by decide)
  rwa [Nat.cast_one, pow_one] at hexact

theorem abs_one_le : |realValue (binary32.ofNat 1)| ≤ 1 := by
  rw [realValue_one.2, abs_one]

theorem abs_floatHalf_le : |realValue (floatHalf .binary32)| ≤ 1 := by
  rw [realValue_floatHalf.2]
  norm_num [abs_of_pos]

theorem realValue_negZero : realValue 0x80000000 = 0 := by
  rw [realValue_eq_units, show units 0x80000000 = 0 by decide, Int.cast_zero, zero_div]

theorem units_ofNat {n : Nat} (h : n ≤ 2 ^ 24) : units (binary32.ofNat n) = n * 2 ^ 149 := by
  have hvalue := (realValue_ofNat h).2
  rw [realValue_eq_units, div_eq_iff (by positivity)] at hvalue
  exact_mod_cast hvalue

/-- The patterns that R110 gives. -/
theorem constant_patterns :
    binary32.ofNat 1 = 0x3F800000 ∧ floatHalf .binary32 = 0x3F000000 ∧ binary32.ofNat 2048 = 0x45000000 ∧
      binary32.ofNat 32767 = 0x46FFFE00 := by decide +kernel

/-- No finite value is so large that adding a small one overflows. -/
theorem isFinite_add {a b : Word32} (ha : IsFinite a) (hb : IsFinite b) (hsmall : |realValue b| ≤ 1) :
    IsFinite (binary32.add a b) :=
  (roundsTo_add ha hb).isFinite <|
    calc _ ≤ |realValue a| + |realValue b| := abs_add_le _ _
      _ ≤ (2 ^ 128 - 2 ^ 104) + 1 := add_le_add (abs_realValue_le ha) hsmall
      _ < _ := by norm_num

end Sys2Proof.FloatFormat
end

section
/-! The operations are non-decreasing (42_quantizer.md R118), an infinity counting as the value 2^128: each is a
non-decreasing function of magnitudes, taken to signed numbers, of the units of its operand. -/

namespace Sys2Proof.FloatFormat

open Sys2Proof.Machine Sys2Proof.FloatMeaning

/-! ### Functions of magnitudes, on signed numbers -/

/-- A function of magnitudes taken to signed numbers: the sign stays. -/
def mirror (g : Nat → Nat) (z : ℤ) : ℤ := signedUnits (decide (z < 0)) (g z.natAbs)

theorem mirror_mono {g : Nat → Nat} (hg : Monotone g) : Monotone (mirror g) := by
  intro z w hzw
  simp only [mirror, signedUnits, decide_eq_true_eq]
  have hpos := @hg z.natAbs w.natAbs
  have hneg := @hg w.natAbs z.natAbs
  split <;> split <;> omega

theorem mirror_signedUnits {g : Nat → Nat} (h0 : g 0 = 0) (neg : Bool) (n : Nat) :
    mirror g (signedUnits neg n) = signedUnits neg (g n) := by
  rcases Nat.eq_zero_or_pos n with rfl | hn
  · cases neg <;> simp [mirror, signedUnits, h0]
  · rw [mirror, natAbs_signedUnits]
    congr 1
    cases neg <;> simp [signedUnits, hn]

/-! ### Rounding -/

theorem roundMag_mono {den : Nat} (hden : 0 < den) : Monotone (binary32.roundMag · den) := by
  intro a b hab
  have hk : binary32.lastPlace a den ≤ binary32.lastPlace b den := by
    simp only [lastPlace, Nat.log2_eq_log_two]
    gcongr
  dsimp only
  rw [roundMag_eq, roundMag_eq]
  refine min_le_min_right _ ?_
  rcases hk.eq_or_lt with heq | hlt
  · rw [significand, significand, heq]
    exact Nat.add_le_add_left (roundHalfEven_mono _ hab) _
  · have hq := significand_le a hden
    have hq' := le_significand b hden (by omega)
    omega

theorem roundMag_zero (den : Nat) : binary32.roundMag 0 den = 0 := by
  simp [roundMag, lastPlace, roundHalfEven]

theorem roundMag_le (num den : Nat) : binary32.roundMag num den ≤ 255 * 2 ^ 23 := min_le_right _ _

/-- From the overflow threshold on, the rounding is infinity. -/
theorem roundMag_of_huge {num den : Nat} (hden : 0 < den) (h : (2 ^ 25 - 1) * (den * 2 ^ 252) ≤ num) :
    binary32.roundMag num den = 255 * 2 ^ 23 := by
  rw [roundMag_eq, Nat.min_eq_right ((infMag_le_iff num hden).2 h)]

/-- What the rounding of `num / den` units is worth. -/
def roundedUnits (den num : Nat) : Nat := unitsOf (binary32.roundMag num den)

theorem roundedUnits_mono {den : Nat} (hden : 0 < den) : Monotone (roundedUnits den) :=
  unitsOf_mono.comp (roundMag_mono hden)

theorem roundedUnits_zero (den : Nat) : roundedUnits den 0 = 0 := by
  rw [roundedUnits, roundMag_zero]
  rfl

theorem units_round (neg : Bool) (num den : Nat) :
    units (binary32.round neg num den) = mirror (roundedUnits den) (signedUnits neg num) := by
  have hmag := roundMag_le num den
  rw [round, units_pattern _ (by omega), mirror_signedUnits (roundedUnits_zero den), roundedUnits]

theorem units_roundInt (zeroNeg : Bool) (z : ℤ) :
    units (binary32.roundInt zeroNeg z) = mirror (roundedUnits 1) z := by
  rw [roundInt, units_round, signedUnits_natAbs]

theorem not_isNaN_round (neg : Bool) (num den : Nat) : ¬IsNaN (binary32.round neg num den) := by
  have hmag := roundMag_le num den
  rw [isNaN_iff, round, magnitude_pattern _ (by omega)]
  omega

/-! ### The operations -/

theorem natAbs_units_le {p : Word32} (h : |realValue p| ≤ 1) : (units p).natAbs ≤ 2 ^ 149 := by
  rw [abs_realValue, div_le_one (by positivity)] at h
  rw [units, natAbs_signedUnits]
  exact_mod_cast h

/-- A sum with a small finite value is the rounding of the sum of the units, an infinity counting as 2^128. -/
theorem add_eq_roundInt {a b : Word32} (ha : ¬IsNaN a) (hb : IsFinite b) (hsmall : |realValue b| ≤ 1) :
    ∃ zeroNeg, binary32.add a b = binary32.roundInt zeroNeg (units a + units b) := by
  obtain hfin | hinf := (not_isNaN_iff a).1 ha
  · exact ⟨_, add_of_isFinite hfin hb⟩
  have hb' := natAbs_units_le hsmall
  have ha' := units_of_isInfinite hinf
  obtain ⟨hne, hsign, hhuge⟩ : units a + units b ≠ 0 ∧ decide (units a + units b < 0) = sign a ∧
      (2 ^ 25 - 1) * (1 * 2 ^ 252) ≤ (units a + units b).natAbs := by
    rw [ha']
    cases sign a <;> simp [signedUnits] <;> omega
  refine ⟨false, ?_⟩
  rw [add_of_isInfinite hinf hb, roundInt, if_neg hne, hsign, round, roundMag_of_huge one_pos hhuge]

/-- A product with a finite value of at least 1 is the rounding of the product of the units, an infinity counting as
2^128. -/
theorem mul_eq_round {a b : Word32} (ha : ¬IsNaN a) (hb : IsFinite b) (hlarge : 1 ≤ realValue b) :
    binary32.mul a b =
      binary32.round (sign a ^^ sign b) (unitsOf (magnitude a) * unitsOf (magnitude b)) (2 ^ 149) := by
  obtain hfin | hinf := (not_isNaN_iff a).1 ha
  · exact mul_of_isFinite hfin hb
  have hunits : 2 ^ 149 ≤ unitsOf (magnitude b) := by
    have h := hlarge.trans (le_abs_self _)
    rw [abs_realValue, one_le_div (by positivity)] at h
    exact_mod_cast h
  have hinf' : unitsOf (magnitude a) = 2 ^ 25 * 2 ^ 252 := by
    rw [(isInfinite_iff a).1 hinf]
    rfl
  have hhuge : (2 ^ 25 - 1) * (2 ^ 149 * 2 ^ 252) ≤ unitsOf (magnitude a) * unitsOf (magnitude b) :=
    calc (2 ^ 25 - 1) * (2 ^ 149 * 2 ^ 252) ≤ 2 ^ 25 * 2 ^ 252 * 2 ^ 149 := by norm_num
      _ ≤ _ := by rw [hinf']; gcongr
  rw [mul_of_isInfinite hinf hb (by omega), round, roundMag_of_huge (Nat.two_pow_pos 149) hhuge]

/-- An operation on values that are no NaN, the infinities among them, that is non-decreasing. -/
structure KeepsOrder (op : Word32 → Word32) : Prop where
  not_isNaN {a : Word32} : ¬IsNaN a → ¬IsNaN (op a)
  units_le {a b : Word32} : ¬IsNaN a → ¬IsNaN b → units a ≤ units b → units (op a) ≤ units (op b)

theorem KeepsOrder.comp {f g : Word32 → Word32} (hg : KeepsOrder g) (hf : KeepsOrder f) :
    KeepsOrder fun a => g (f a) where
  not_isNaN ha := hg.not_isNaN (hf.not_isNaN ha)
  units_le ha hb h := hg.units_le (hf.not_isNaN ha) (hf.not_isNaN hb) (hf.units_le ha hb h)

theorem keepsOrder_add {c : Word32} (hc : IsFinite c) (hsmall : |realValue c| ≤ 1) :
    KeepsOrder fun a => binary32.add a c where
  not_isNaN ha := by
    obtain ⟨_, hadd⟩ := add_eq_roundInt ha hc hsmall
    rw [hadd]
    exact not_isNaN_round _ _ _
  units_le ha hb h := by
    obtain ⟨_, hadd⟩ := add_eq_roundInt ha hc hsmall
    obtain ⟨_, hadd'⟩ := add_eq_roundInt hb hc hsmall
    rw [hadd, hadd', units_roundInt, units_roundInt]
    exact mirror_mono (roundedUnits_mono one_pos) (by omega)

theorem keepsOrder_mul {c : Word32} (hc : IsFinite c) (hlarge : 1 ≤ realValue c) :
    KeepsOrder fun a => binary32.mul a c where
  not_isNaN ha := by
    rw [mul_eq_round ha hc hlarge]
    exact not_isNaN_round _ _ _
  units_le ha hb h := by
    have hpos : 0 ≤ units c := by
      have h0 : (0 : ℚ) ≤ units c / 2 ^ 149 := realValue_eq_units c ▸ zero_le_one.trans hlarge
      rw [le_div_iff₀ (by positivity), zero_mul] at h0
      exact_mod_cast h0
    rw [mul_eq_round ha hc hlarge, mul_eq_round hb hc hlarge, units_round, units_round, signedUnits_mul,
      signedUnits_mul]
    exact mirror_mono (roundedUnits_mono (Nat.two_pow_pos 149)) (Int.mul_le_mul_of_nonneg_right h hpos)

/-- Division by a positive finite value is non-decreasing on the finite values, and gives no NaN. -/
theorem units_div_mono {a b c : Word32} (ha : IsFinite a) (hb : IsFinite b) (hc : IsFinite c) (hpos : 0 < units c)
    (h : units a ≤ units b) :
    ¬IsNaN (binary32.div a c) ∧ ¬IsNaN (binary32.div b c) ∧ units (binary32.div a c) ≤ units (binary32.div b c) := by
  have hsign : sign c = false := by
    rw [units, signedUnits] at hpos
    split at hpos
    · omega
    · exact Bool.eq_false_iff.2 ‹_›
  have hc0 : 0 < unitsOf (magnitude c) := by
    rw [units, signedUnits, hsign, if_neg Bool.false_ne_true] at hpos
    exact_mod_cast hpos
  have hdiv {a : Word32} (ha : IsFinite a) :
      units (binary32.div a c) = mirror (roundedUnits (unitsOf (magnitude c))) (units a * 2 ^ 149) := by
    rw [div_of_isFinite ha hc hc0.ne', units_round, signedUnits_mul, hsign, units]
    rfl
  have hnan {a : Word32} (ha : IsFinite a) : ¬IsNaN (binary32.div a c) := by
    rw [div_of_isFinite ha hc hc0.ne']
    exact not_isNaN_round _ _ _
  refine ⟨hnan ha, hnan hb, ?_⟩
  rw [hdiv ha, hdiv hb]
  exact mirror_mono (roundedUnits_mono hc0) (Int.mul_le_mul_of_nonneg_right h (by positivity))

/-! ### The whole part of a value -/

/-- The whole part of a value, its fraction discarded. -/
def wholePart (p : Word32) : ℤ := mirror (· / 2 ^ 149) (units p)

theorem wholePart_mono {p q : Word32} (h : units p ≤ units q) : wholePart p ≤ wholePart q :=
  mirror_mono (fun _ _ => Nat.div_le_div_right) h

theorem wholePart_eq (p : Word32) : wholePart p = binary32.truncate (sign p) (unitsOf (magnitude p)) :=
  mirror_signedUnits (g := (· / 2 ^ 149)) rfl _ _

/-- An infinity counts as 2^128, which is outside every range of integers that a word holds. -/
theorem wholePart_outside_of_isInfinite {limit : Nat} (hlimit : limit < 2 ^ 32) {p : Word32} (h : IsInfinite p) :
    wholePart p < 0 ∨ (limit : ℤ) < wholePart p := by
  rw [wholePart_eq, (isInfinite_iff p).1 h]
  cases sign p
  · exact .inr (Int.ofNat_lt.2 (hlimit.trans (by decide)))
  · exact .inl (by decide)

theorem truncToward_realValue (p : Word32) : truncToward (realValue p) = wholePart p := by
  have hval : realValue p = (units p : ℚ) / (2 ^ 149 : Nat) := by rw [realValue_eq_units, Nat.cast_pow, Nat.cast_ofNat]
  have hsign : 0 ≤ realValue p ↔ ¬units p < 0 := by
    rw [hval, le_div_iff₀ (by positivity), zero_mul, not_lt, Int.cast_nonneg_iff]
  rw [wholePart, mirror, signedUnits, truncToward]
  by_cases h : units p < 0
  · rw [if_neg (by rwa [hsign, not_not]), if_pos (decide_eq_true h), hval, Rat.ceil_intCast_div_natCast]
    omega
  · rw [if_pos (hsign.2 h), if_neg (by simpa using h), hval, Rat.floor_intCast_div_natCast]
    omega

/-! ### The order of the patterns -/

/-- The place of a pattern in the order of the values: its magnitude, with its sign. -/
def rank (p : Word32) : ℤ := signedUnits (sign p) (magnitude p)

theorem units_mono {p q : Word32} (h : rank p ≤ rank q) : units p ≤ units q := by
  have hm := mirror_mono unitsOf_mono h
  rwa [rank, rank, mirror_signedUnits rfl, mirror_signedUnits rfl] at hm

theorem rank_eq (f : Word32) : rank f = if 2 ^ 31 ≤ f.toNat then -((f.toNat - 2 ^ 31 : Nat) : ℤ) else f.toNat := by
  have := f.isLt
  rw [rank, signedUnits, sign_eq, magnitude]
  simp only [decide_eq_true_eq]
  split <;> omega

/-- The operands from `-lo` to `hi`, as two ranges of patterns. -/
theorem rank_mem_iff (f : Word32) {lo hi : Nat} (hlo : lo < 2 ^ 31) (hhi : hi < 2 ^ 31) :
    (f.toNat ≤ hi ∨ 2 ^ 31 ≤ f.toNat ∧ f.toNat ≤ 2 ^ 31 + lo) ↔ -(lo : ℤ) ≤ rank f ∧ rank f ≤ hi := by
  rw [rank_eq]
  split <;> omega

theorem not_isNaN_iff_rank (f : Word32) : ¬IsNaN f ↔ (rank f).natAbs ≤ 255 * 2 ^ 23 := by
  rw [rank, natAbs_signedUnits, isNaN_iff, not_lt]

theorem rank_pattern (neg : Bool) {mag : Nat} (h : mag < 2 ^ 31) :
    rank (binary32.pattern neg mag) = signedUnits neg mag := by
  rw [rank, sign_pattern neg h, magnitude_pattern neg h]

theorem not_isNaN_pattern (neg : Bool) {mag : Nat} (h : mag ≤ 255 * 2 ^ 23) : ¬IsNaN (binary32.pattern neg mag) := by
  rw [isNaN_iff, magnitude_pattern neg (by omega)]
  omega

end Sys2Proof.FloatFormat
end

section
/-! The four formulas of the quantizer (42_quantizer.md R112 to R115), their laws and the two composed paths (R116 to
R119), as functions of patterns. -/

namespace Sys2Proof.FloatFormat

open Sys2Proof.Machine Sys2Proof.FloatMeaning

/-! ### The two sample-to-float formulas -/

theorem sample12ToFloat_ofSize (size s : Nat) :
    sample12ToFloat (.ofSize size) s =
      binary32.div (binary32.sub (binary32.ofNat s) (binary32.ofNat 2048)) (binary32.ofNat 2048) := rfl

theorem sample16ToFloat_ofSize (size s : Nat) :
    sample16ToFloat (.ofSize size) s =
      binary32.sub (binary32.div (binary32.ofNat s) (binary32.ofNat 32767)) (binary32.ofNat 1) := rfl

/-- Both operations of S12TOF are exact (R112): the difference and the quotient are values of the format. -/
theorem sample12ToFloat_exact (size : Nat) {s : Nat} (hs : s ≤ 4095) :
    IsFinite (sample12ToFloat (.ofSize size) s) ∧
      realValue (sample12ToFloat (.ofSize size) s) = ((s : ℚ) - 2048) / 2048 := by
  have hvalue {j : Nat} := exists_realValue_eq (z := (s : ℤ) - 2048) (j := j) (by omega)
  obtain ⟨hs, hs'⟩ := realValue_ofNat (n := s) (by omega)
  obtain ⟨hk, hk'⟩ := realValue_ofNat (n := 2048) (by decide)
  rw [Nat.cast_ofNat] at hk'
  have hsub := roundsTo_sub hs hk
  obtain ⟨q, hq, hv⟩ := hvalue (j := 149) (by decide)
  obtain ⟨hd, hd'⟩ := hsub.is_exact hq (by rw [hv, hs', hk']; simp)
  have hdiv := roundsTo_div hd hk (by rw [hk']; norm_num)
  obtain ⟨q, hq, hv⟩ := hvalue (j := 138) (by decide)
  obtain ⟨hp, hp'⟩ := hdiv.is_exact hq (by rw [hv, hd', hs', hk']; push_cast; norm_num; ring)
  refine ⟨hp, ?_⟩
  rw [← hs', ← hk', ← hd']
  exact hp'.trans (by rw [hd'])

/-- The one zero that S12TOF answers, for 2048, is +0.0. -/
theorem sample12ToFloat_ne_negZero (size : Nat) {s : Nat} (hs : s ≤ 4095) :
    sample12ToFloat (.ofSize size) s ≠ 0x80000000 := by
  intro h
  have hexact := (sample12ToFloat_exact size hs).2
  have hmid : sample12ToFloat (.ofSize size) 2048 = 0 := by
    rw [sample12ToFloat_ofSize]
    decide +kernel
  rw [h, realValue_negZero, eq_comm, div_eq_zero_iff, sub_eq_zero, or_iff_left (by norm_num)] at hexact
  obtain rfl : s = 2048 := mod_cast hexact
  exact absurd (hmid.symm.trans h) (by decide)

/-- S16TOF rounds twice (R114), to a float that is near to the exact one. -/
theorem sample16ToFloat_rounds (size : Nat) {s : Nat} (hs : s ≤ 65535) :
    ∃ q, RoundsTo ((s : ℚ) / 32767) q ∧ RoundsTo (realValue q - 1) (sample16ToFloat (.ofSize size) s) ∧ IsFinite q ∧
      IsFinite (sample16ToFloat (.ofSize size) s) ∧
      |realValue (sample16ToFloat (.ofSize size) s) - ((s : ℚ) / 32767 - 1)| ≤ 1 / 2 ^ 22 := by
  obtain ⟨hsample, hsample'⟩ := realValue_ofNat (n := s) (by omega)
  obtain ⟨hk, hk'⟩ := realValue_ofNat (n := 32767) (by decide)
  obtain ⟨hone, hone'⟩ := realValue_one
  rw [Nat.cast_ofNat] at hk'
  have hq := roundsTo_div hsample hk (by rw [hk']; norm_num)
  rw [hsample', hk'] at hq
  have hquot : (s : ℚ) / 32767 ≤ 3 := by
    rw [div_le_iff₀ (by norm_num)]
    exact_mod_cast hs.trans (by decide)
  have hquot' : (0 : ℚ) ≤ s / 32767 := by positivity
  obtain ⟨hqfin, hqerr⟩ := hq.near (e := 2) (by decide) (by rw [abs_lt]; constructor <;> linarith)
  have hp := roundsTo_sub hqfin hone
  rw [hone'] at hp
  rw [abs_le] at hqerr
  obtain ⟨hpfin, hperr⟩ := hp.near (e := 2) (by decide) (by rw [abs_lt]; constructor <;> linarith)
  rw [← sample16ToFloat_ofSize size s] at hp hpfin hperr
  refine ⟨_, hq, hp, hqfin, hpfin, ?_⟩
  rw [abs_le] at hperr ⊢
  constructor <;> linarith

/-- The one zero that S16TOF answers, for 32767, is +0.0. -/
theorem sample16ToFloat_ne_negZero (size : Nat) {s : Nat} (hs : s ≤ 65535) :
    sample16ToFloat (.ofSize size) s ≠ 0x80000000 := by
  intro h
  obtain ⟨_, -, -, -, -, hnear⟩ := sample16ToFloat_rounds size hs
  have hmid : sample16ToFloat (.ofSize size) 32767 = 0 := by
    rw [sample16ToFloat_ofSize]
    decide +kernel
  rw [h, realValue_negZero, abs_le] at hnear
  have hlow : (s : ℚ) < (32768 : Nat) := by push_cast; linarith
  have hhigh : ((32766 : Nat) : ℚ) < s := by push_cast; linarith
  obtain rfl : s = 32767 := by
    have := Nat.cast_lt.1 hlow
    have := Nat.cast_lt.1 hhigh
    omega
  exact absurd (hmid.symm.trans h) (by decide)

/-- S16TOF is non-decreasing: so is each of its operations. -/
theorem units_sample16ToFloat_mono (size size' : Nat) {s t : Nat} (hst : s ≤ t) (ht : t ≤ 65535) :
    units (sample16ToFloat (.ofSize size) s) ≤ units (sample16ToFloat (.ofSize size') t) := by
  have hofNat {n : Nat} (h : n ≤ 65535) := realValue_ofNat (show n ≤ 2 ^ 24 by omega)
  have hk : 0 < units (binary32.ofNat 32767) := by
    rw [units_ofNat (by decide)]
    decide
  have hle : units (binary32.ofNat s) ≤ units (binary32.ofNat t) := by
    rw [units_ofNat (by omega), units_ofNat (by omega)]
    omega
  obtain ⟨hnan, hnan', hdiv⟩ :=
    units_div_mono (hofNat (hst.trans ht)).1 (hofNat ht).1 (hofNat (n := 32767) (by decide)).1 hk hle
  have hsub := keepsOrder_add (isFinite_negate.2 realValue_one.1) (by rw [realValue_negate, abs_neg]; exact abs_one_le)
  exact hsub.units_le hnan hnan' hdiv

/-! ### The two float-to-sample formulas -/

/-- The integer of the two float-to-sample formulas before the range test (R111). -/
def sampleOf (scale : Nat) (f : Word32) : ℤ := wholePart (scaledSum .binary32 scale f)

theorem floatToSample_of_isNaN {scale limit : Nat} {f : Word32} (hf : IsNaN f) :
    floatToSample .binary32 scale limit f = none := by
  rw [floatToSample, value_of_isNaN hf]

/-- What the lemmas about the float-to-sample formulas ask of the scale and the limit. -/
structure Scaling (scale limit : Nat) : Prop where
  pos : 1 ≤ scale
  le : scale ≤ 32767
  limit_lt : limit < 2 ^ 32

/-- The constants of FTOS12 (R113). -/
theorem Scaling.ftos12 : Scaling 2048 4096 := ⟨by decide, by decide, by decide⟩

/-- The constants of FTOS16 (R115). -/
theorem Scaling.ftos16 : Scaling 32767 65535 := ⟨by decide, by decide, by decide⟩

namespace Scaling

variable {scale limit : Nat} {f : Word32} (h : Scaling scale limit)
include h

theorem factor : IsFinite (binary32.ofNat scale) ∧ realValue (binary32.ofNat scale) = scale :=
  realValue_ofNat (h.le.trans (by decide))

theorem one_le_factor : 1 ≤ realValue (binary32.ofNat scale) := by
  rw [h.factor.2]
  exact_mod_cast h.pos

/-- The sum of the two formulas is non-decreasing. -/
theorem keepsOrder : KeepsOrder (scaledSum .binary32 scale) :=
  (keepsOrder_add realValue_floatHalf.1 abs_floatHalf_le).comp
    ((keepsOrder_mul h.factor.1 h.one_le_factor).comp (keepsOrder_add realValue_one.1 abs_one_le))

theorem sampleOf_mono {f g : Word32} (hf : ¬IsNaN f) (hg : ¬IsNaN g) (hle : units f ≤ units g) :
    sampleOf scale f ≤ sampleOf scale g :=
  wholePart_mono (h.keepsOrder.units_le hf hg hle)

/-- The formula is the whole part of the sum and its range test. -/
theorem floatToSample_eq (hf : ¬IsNaN f) :
    floatToSample .binary32 scale limit f =
      if sampleOf scale f < 0 ∨ (limit : ℤ) < sampleOf scale f then none else some (sampleOf scale f).toNat := by
  have hinput : binary32.value f ≠ .nan := by
    obtain hfin | hinf := (not_isNaN_iff f).1 hf
    · simp [value_of_isFinite hfin]
    · simp [value_of_isInfinite hinf]
  obtain hfin | hinf := (not_isNaN_iff _).1 (h.keepsOrder.not_isNaN hf)
  · rw [sampleOf, wholePart_eq]
    unfold floatToSample
    rw [value_of_isFinite hfin]
    split
    · next hnan => exact absurd hnan hinput
    · rfl
    · rfl
  · rw [sampleOf, if_pos (wholePart_outside_of_isInfinite h.limit_lt hinf)]
    unfold floatToSample
    rw [value_of_isInfinite hinf]
    split <;> rfl

/-- A NaN and an infinity fault (R119). -/
theorem floatToSample_of_not_isFinite (hf : IsNaN f ∨ IsInfinite f) : floatToSample .binary32 scale limit f = none := by
  obtain hnan | hinf := hf
  · exact floatToSample_of_isNaN hnan
  have hsum : IsInfinite (scaledSum .binary32 scale f) :=
    isInfinite_add (isInfinite_mul (isInfinite_add hinf realValue_one.1) h.factor.1
      (zero_lt_one.trans_le h.one_le_factor).ne') realValue_floatHalf.1
  rw [h.floatToSample_eq ((not_isNaN_iff f).2 (.inr hinf))]
  exact if_pos (wholePart_outside_of_isInfinite h.limit_lt hsum)

/-- The rule of the float-to-sample commands (R113, R115), each operation rounded separately, for a command that answers
`raised` where the formula gives no sample and `done t` where it gives `t`. -/
theorem answer_follows_formula {α : Type} {o raised : α} {done : Nat → α}
    (hnone : floatToSample .binary32 scale limit f = none → o = raised)
    (hsome : ∀ t, floatToSample .binary32 scale limit f = some t → o = done t) :
    ((IsNaN f ∨ IsInfinite f) → o = raised) ∧
    (IsFinite f → ∃ p m y : Word32,
      RoundsTo (realValue f + 1) p ∧ IsFinite p ∧ RoundsTo (realValue p * scale) m ∧
      (IsInfinite m → o = raised) ∧
      (IsFinite m → RoundsTo (realValue m + 1 / 2) y ∧ IsFinite y ∧
        if truncToward (realValue y) < 0 ∨ (limit : ℤ) < truncToward (realValue y) then o = raised
        else o = done (truncToward (realValue y)).toNat)) := by
  refine ⟨fun hf => hnone (h.floatToSample_of_not_isFinite hf), fun hf => ?_⟩
  obtain ⟨hone, hone'⟩ := realValue_one
  obtain ⟨hhalf, hhalf'⟩ := realValue_floatHalf
  have hsample := h.floatToSample_eq ((not_isNaN_iff f).2 (.inl hf))
  have hp := roundsTo_add hf hone
  have hpfin := isFinite_add hf hone abs_one_le
  have hm := roundsTo_mul hpfin h.factor.1
  rw [hone'] at hp
  rw [h.factor.2] at hm
  refine ⟨_, _, scaledSum .binary32 scale f, hp, hpfin, hm, fun hinf => hnone ?_, fun hmfin => ?_⟩
  · exact hsample.trans (if_pos (wholePart_outside_of_isInfinite h.limit_lt (isInfinite_add hinf hhalf)))
  · have hy := roundsTo_add hmfin hhalf
    rw [hhalf'] at hy
    refine ⟨hy, isFinite_add hmfin hhalf abs_floatHalf_le, ?_⟩
    rw [truncToward_realValue]
    split
    · next hout => exact hnone (hsample.trans (if_pos hout))
    · next hin => exact hsome _ (hsample.trans (if_neg hin))

end Scaling

/-- The operands from `-lo` to `hi`, by the magnitudes of their patterns, are all that complete: the formula leaves the
range 0 to `limit` right outside them. -/
structure Ends (scale limit lo hi : Nat) : Prop extends Scaling scale limit where
  lo_lt : lo < 255 * 2 ^ 23
  hi_lt : hi < 255 * 2 ^ 23
  first : 0 ≤ sampleOf scale (binary32.pattern true lo)
  last : sampleOf scale (binary32.pattern false hi) ≤ limit
  below : sampleOf scale (binary32.pattern true (lo + 1)) < 0
  above : limit < sampleOf scale (binary32.pattern false (hi + 1))

namespace Ends

/-- The operands of FTOS12 (R113). -/
theorem ftos12 : Ends 2048 4096 0x3F8017FF 0x3F8007FE where
  toScaling := .ftos12
  lo_lt := by decide
  hi_lt := by decide
  first := by decide +kernel
  last := by decide +kernel
  below := by decide +kernel
  above := by decide +kernel

/-- The operands of FTOS16 (R115). -/
theorem ftos16 : Ends 32767 65535 0x3F800180 0x3F80017E where
  toScaling := .ftos16
  lo_lt := by decide
  hi_lt := by decide
  first := by decide +kernel
  last := by decide +kernel
  below := by decide +kernel
  above := by decide +kernel

variable {scale limit lo hi : Nat} {f : Word32} (h : Ends scale limit lo hi)
include h

theorem completes (hin : f.toNat ≤ hi ∨ 2 ^ 31 ≤ f.toNat ∧ f.toNat ≤ 2 ^ 31 + lo) :
    ∃ t ≤ limit, floatToSample .binary32 scale limit f = some t := by
  have hlo := h.lo_lt
  have hhi := h.hi_lt
  obtain ⟨hlow, hhigh⟩ := (rank_mem_iff f (by omega) (by omega)).1 hin
  have hf : ¬IsNaN f := (not_isNaN_iff_rank f).2 (by omega)
  have hfirst := h.first.trans (h.sampleOf_mono (not_isNaN_pattern true hlo.le) hf
    (units_mono ((rank_pattern true (by omega)).trans_le hlow)))
  have hlast := (h.sampleOf_mono hf (not_isNaN_pattern false hhi.le)
    (units_mono (hhigh.trans_eq (rank_pattern false (by omega)).symm))).trans h.last
  exact ⟨_, by omega, (h.floatToSample_eq hf).trans (if_neg (by omega))⟩

theorem faults (hout : ¬(f.toNat ≤ hi ∨ 2 ^ 31 ≤ f.toNat ∧ f.toNat ≤ 2 ^ 31 + lo)) :
    floatToSample .binary32 scale limit f = none := by
  have hlo := h.lo_lt
  have hhi := h.hi_lt
  by_cases hf : IsNaN f
  · exact floatToSample_of_isNaN hf
  rw [rank_mem_iff f (by omega) (by omega)] at hout
  obtain hlow | hhigh : rank f ≤ -(lo + 1 : Nat) ∨ ((hi + 1 : Nat) : ℤ) ≤ rank f := by omega
  · have hbelow := (h.sampleOf_mono hf (not_isNaN_pattern true hlo)
      (units_mono (hlow.trans_eq (rank_pattern true (by omega)).symm))).trans_lt h.below
    exact (h.floatToSample_eq hf).trans (if_pos (.inl hbelow))
  · have habove := h.above.trans_le (h.sampleOf_mono (not_isNaN_pattern false hhi) hf
      (units_mono ((rank_pattern false (by omega)).trans_le hhigh)))
    exact (h.floatToSample_eq hf).trans (if_pos (.inr habove))

/-- A command completes exactly on these operands if it answers `raised` where the formula gives no sample and `done t`
where it gives `t`. -/
theorem answer_completes_exactly {α : Type} {o raised : α} {done : Word32 → α}
    (hnone : floatToSample .binary32 scale limit f = none → o = raised)
    (hsome : ∀ t, floatToSample .binary32 scale limit f = some t → o = done (BitVec.ofNat 32 t)) :
    ((f.toNat ≤ hi ∨ 2 ^ 31 ≤ f.toNat ∧ f.toNat ≤ 2 ^ 31 + lo) → ∃ v : Word32, o = done v ∧ v.toNat ≤ limit) ∧
    (¬(f.toNat ≤ hi ∨ 2 ^ 31 ≤ f.toNat ∧ f.toNat ≤ 2 ^ 31 + lo) → o = raised) := by
  refine ⟨fun hin => ?_, fun hout => hnone (h.faults hout)⟩
  obtain ⟨t, hle, ht⟩ := h.completes hin
  refine ⟨_, hsome t ht, ?_⟩
  rwa [BitVec.toNat_ofNat, Nat.mod_eq_of_lt (hle.trans_lt h.limit_lt)]

end Ends

namespace Scaling

variable {scale limit : Nat} {f : Word32} (h : Scaling scale limit)
include h

/-- An operand with a zero exponent field lies between the two least normal floats, and gives what they give. -/
theorem floatToSample_of_expField_zero {v : Nat} (hf : expField f = 0) (hv : v ≤ limit)
    (hneg : sampleOf scale (binary32.pattern true (2 ^ 23)) = v)
    (hpos : sampleOf scale (binary32.pattern false (2 ^ 23)) = v) :
    floatToSample .binary32 scale limit f = some v := by
  have hrank : (rank f).natAbs < 2 ^ 23 := by
    rw [expField_eq] at hf
    rw [rank, natAbs_signedUnits]
    omega
  have hnan : ¬IsNaN f := (not_isNaN_iff_rank f).2 (by omega)
  have hlow : rank (binary32.pattern true (2 ^ 23)) ≤ rank f := by
    rw [rank_pattern true (by decide), signedUnits, if_pos rfl]
    omega
  have hhigh : rank f ≤ rank (binary32.pattern false (2 ^ 23)) := by
    rw [rank_pattern false (by decide), signedUnits, if_neg Bool.false_ne_true]
    omega
  have hsample : sampleOf scale f = v := le_antisymm
    ((h.sampleOf_mono hnan (not_isNaN_pattern false (by decide)) (units_mono hhigh)).trans_eq hpos)
    (hneg.symm.trans_le (h.sampleOf_mono (not_isNaN_pattern true (by decide)) hnan (units_mono hlow)))
  rw [h.floatToSample_eq hnan, hsample, if_neg (by omega), Int.toNat_natCast]

/-! ### The error of the float-to-sample formulas -/

/-- The three roundings of a float-to-sample formula move the sum by less than 1/64. -/
theorem scaledSum_near (hf : IsFinite f) (hrange : |realValue f + 1| ≤ 7 / 2) :
    |realValue (scaledSum .binary32 scale f) - ((realValue f + 1) * scale + 1 / 2)| ≤ 1 / 64 := by
  obtain ⟨hone, hone'⟩ := realValue_one
  obtain ⟨hfac, hfac'⟩ := h.factor
  obtain ⟨hhalf, hhalf'⟩ := realValue_floatHalf
  have hscale : (scale : ℚ) ≤ 32767 := mod_cast h.le
  have hp := roundsTo_add hf hone
  rw [hone'] at hp
  obtain ⟨hp, hperr⟩ := hp.near (e := 2) (by decide) (by linarith)
  have hm := roundsTo_mul hp hfac
  rw [hfac'] at hm
  have hperr' : |realValue (binary32.add f (binary32.ofNat 1)) * scale - (realValue f + 1) * scale| ≤ 1 / 256 := by
    rw [← sub_mul, abs_mul, Nat.abs_cast]
    calc _ ≤ (2 ^ 2 / 2 ^ 25 : ℚ) * 32767 := by gcongr
      _ ≤ _ := by norm_num
  have hprod : |(realValue f + 1) * scale| ≤ 7 / 2 * 32767 := by
    rw [abs_mul, Nat.abs_cast]
    gcongr
  rw [abs_le] at hperr' hprod
  obtain ⟨hm, hmerr⟩ := hm.near (e := 17) (by decide) (by rw [abs_lt]; constructor <;> linarith)
  have hy := roundsTo_add hm hhalf
  rw [hhalf'] at hy
  rw [abs_le] at hmerr
  obtain ⟨-, hyerr⟩ := hy.near (e := 17) (by decide) (by rw [abs_lt]; constructor <;> linarith)
  rw [abs_le] at hyerr ⊢
  rw [scaledSum]
  constructor <;> linarith

/-- The integer of the formula is near to what the sum is on the real numbers before 0.5 is added. -/
theorem floatToSample_near (hf : IsFinite f) (hrange : |realValue f + 1| ≤ 7 / 2)
    (hlow : -(1 / 64) ≤ (realValue f + 1) * scale) (hhigh : (realValue f + 1) * scale ≤ limit + 1 / 64) :
    ∃ t : Nat, floatToSample .binary32 scale limit f = some t ∧ |(t : ℚ) - (realValue f + 1) * scale| ≤ 33 / 64 := by
  have hsum := h.scaledSum_near hf hrange
  rw [abs_le] at hsum
  have hfloor : sampleOf scale f = ⌊realValue (scaledSum .binary32 scale f)⌋ := by
    rw [sampleOf, ← truncToward_realValue, truncToward, if_pos (by linarith)]
  have hle := Int.floor_le (realValue (scaledSum .binary32 scale f))
  have hlt := Int.lt_floor_add_one (realValue (scaledSum .binary32 scale f))
  rw [← hfloor] at hle hlt
  have hnonneg : 0 ≤ sampleOf scale f := Int.lt_add_one_iff.1 (by
    have : (0 : ℚ) < sampleOf scale f + 1 := by linarith
    exact_mod_cast this)
  have hlimit : sampleOf scale f ≤ limit := Int.lt_add_one_iff.1 (by
    have : (sampleOf scale f : ℚ) < limit + 1 := by linarith
    exact_mod_cast this)
  refine ⟨_, (h.floatToSample_eq ((not_isNaN_iff f).2 (.inl hf))).trans (if_neg (by omega)), ?_⟩
  have hcast : ((sampleOf scale f).toNat : ℚ) = sampleOf scale f := mod_cast Int.toNat_of_nonneg hnonneg
  rw [hcast, abs_le]
  constructor <;> linarith

/-- A float near enough to the one of a sample gives that sample. -/
theorem floatToSample_of_near {s : Nat} (hf : IsFinite f) (hs : s ≤ 2 * scale + 1) (hle : s ≤ limit)
    (hnear : |realValue f - ((s : ℚ) / scale - 1)| ≤ 1 / 2 ^ 22) :
    floatToSample .binary32 scale limit f = some s := by
  have hscale : (scale : ℚ) ≤ 32767 := mod_cast h.le
  have hpos : (0 : ℚ) < scale := mod_cast h.pos
  have hquot : (s : ℚ) / scale ≤ 3 := by
    rw [div_le_iff₀ hpos]
    exact_mod_cast (show s ≤ 3 * scale by have := h.pos; omega)
  have hquot' : (0 : ℚ) ≤ s / scale := by positivity
  have hprod : |(realValue f + 1) * scale - s| ≤ 1 / 64 := by
    have hfactor : (realValue f + 1) * scale - s = (realValue f - ((s : ℚ) / scale - 1)) * scale := by
      field_simp
      ring
    rw [hfactor, abs_mul, Nat.abs_cast]
    calc _ ≤ (1 / 2 ^ 22 : ℚ) * 32767 := by gcongr
      _ ≤ _ := by norm_num
  have hs0 : (0 : ℚ) ≤ s := s.cast_nonneg
  have hle' : (s : ℚ) ≤ limit := mod_cast hle
  rw [abs_le] at hnear hprod
  have hrange : |realValue f + 1| ≤ 7 / 2 := by
    rw [abs_le]
    constructor <;> linarith
  obtain ⟨t, ht, hdist⟩ := h.floatToSample_near hf hrange (by linarith) (by linarith)
  rw [abs_le] at hdist
  have hlow : (s : ℚ) < t + 1 := by linarith
  have hhigh : (t : ℚ) < s + 1 := by linarith
  obtain rfl : t = s := Nat.le_antisymm (Nat.lt_succ_iff.1 (mod_cast hhigh)) (Nat.lt_succ_iff.1 (mod_cast hlow))
  exact ht

end Scaling

/-- S12TOF and then FTOS16 (R118 (a)): near to `s * 32767 / 2048`. -/
theorem floatToSample16_sample12ToFloat (size : Nat) {s : Nat} (hs : s ≤ 4095) :
    ∃ t : Nat, floatToSample .binary32 32767 65535 (sample12ToFloat (.ofSize size) s) = some t ∧
      |(t : ℚ) - (s : ℚ) / 2048 * 32767| ≤ 33 / 64 := by
  obtain ⟨hfin, hvalue⟩ := sample12ToFloat_exact size hs
  have hs' : (s : ℚ) ≤ 4095 := mod_cast hs
  have hs0 : (0 : ℚ) ≤ s := s.cast_nonneg
  have hsum : realValue (sample12ToFloat (.ofSize size) s) + 1 = (s : ℚ) / 2048 := by
    rw [hvalue]
    ring
  have hnear := Scaling.ftos16.floatToSample_near hfin
  rw [hsum, Nat.cast_ofNat, Nat.cast_ofNat] at hnear
  exact hnear (by rw [abs_le]; constructor <;> linarith) (by linarith) (by linarith)

/-- S16TOF and then FTOS12 is non-decreasing, as both are. -/
theorem sampleOf_sample16ToFloat_mono (size size' : Nat) {s t : Nat} (hst : s ≤ t) (ht : t ≤ 65535) :
    sampleOf 2048 (sample16ToFloat (.ofSize size) s) ≤ sampleOf 2048 (sample16ToFloat (.ofSize size') t) := by
  have hnan (size : Nat) {s : Nat} (hs : s ≤ 65535) : ¬IsNaN (sample16ToFloat (.ofSize size) s) := by
    obtain ⟨_, -, -, -, hfin, -⟩ := sample16ToFloat_rounds size hs
    exact (not_isNaN_iff _).2 (.inl hfin)
  exact Scaling.ftos12.sampleOf_mono (hnan size (hst.trans ht)) (hnan size' ht)
    (units_sample16ToFloat_mono size size' hst ht)

/-- S16TOF and then FTOS12 at the ends of the range and where 4096 is first given (R118 (b)). -/
theorem sampleOf_sample16ToFloat_ends :
    sampleOf 2048 (sample16ToFloat (.ofSize 0) 0) = 0 ∧ sampleOf 2048 (sample16ToFloat (.ofSize 0) 65525) = 4095 ∧
      sampleOf 2048 (sample16ToFloat (.ofSize 0) 65526) = 4096 ∧
      sampleOf 2048 (sample16ToFloat (.ofSize 0) 65535) = 4096 := by decide +kernel

theorem floatToSample12_sample16ToFloat (size : Nat) {s : Nat} (hs : s ≤ 65535) :
    ∃ t ≤ 4096, floatToSample .binary32 2048 4096 (sample16ToFloat (.ofSize size) s) = some t ∧
      sampleOf 2048 (sample16ToFloat (.ofSize size) s) = t ∧ (t = 4096 ↔ 65526 ≤ s) := by
  obtain ⟨hfirst, hbefore, hstep, hlast⟩ := sampleOf_sample16ToFloat_ends
  obtain ⟨_, -, -, -, hfin, -⟩ := sample16ToFloat_rounds size hs
  have hlow := sampleOf_sample16ToFloat_mono 0 size s.zero_le hs
  have hhigh := sampleOf_sample16ToFloat_mono size 0 hs le_rfl
  have hbelow (h : s ≤ 65525) := sampleOf_sample16ToFloat_mono size 0 h (by decide)
  have habove (h : 65526 ≤ s) := sampleOf_sample16ToFloat_mono 0 size h hs
  rw [hfirst] at hlow
  rw [hlast] at hhigh
  rw [hbefore] at hbelow
  rw [hstep] at habove
  have hsample := Scaling.ftos12.floatToSample_eq ((not_isNaN_iff _).2 (.inl hfin))
  exact ⟨_, by omega, hsample.trans (if_neg (by omega)), by omega, by omega⟩

end Sys2Proof.FloatFormat
end

section
/-! The float-to-sample commands on a state whose `ACC` was written before (42_quantizer.md R117, R118). -/

namespace Sys2Proof.Machine

variable (s : State) {p : Word32} {t : Nat}

theorem exec_ftos12_setAcc (h : floatToSample .binary32 2048 4096 p = some t) :
    exec .ftos12 (s.setAcc p) = .next (s.setAcc (BitVec.ofNat 32 t)) := execFtos12_some (s := s.setAcc p) h

theorem exec_ftos16_setAcc (h : floatToSample .binary32 32767 65535 p = some t) :
    exec .ftos16 (s.setAcc p) = .next (s.setAcc (BitVec.ofNat 32 t)) := execFtos16_some (s := s.setAcc p) h

theorem State.setAcc_ofNat_acc : s.setAcc (BitVec.ofNat 32 s.acc.toNat) = s := by
  rw [BitVec.ofNat_toNat, BitVec.setWidth_eq]
  rfl

theorem State.toNat_acc_setAcc_ofNat (h : t < 2 ^ 32) : (s.setAcc (BitVec.ofNat 32 t)).acc.toNat = t :=
  Nat.mod_eq_of_lt h

end Sys2Proof.Machine
end

section
/-! The statements of 42_quantizer.md. -/

namespace Sys2Proof.Proofs

open Sys2Proof.Machine Sys2Proof.FloatMeaning Sys2Proof.FloatFormat

/-- Settles O43: each operation is one `round` of the exact quotient of units, which is to nearest with ties to even; a
whole number below 2^24 is a value of the format, and so its own rounding. -/
theorem floatOperationsRoundToNearestEven : Obligations.FloatOperationsRoundToNearestEven := by
  obtain ⟨hone, hhalf, h2048, h32767⟩ := constant_patterns
  exact fun _ => ⟨fun _ _ ha hb => ⟨roundsTo_add ha hb, roundsTo_sub ha hb, roundsTo_mul ha hb, roundsTo_div ha hb⟩,
    hone, hhalf, h2048, h32767, fun _ hn => realValue_ofNat hn.le⟩

/-- Settles O44: the difference and the quotient are values of the format, so neither is rounded. -/
theorem s12tofIsExact : Obligations.S12tofIsExact := by
  refine fun s => ⟨fun hs => ?_, fun hs => execS12tof_outside hs⟩
  obtain ⟨hfin, hvalue⟩ := sample12ToFloat_exact s.bufBytes hs
  exact ⟨_, execS12tof_inside hs, hfin, hvalue, sample12ToFloat_ne_negZero s.bufBytes hs⟩

/-- Settles O45: the two roundings, whose results are below the overflow threshold. -/
theorem s16tofRoundsTwice : Obligations.S16tofRoundsTwice := by
  refine fun s => ⟨fun hs => ?_, fun hs => execS16tof_outside hs⟩
  obtain ⟨q, hq, hp, hqfin, hpfin, -⟩ := sample16ToFloat_rounds s.bufBytes hs
  exact ⟨q, _, execS16tof_inside hs, hq, hp, hqfin, hpfin, sample16ToFloat_ne_negZero s.bufBytes hs⟩

/-- Settles O46: the three roundings of the formula, the range test, and the fault of an infinite sum. -/
theorem ftos12FollowsTheFormula : Obligations.Ftos12FollowsTheFormula :=
  fun s => Scaling.ftos12.answer_follows_formula (f := s.acc) execFtos12_none fun _ => execFtos12_some

/-- Settles O47, as O46 with the other scale and limit. -/
theorem ftos16FollowsTheFormula : Obligations.Ftos16FollowsTheFormula :=
  fun s => Scaling.ftos16.answer_follows_formula (f := s.acc) execFtos16_none fun _ => execFtos16_some

/-- Settles O48: the formula is non-decreasing, and leaves the range right outside the ends. -/
theorem ftos12CompletesExactlyOnItsPatterns : Obligations.Ftos12CompletesExactlyOnItsPatterns :=
  fun s => Ends.ftos12.answer_completes_exactly (f := s.acc) execFtos12_none fun _ => execFtos12_some

/-- Settles O49, as O48 with the other scale, limit and ends. -/
theorem ftos16CompletesExactlyOnItsPatterns : Obligations.Ftos16CompletesExactlyOnItsPatterns :=
  fun s => Ends.ftos16.answer_completes_exactly (f := s.acc) execFtos16_none fun _ => execFtos16_some

/-- Settles O50: the formula is non-decreasing, and gives the same sample at the least normal floats of either sign. -/
theorem zerosAndSubnormalsAreAbsorbed : Obligations.ZerosAndSubnormalsAreAbsorbed := by
  refine fun s hs => ⟨execFtos12_some ?_, execFtos16_some ?_⟩
  · exact Scaling.ftos12.floatToSample_of_expField_zero hs (by decide) (by decide +kernel) (by decide +kernel)
  · exact Scaling.ftos16.floatToSample_of_expField_zero hs (by decide) (by decide +kernel) (by decide +kernel)

/-- Settles O51: the float of a sample is so near to the exact one that the sum truncates to the sample. -/
theorem sampleRoundTripsAreExact : Obligations.SampleRoundTripsAreExact := by
  refine ⟨fun s hs => ⟨_, execS12tof_inside hs, ?_⟩, fun s hs => ⟨_, execS16tof_inside hs, ?_⟩⟩
  · obtain ⟨hfin, hvalue⟩ := sample12ToFloat_exact s.bufBytes hs
    have hback := Scaling.ftos12.floatToSample_of_near (s := s.acc.toNat) hfin (by omega) (by omega)
      (by rw [hvalue]; norm_num [sub_div])
    exact (exec_ftos12_setAcc s hback).trans (congrArg _ s.setAcc_ofNat_acc)
  · obtain ⟨q, -, -, -, hfin, hnear⟩ := sample16ToFloat_rounds s.bufBytes hs
    have hback := Scaling.ftos16.floatToSample_of_near (s := s.acc.toNat) hfin hs hs hnear
    exact (exec_ftos16_setAcc s hback).trans (congrArg _ s.setAcc_ofNat_acc)

/-- Settles O52: the result is within 33/64 of `s * 32767 / 2048`, which rises by more than 15 from one sample to the
next. -/
theorem sample12ToSample16IsStrictlyIncreasing : Obligations.Sample12ToSample16IsStrictlyIncreasing := by
  intro s s' hlt hs'
  have hs : s.acc.toNat ≤ 4095 := by omega
  obtain ⟨t, ht, hnear⟩ := floatToSample16_sample12ToFloat s.bufBytes hs
  obtain ⟨t', ht', hnear'⟩ := floatToSample16_sample12ToFloat s'.bufBytes hs'
  rw [abs_le] at hnear hnear'
  have hstep : (s.acc.toNat : ℚ) + 1 ≤ s'.acc.toNat := mod_cast hlt
  have hmax : (s'.acc.toNat : ℚ) ≤ 4095 := mod_cast hs'
  have htt' : (t : ℚ) < t' := by linarith
  have hlast : (t' : ℚ) < (65519 : Nat) := by push_cast; linarith
  rw [Nat.cast_lt] at htt' hlast
  refine ⟨_, _, _, _, execS12tof_inside hs, exec_ftos16_setAcc s ht, execS12tof_inside hs', exec_ftos16_setAcc s' ht',
    rfl, rfl, ?_⟩
  rw [s.toNat_acc_setAcc_ofNat (by omega), s'.toNat_acc_setAcc_ofNat (by omega)]
  omega

/-- Settles O53: both conversions are non-decreasing, and the composed one steps from 4095 to 4096 at 65526. -/
theorem sample16ToSample12IsNondecreasing : Obligations.Sample16ToSample12IsNondecreasing := by
  intro s s' hle hs'
  have hs : s.acc.toNat ≤ 65535 := by omega
  obtain ⟨t, htmax, ht, hsample, -⟩ := floatToSample12_sample16ToFloat s.bufBytes hs
  obtain ⟨t', htmax', ht', hsample', hfull⟩ := floatToSample12_sample16ToFloat s'.bufBytes hs'
  have hmono := sampleOf_sample16ToFloat_mono s.bufBytes s'.bufBytes hle hs'
  rw [hsample, hsample', Nat.cast_le] at hmono
  refine ⟨_, _, _, _, execS16tof_inside hs, exec_ftos12_setAcc s ht, execS16tof_inside hs', exec_ftos12_setAcc s' ht',
    rfl, rfl, ?_⟩
  rw [s.toNat_acc_setAcc_ofNat (by omega), s'.toNat_acc_setAcc_ofNat (by omega)]
  exact ⟨hmono, htmax', hfull⟩

end Sys2Proof.Proofs
end

section
/-! The packed layout of a group of modem bytes (43_bridge_sequences.md R131) and the preconditions of the two bridge calls
as arithmetic (R133, R136, R141). -/

namespace Sys2Proof.Machine

namespace State

/-- A byte is the reversal of the byte that has its bit-in-byte index `j` as bit `j` (20_memory.md R40). -/
theorem readByte_eq_reverse {s : State} {i : Nat} {v : Byte} (h : ∀ j < 8, s.bitRead (8 * i + j) = v.getLsbD j) :
    s.readByte i = v.reverse := by
  refine BitVec.eq_of_getLsbD_eq fun k hk => ?_
  have hbit := h (7 - k) (by omega)
  have hbyte : (8 * i + (7 - k)) / 8 = i := by omega
  have hindex : 7 - (8 * i + (7 - k)) % 8 = k := by omega
  rw [bitRead_eq_getLsbD, hbyte, hindex] at hbit
  rw [BitVec.getLsbD_reverse, BitVec.getMsbD_eq_getLsbD, decide_eq_true hk, Bool.true_and, hbit]

/-- The bits of a group written with two samples (R131): the bits of `x`, then the bits of `y`. -/
theorem bitRead_fieldWrite_group (s : State) (m : Nat) (x y : Word32) {j : Nat} (hj : j < 24) :
    ((s.fieldWrite (8 * m) x 12).fieldWrite (8 * m + 12) y 12).bitRead (8 * m + j) =
      if j < 12 then x.getLsbD j else y.getLsbD (j - 12) := by
  rw [bitRead_fieldWrite, bitRead_fieldWrite]
  by_cases h : j < 12
  · rw [if_neg (by omega), if_pos (by omega), if_pos h, Nat.add_sub_cancel_left]
  · rw [if_pos (by omega), if_neg h, Nat.add_sub_add_left]

/-- The three bytes of a group written with two samples (R131): eight of the 24 bits to a byte. -/
theorem readByte_fieldWrite_group (s : State) (m : Nat) (x y : Word32) :
    let u := (s.fieldWrite (8 * m) x 12).fieldWrite (8 * m + 12) y 12
    u.readByte m = (x.extractLsb' 0 8).reverse ∧
      u.readByte (m + 1) = (x.extractLsb' 8 4).reverse ++ (y.extractLsb' 0 4).reverse ∧
      u.readByte (m + 2) = (y.extractLsb' 4 8).reverse := by
  intro u
  have hbit (k j : Nat) (hj : 8 * k + j < 24) :
      u.bitRead (8 * (m + k) + j) = if 8 * k + j < 12 then x.getLsbD (8 * k + j) else y.getLsbD (8 * k + j - 12) := by
    rw [Nat.mul_add, Nat.add_assoc]
    exact s.bitRead_fieldWrite_group m x y hj
  have hmiddle : (x.extractLsb' 8 4).reverse ++ (y.extractLsb' 0 4).reverse =
      (y.extractLsb' 0 4 ++ x.extractLsb' 8 4).reverse := BitVec.reverse_append.symm
  rw [hmiddle]
  refine ⟨readByte_eq_reverse fun j hj => ?first, readByte_eq_reverse fun j hj => ?middle,
    readByte_eq_reverse fun j hj => ?last⟩
  case first =>
    rw [BitVec.getLsbD_extractLsb', decide_eq_true hj, Bool.true_and]
    exact (hbit 0 j (by omega)).trans (if_pos (by omega))
  case middle =>
    rw [hbit 1 j (by omega), BitVec.getLsbD_append, BitVec.getLsbD_extractLsb', BitVec.getLsbD_extractLsb']
    by_cases h4 : j < 4
    · rw [if_pos (by omega), if_pos h4, decide_eq_true h4, Bool.true_and]
    · rw [if_neg (by omega), if_neg h4, decide_eq_true (by omega), Bool.true_and]
      congr 1
      omega
  case last =>
    rw [hbit 2 j (by omega), if_neg (by omega), BitVec.getLsbD_extractLsb', decide_eq_true hj, Bool.true_and]
    congr 1
    omega

end State

section

variable {size : Nat}

theorem wellFormed_ofSize : (Config.ofSize size).wellFormed = true ↔ 3 ≤ size ∧ size ≤ 8192 :=
  State.cfg_wellFormed { State.reset with bufBytes := size }

theorem regionInside_ofSize {a n : Nat} : regionInside (.ofSize size) a n = true ↔ n = 0 ∨ a + n ≤ size := by
  rw [regionInside, Bool.or_eq_true, decide_eq_true_iff, decide_eq_true_iff]
  rfl

theorem regionsDisjoint_iff {a n b m : Nat} : regionsDisjoint a n b m = true ↔ a + n ≤ b ∨ b + m ≤ a := by
  rw [regionsDisjoint, Bool.or_eq_true, decide_eq_true_iff, decide_eq_true_iff]

/-- The preconditions of M2N (R133, R135); the bound of R140 on its samples follows from that on its bytes. -/
theorem m2nPre_iff {mb nb n : Nat} :
    m2nPre (.ofSize size) mb nb n = true ↔ (3 ≤ size ∧ size ≤ 8192) ∧
      0 < n ∧ n % 3 = 0 ∧ n ≤ 255 ∧ mb + n ≤ size ∧ nb + 4 * n / 3 ≤ size ∧
        (mb + n ≤ nb ∨ nb + 4 * n / 3 ≤ mb) := by
  have hgroup : (Config.ofSize size).groupBytes = 3 := rfl
  have hbytes : (Config.ofSize size).mdmMaxBytes = 255 := rfl
  have hsamples : (Config.ofSize size).maxSamples = 170 := rfl
  simp only [m2nPre, Bool.and_eq_true, decide_eq_true_eq, wellFormed_ofSize, regionInside_ofSize, regionsDisjoint_iff,
    m2nNetBytes, pairBytes_ofSize, m2nSamples_ofSize, hgroup, hbytes, hsamples]
  omega

/-- N2M of no bytes has empty regions, and so no precondition on a block of legal size (R136). -/
theorem n2mPre_zero {nb mb : Nat} : n2mPre (.ofSize size) nb mb 0 = true ↔ 3 ≤ size ∧ size ≤ 8192 := by
  simp [n2mPre, wellFormed_ofSize, regionInside_ofSize, regionsDisjoint_iff, modemBytes, n2mSamples_ofSize, Nat.le_total]

theorem n2mCommands_zero (nb mb : Nat) : n2mCommands (.ofSize size) nb mb 0 = [] := by
  rw [n2mCommands, n2mSamples_ofSize]
  rfl

/-- The preconditions of N2M of some bytes (R136, R141), likewise. -/
theorem n2mPre_iff {nb mb k : Nat} (hk : 0 < k) :
    n2mPre (.ofSize size) nb mb k = true ↔ (3 ≤ size ∧ size ≤ 8192) ∧
      k % 2 = 0 ∧ k ≤ 270 ∧ nb + k ≤ size ∧ mb + (12 * (k / 2) + 7) / 8 ≤ size ∧
        (nb + k ≤ mb ∨ mb + (12 * (k / 2) + 7) / 8 ≤ nb) := by
  have hbytes : (Config.ofSize size).netInReq = 270 := rfl
  have hsamples : (Config.ofSize size).maxSamples = 170 := rfl
  have hbits : (Config.ofSize size).s12Bits = 12 := rfl
  simp only [n2mPre, Bool.and_eq_true, decide_eq_true_eq, wellFormed_ofSize, regionInside_ofSize, regionsDisjoint_iff,
    modemBytes, pairBytes_ofSize, n2mSamples_ofSize, hbytes, hsamples, hbits]
  omega

end

theorem expand_isSome_iff {c : Config} {p : Pseudo} : (expand c p).isSome ↔ p.wellFormed c = true := by
  rw [expand]
  split <;> simp [*]

end Sys2Proof.Machine
end

section
/-! The runs of the two bridge sequences (43_bridge_sequences.md R133, R134, R136 to R138): what one loop body leaves, and
what the bodies so far have left. -/

namespace Sys2Proof.Machine

open Sys2Proof.FloatFormat

/-! ### Runs of commands -/

@[simp] theorem State.bitRead_respond (s : State) (b : Nat) : s.respond.bitRead b = s.bitRead b := rfl

@[simp] theorem State.fieldRead_respond (s : State) (a n : Nat) : s.respond.fieldRead a n = s.fieldRead a n :=
  State.fieldRead_congr (s := s) (t := s.respond) rfl rfl a n

theorem runInstrs_cons {i : Instr} {s t : State} (is : List Instr) (h : exec i s = .next t) (hst : s.st = 0) :
    runInstrs (i :: is) s = runInstrs is t.respond :=
  runWords_cons_of_command _ (by rw [command_legal hst (decode_encode i), h, returning_next])

theorem runInstrs_append {is : List Instr} {s t : State} (js : List Instr) (h : runInstrs is s = .next t) :
    runInstrs (is ++ js) s = runInstrs js t := by
  induction is generalizing s with
  | nil => cases h; rfl
  | cons i is ih =>
    rw [List.cons_append]
    simp only [runInstrs, List.map_cons, runWords] at h ih ⊢
    cases hc : command (encode i) s with
    | next u => rw [hc] at h; exact ih h
    | fault => simp [hc] at h
    | refused => simp [hc] at h

/-- A run over loop bodies: what holds at the start, and is taken by each body from its index to the next one, holds at
the end. -/
theorem runInstrs_loop {body : Nat → List Instr} {P : Nat → State → Prop} {s : State} (n : Nat) (hstart : P 0 s)
    (hbody : ∀ j < n, ∀ t, P j t → ∃ u, runInstrs (body j) t = .next u ∧ P (j + 1) u) :
    ∃ t, runInstrs ((List.range n).flatMap body) s = .next t ∧ P n t := by
  induction n with
  | zero => exact ⟨s, rfl, hstart⟩
  | succ n ih =>
    obtain ⟨t, ht, hP⟩ := ih fun j hj => hbody j (Nat.lt_succ_of_lt hj)
    obtain ⟨u, hu, hP'⟩ := hbody n (Nat.lt_succ_self n) t hP
    refine ⟨u, ?_, hP'⟩
    rw [List.range_succ, List.flatMap_append, List.flatMap_singleton, runInstrs_append _ ht, hu]

/-! ### The commands of the loop bodies -/

section

variable {s : State} {a : Nat} (hfit : a < 65536) (hinside : a + 2 ≤ s.bufBytes)
include hfit hinside

theorem exec_ldh_pair :
    exec (.ldh (BitVec.ofNat 16 a)) s = .next (s.setAcc ((s.readByte a ++ s.readByte (a + 1)).setWidth 32)) := by
  have ha : (BitVec.ofNat 16 a).toNat = a := Nat.mod_eq_of_lt hfit
  have h := execLdh_inside (s := s) (a := BitVec.ofNat 16 a) (by rw [ha]; exact hinside)
  rwa [ha] at h

theorem exec_sth_pair :
    exec (.sth (BitVec.ofNat 16 a)) s = .next (s.writeBytes a (sample16Bytes .bigEndian s.accSample16)) := by
  have ha : (BitVec.ofNat 16 a).toNat = a := Nat.mod_eq_of_lt hfit
  have h := execSth_inside (s := s) (a := BitVec.ofNat 16 a) (by rw [ha]; exact hinside)
  rwa [ha] at h

end

theorem exec_ftos12_setAcc_respond {s : State} {p : Word32} {v : Nat} (h : floatToSample12 s.cfg p = some v) :
    exec .ftos12 (s.setAcc p).respond = .next ((s.setAcc p).respond.setAcc (BitVec.ofNat 32 v)) := execFtos12_some h

theorem exec_ftos16_setAcc_respond {s : State} {p : Word32} {v : Nat} (h : floatToSample16 s.cfg p = some v) :
    exec .ftos16 (s.setAcc p).respond = .next ((s.setAcc p).respond.setAcc (BitVec.ofNat 32 v)) := execFtos16_some h

/-! ### What a part of a bridge sequence leaves -/

/-- The fault record, `CTRL` and the parameter, which no part of a bridge sequence writes. -/
structure KeepsRecord (s t : State) : Prop where
  st : t.st = s.st
  fcmd : t.fcmd = s.fcmd
  ctrl : t.ctrl = s.ctrl
  bufBytes : t.bufBytes = s.bufBytes

theorem KeepsRecord.refl (s : State) : KeepsRecord s s := ⟨rfl, rfl, rfl, rfl⟩

theorem KeepsRecord.trans {s t u : State} (h : KeepsRecord s t) (h' : KeepsRecord t u) : KeepsRecord s u :=
  ⟨h'.st.trans h.st, h'.fcmd.trans h.fcmd, h'.ctrl.trans h.ctrl, h'.bufBytes.trans h.bufBytes⟩

/-- The Sample16 `v` stands in `ACC` and, big-endian, in the pair at `a`, and no other byte differs (R133). -/
structure StoresSample16 (a v : Nat) (s t : State) : Prop extends KeepsRecord s t where
  acc : t.acc.toNat = v
  high : (t.readByte a).toNat = v / 256
  low : (t.readByte (a + 1)).toNat = v % 256
  others : ∀ i, i ≠ a → i ≠ a + 1 → t.readByte i = s.readByte i

/-- The low twelve bits of `v` stand in the field at `b`, and no other bit differs (R136, R138). -/
structure StoresSample12 (b v : Nat) (s t : State) : Prop extends KeepsRecord s t where
  field : (t.fieldRead b 12).toNat = v % 4096
  others : ∀ c, c < b ∨ b + 12 ≤ c → t.bitRead c = s.bitRead c

/-- STH of a Sample16 in `ACC`, whatever stood there and was answered before, stores it. -/
theorem storesSample16_writeBytes (s : State) (a : Nat) {v : Nat} (hv : v < 65536) (rs : List Response) :
    let r : State := { s with acc := BitVec.ofNat 32 v, responses := rs }
    StoresSample16 a v s (r.writeBytes a (sample16Bytes .bigEndian r.accSample16)).respond := by
  intro r
  have hacc : r.acc.toNat = v := Nat.mod_eq_of_lt (hv.trans (by decide))
  have hread (i : Nat) := r.readByte_writeBytes_accPair a i
  refine ⟨⟨?_, ?_, ?_, ?_⟩, ?acc, ?high, ?low, fun i hhigh hlow => ?others⟩
  case acc => rw [State.respond_acc, State.writeBytes_acc, hacc]
  case high =>
    rw [State.readByte_respond, hread, if_pos rfl, BitVec.extractLsb'_toNat, Nat.shiftRight_eq_div_pow, hacc]
    omega
  case low =>
    rw [State.readByte_respond, hread, if_neg (by omega), if_pos rfl, BitVec.extractLsb'_toNat, Nat.shiftRight_zero, hacc]
  case others =>
    rw [State.readByte_respond, hread, if_neg hhigh, if_neg hlow]
    rfl
  all_goals simp [r]

/-- WRFLD of an integer in `ACC`, likewise, stores its low twelve bits. -/
theorem storesSample12_fieldWrite (s : State) (b : Nat) {v : Nat} (hv : v < 2 ^ 32) (rs : List Response) :
    let r : State := { s with acc := BitVec.ofNat 32 v, responses := rs }
    StoresSample12 b v s (r.fieldWrite b r.acc 12).respond := by
  intro r
  have hacc : r.acc.toNat = v := Nat.mod_eq_of_lt hv
  refine ⟨⟨?_, ?_, ?_, ?_⟩, ?field, fun c hc => ?others⟩
  case field => rw [State.fieldRead_respond, State.fieldRead_fieldWrite_self _ _ _ (by decide), hacc]; rfl
  case others =>
    rw [State.bitRead_respond, State.bitRead_fieldWrite, if_neg (by omega)]
    rfl
  all_goals simp [r]

/-! ### The loop bodies -/

/-- A command that loads `ACC`, and then one that loads it again: only the second value, and the responses, are left. -/
theorem runInstrs_cons_cons_setAcc {i j : Instr} {s : State} {p q : Word32} (is : List Instr) (hst : s.st = 0)
    (hi : exec i s = .next (s.setAcc p))
    (hj : exec j (s.setAcc p).respond = .next ((s.setAcc p).respond.setAcc q)) :
    ∃ rs, runInstrs (i :: j :: is) s = runInstrs is { s with acc := q, responses := rs } :=
  ⟨_, (runInstrs_cons (j :: is) hi hst).trans (runInstrs_cons is hj hst)⟩

/-- S12TOF and FTOS16 on a Sample12 in `ACC` leave its Sample16 there (R118 (a)), and write nothing else. -/
theorem runInstrs_s12tos16 {s : State} (is : List Instr) (hst : s.st = 0) (hacc : s.acc.toNat ≤ 4095) :
    ∃ v ≤ 65518, floatToSample16 s.cfg (sample12ToFloat s.cfg s.acc.toNat) = some v ∧
      ∃ rs, runInstrs (.s12tof :: .ftos16 :: is) s =
        runInstrs is { s with acc := BitVec.ofNat 32 v, responses := rs } := by
  obtain ⟨v, hv, hnear⟩ := floatToSample16_sample12ToFloat s.bufBytes hacc
  have hmax : v < 65519 := by
    have hacc' : (s.acc.toNat : ℚ) ≤ 4095 := mod_cast hacc
    rw [abs_le] at hnear
    have hv' : (v : ℚ) < 65519 := by linarith
    exact_mod_cast hv'
  exact ⟨v, Nat.le_of_lt_succ hmax, hv,
    runInstrs_cons_cons_setAcc is hst (execS12tof_inside hacc) (exec_ftos16_setAcc_respond hv)⟩

/-- S16TOF and FTOS12 on a Sample16 in `ACC` leave its Sample12, or 4096, there (R118 (b)), and write nothing else. -/
theorem runInstrs_s16tos12 {s : State} (is : List Instr) (hst : s.st = 0) (hacc : s.acc.toNat ≤ 65535) :
    ∃ v ≤ 4096, floatToSample12 s.cfg (sample16ToFloat s.cfg s.acc.toNat) = some v ∧
      ∃ rs, runInstrs (.s16tof :: .ftos12 :: is) s =
        runInstrs is { s with acc := BitVec.ofNat 32 v, responses := rs } := by
  obtain ⟨v, hmax, hv, -⟩ := floatToSample12_sample16ToFloat s.bufBytes hacc
  exact ⟨v, hmax, hv,
    runInstrs_cons_cons_setAcc is hst (execS16tof_inside hacc) (exec_ftos12_setAcc_respond hv)⟩

section

variable {s : State} {a b : Nat} (hst : s.st = 0) (hbit : b < 65536) (hfield : b + 12 ≤ 8 * s.bufBytes)
  (hbyte : a < 65536) (hpair : a + 2 ≤ s.bufBytes)
include hst hbit hfield hbyte hpair

/-- One body of M2N: the four commands complete, and the sample at `b` goes to the pair at `a` (R133). -/
theorem runInstrs_m2nBody :
    ∃ v ≤ 65518, floatToSample16 s.cfg (sample12ToFloat s.cfg (s.fieldRead b 12).toNat) = some v ∧
      ∃ t, runInstrs [.rdfld (BitVec.ofNat 16 b) 12, .s12tof, .ftos16, .sth (BitVec.ofNat 16 a)] s = .next t ∧
        StoresSample16 a v s t := by
  have hsample : (s.fieldRead b 12).toNat ≤ 4095 := Nat.le_of_lt_succ (s.fieldRead_toNat_lt b (by decide))
  obtain ⟨v, hmax, hv, rs, hconv⟩ := runInstrs_s12tos16 (s := (s.setAcc (s.fieldRead b 12)).respond)
    [.sth (BitVec.ofNat 16 a)] hst hsample
  refine ⟨v, hmax, hv, _, ?_, storesSample16_writeBytes s a (by omega) rs⟩
  rw [runInstrs_cons _ (exec_rdfld_sample12 hbit hfield) hst, hconv]
  exact runInstrs_cons [] (exec_sth_pair hbyte hpair) hst

/-- One body of N2M: the four commands complete, and the pair at `a` goes to the sample at `b` (R136). -/
theorem runInstrs_n2mBody :
    ∃ v ≤ 4096,
      floatToSample12 s.cfg (sample16ToFloat s.cfg (256 * (s.readByte a).toNat + (s.readByte (a + 1)).toNat)) = some v ∧
      ∃ t, runInstrs [.ldh (BitVec.ofNat 16 a), .s16tof, .ftos12, .wrfld (BitVec.ofNat 16 b) 12] s = .next t ∧
        StoresSample12 b v s t := by
  have hword := toNat_pairWord (s.readByte a) (s.readByte (a + 1))
  obtain ⟨v, hmax, hv, rs, hconv⟩ := runInstrs_s16tos12 [.wrfld (BitVec.ofNat 16 b) 12]
    (s := (s.setAcc ((s.readByte a ++ s.readByte (a + 1)).setWidth 32)).respond) hst
    (by rw [State.respond_acc, State.setAcc_acc]; omega)
  refine ⟨v, hmax, hword ▸ hv, _, ?_, storesSample12_fieldWrite s b (by omega) rs⟩
  rw [runInstrs_cons _ (exec_ldh_pair hbyte hpair) hst, hconv]
  exact runInstrs_cons [] (exec_wrfld_sample12 hbit hfield) hst

end

/-! ### The loops -/

/-- What the first `j` bodies of M2N have left (R133): the Sample16 of each of their samples, and every other byte. -/
structure M2nDone (mb nb j : Nat) (s t : State) : Prop extends KeepsRecord s t where
  pairs : ∀ k < j, ∃ v ≤ 65518,
    floatToSample16 s.cfg (sample12ToFloat s.cfg (s.fieldRead (8 * mb + 12 * k) 12).toNat) = some v ∧
      (t.readByte (nb + 2 * k)).toNat = v / 256 ∧ (t.readByte (nb + 2 * k + 1)).toNat = v % 256 ∧
      (k + 1 = j → t.acc.toNat = v)
  others : ∀ i, i < nb ∨ nb + 2 * j ≤ i → t.readByte i = s.readByte i

/-- What the first `j` bodies of N2M have left (R136, R138): the sample of each of their pairs, and every other bit. -/
structure N2mDone (nb mb j : Nat) (s t : State) : Prop extends KeepsRecord s t where
  samples : ∀ i < j, ∃ v ≤ 4096,
    floatToSample12 s.cfg (sample16ToFloat s.cfg
      (256 * (s.readByte (nb + 2 * i)).toNat + (s.readByte (nb + 2 * i + 1)).toNat)) = some v ∧
      (t.fieldRead (8 * mb + 12 * i) 12).toNat = v % 4096
  others : ∀ b, b < 8 * mb ∨ 8 * mb + 12 * j ≤ b → t.bitRead b = s.bitRead b

theorem M2nDone.zero (mb nb : Nat) (s : State) : M2nDone mb nb 0 s s :=
  ⟨.refl s, fun k hk => absurd hk k.not_lt_zero, fun _ _ => rfl⟩

theorem N2mDone.zero (nb mb : Nat) (s : State) : N2mDone nb mb 0 s s :=
  ⟨.refl s, fun i hi => absurd hi i.not_lt_zero, fun _ _ => rfl⟩

/-- A body of M2N reads a sample of the modem region, which the bodies before it have not written, and adds its pair. -/
theorem M2nDone.body {s t : State} {mb nb n j : Nat} (hst : s.st = 0) (hpre : m2nPre s.cfg mb nb n = true)
    (hj : j < 2 * n / 3) (h : M2nDone mb nb j s t) :
    ∃ u, runInstrs (m2nBody s.cfg mb nb j) t = .next u ∧ M2nDone mb nb (j + 1) s u := by
  obtain ⟨⟨-, hsize⟩, -, hgroups, -, hmodem, hnet, hdisjoint⟩ := m2nPre_iff.1 hpre
  have hbytes := h.bufBytes
  obtain ⟨v, hv, hconv, u, hrun, hstore⟩ := runInstrs_m2nBody (s := t) (a := nb + 2 * j) (b := 8 * mb + 12 * j)
    (h.st.trans hst) (by omega) (by omega) (by omega) (by omega)
  have hsample : t.fieldRead (8 * mb + 12 * j) 12 = s.fieldRead (8 * mb + 12 * j) 12 :=
    State.fieldRead_eq_of_bitRead (by decide) fun i hi => by
      rw [State.bitRead_eq_getLsbD, State.bitRead_eq_getLsbD, h.others _ (by omega)]
  rw [hsample, State.cfg_congr hbytes] at hconv
  refine ⟨u, (congrArg (runInstrs · t) (m2nBody_ofSize s.bufBytes mb nb j)).trans hrun,
    h.toKeepsRecord.trans hstore.toKeepsRecord, fun k hk => ?_, fun i hi => ?_⟩
  · rcases Nat.lt_succ_iff_lt_or_eq.1 hk with hlt | rfl
    · obtain ⟨w, hw, hconv', hhigh, hlow, -⟩ := h.pairs k hlt
      refine ⟨w, hw, hconv', ?_, ?_, fun hlast => by omega⟩
      · rw [hstore.others _ (by omega) (by omega), hhigh]
      · rw [hstore.others _ (by omega) (by omega), hlow]
    · exact ⟨v, hv, hconv, hstore.high, hstore.low, fun _ => hstore.acc⟩
  · rw [hstore.others i (by omega) (by omega), h.others i (by omega)]

/-- A body of N2M reads a pair of the network region, which the bodies before it have not written, and adds its sample. -/
theorem N2mDone.body {s t : State} {nb mb k j : Nat} (hst : s.st = 0) (hpre : n2mPre s.cfg nb mb k = true)
    (hj : j < k / 2) (h : N2mDone nb mb j s t) :
    ∃ u, runInstrs (n2mBody s.cfg nb mb j) t = .next u ∧ N2mDone nb mb (j + 1) s u := by
  obtain ⟨⟨-, hsize⟩, -, -, hnet, hmodem, hdisjoint⟩ := (n2mPre_iff (by omega)).1 hpre
  have hbytes := h.bufBytes
  obtain ⟨v, hv, hconv, u, hrun, hstore⟩ := runInstrs_n2mBody (s := t) (a := nb + 2 * j) (b := 8 * mb + 12 * j)
    (h.st.trans hst) (by omega) (by omega) (by omega) (by omega)
  have hpair (i : Nat) (hi : i < 2) : t.readByte (nb + 2 * j + i) = s.readByte (nb + 2 * j + i) :=
    State.readByte_eq_of_bitRead fun b hb => h.others b (by omega)
  rw [hpair 1 (by decide), ← Nat.add_zero (nb + 2 * j), hpair 0 (by decide), State.cfg_congr hbytes] at hconv
  refine ⟨u, (congrArg (runInstrs · t) (n2mBody_ofSize s.bufBytes nb mb j)).trans hrun,
    h.toKeepsRecord.trans hstore.toKeepsRecord, fun i hi => ?_, fun b hb => ?_⟩
  · rcases Nat.lt_succ_iff_lt_or_eq.1 hi with hlt | rfl
    · obtain ⟨w, hw, hconv', hfield⟩ := h.samples i hlt
      refine ⟨w, hw, hconv', ?_⟩
      rw [State.fieldRead_eq_of_bitRead (by decide) fun c hc => hstore.others _ (by omega), hfield]
    · exact ⟨v, hv, hconv, hstore.field⟩
  · rw [hstore.others b (by omega), h.others b (by omega)]

end Sys2Proof.Machine
end

section
/-! The statements of 43_bridge_sequences.md. -/

namespace Sys2Proof.Proofs

open Sys2Proof.Machine

/-- Settles O35: the two commands are two field writes, and the 24 bits of the group are those of `x` and then those of
`y`. -/
theorem packedGroupHasTheTabledLayout : Obligations.PackedGroupHasTheTabledLayout := by
  intro s m x y hm hfit
  have hgroup := (s.setAcc x).readByte_fieldWrite_group m x y
  exact ⟨_, _, exec_wrfld_sample12 (s := s.setAcc x) (by omega) (by simp; omega),
    exec_wrfld_sample12 (s := State.setAcc _ y) hfit (by simp; omega), by simpa using hgroup⟩

/-- Settles O57, by the loop: each body adds one pair, and the bodies together write the network region. -/
theorem m2nConvertsModemBytesToNetworkBytes : Obligations.M2nConvertsModemBytesToNetworkBytes := by
  intro s mb nb n hst hpre
  obtain ⟨-, -, hgroups, -⟩ := m2nPre_iff.1 hpre
  obtain ⟨t, hrun, hdone⟩ := runInstrs_loop (P := fun j => M2nDone mb nb j s) (2 * n / 3) (.zero mb nb s)
    fun j hj _ h => h.body hst hpre hj
  exact ⟨t, hrun, hdone.st.trans hst, hdone.fcmd, hdone.ctrl, hdone.pairs, fun i hi => hdone.others i (by omega)⟩

/-- Settles O58, by the loop: each body adds one sample, and the bodies together write the `12 * S` bits. -/
theorem n2mConvertsNetworkBytesToModemBytes : Obligations.N2mConvertsNetworkBytesToModemBytes := by
  intro s nb mb k hst hpre
  have hcount : readModemCount s.cfg k = k / 2 := n2mSamples_ofSize s.bufBytes k
  obtain ⟨t, hrun, hdone⟩ := runInstrs_loop (P := fun j => N2mDone nb mb j s) (readModemCount s.cfg k) (.zero nb mb s)
    fun j hj _ h => h.body hst hpre (hcount ▸ hj)
  exact ⟨t, hrun, hdone.st.trans hst, hdone.fcmd, hdone.ctrl, hdone.samples, hdone.others⟩

/-- Settles O59: a bridge call expands exactly where its preconditions hold, and these are the arithmetic of the regions. -/
theorem bridgeCallsExpandExactlyUnderTheirPreconditions : Obligations.BridgeCallsExpandExactlyUnderTheirPreconditions := by
  refine fun size hmin hmax => ⟨fun mb nb n => ?m2n, fun nb mb k hk => ?n2m, fun nb mb => ?empty⟩
  case m2n => exact expand_isSome_iff.trans (m2nPre_iff.trans (and_iff_right ⟨hmin, hmax⟩))
  case n2m => exact expand_isSome_iff.trans ((n2mPre_iff hk).trans (and_iff_right ⟨hmin, hmax⟩))
  case empty =>
    have hpre : n2mPre (.ofSize size) nb mb 0 = true := n2mPre_zero.2 ⟨hmin, hmax⟩
    exact (expand_of_wellFormed (p := .n2m nb mb 0) hpre).trans (by rw [pseudoCommands, n2mCommands_zero])

end Sys2Proof.Proofs
end

section
/-! The statements of 44_control.md, with the meaning of the control commands by their operations on the state. -/

namespace Sys2Proof.Machine

/-- NOP (R150). -/
theorem exec_nop (s : State) : exec .nop s = .next s := rfl

/-- TICK (R153): the hook does nothing with `ACC`. -/
theorem exec_tick (s : State) : exec .tick s = .next s := rfl

/-- LDI (R151). -/
theorem exec_ldi (d : BitVec 32) (s : State) : exec (.ldi d) s = .next (s.setAcc d) := rfl

/-- SETEN (R152). -/
theorem exec_seten (s : State) : exec .seten s = .next (s.setCtrl (ctrlOfEn s.accBit)) := rfl

/-- The two values of `CTRL` (R27). -/
theorem ctrlOfEn_eq_ite (en : BitVec 1) : ctrlOfEn en = if en == 1 then 0x01 else 0x00 := by
  revert en
  decide

/-- The only word of a command that encodes as `v` is `v`. -/
theorem decode_eq_ok_iff_eq {i : Instr} {v : CommandWord} (hv : encode i = v) (w : CommandWord) :
    decode w = .ok i ↔ w = v := by
  rw [decode_eq_ok_iff, hv, eq_comm]

end Sys2Proof.Machine

namespace Sys2Proof.Proofs

open Sys2Proof.Machine

/-- Settles O24: both commands answer the state they start from, and each is decoded from its encoding alone. -/
theorem nopAndTickLeaveTheState : Obligations.NopAndTickLeaveTheState := by
  refine ⟨fun s => ⟨exec_nop s, exec_tick s⟩, fun w => ⟨?nopWord, ?tickWord⟩⟩
  case nopWord => exact decode_eq_ok_iff_eq (i := .nop) (by decide) w
  case tickWord => exact decode_eq_ok_iff_eq (i := .tick) (by decide) w

/-- Settles O25: LDI is one write of `ACC`. -/
theorem ldiLoadsTheImmediate : Obligations.LdiLoadsTheImmediate :=
  fun s d => exec_ldi d s

/-- Settles O26: SETEN is one write of `CTRL`, with the value that has `ACC[0]` as its `EN` bit. -/
theorem setenWritesTheEnableFlag : Obligations.SetenWritesTheEnableFlag := by
  intro s
  have hctrl : ctrlOfEn s.accBit = if s.acc.getLsbD 0 then 0x01 else 0x00 := by
    rw [ctrlOfEn_eq_ite, s.accBit_eq_one]
  rw [exec_seten, hctrl, State.setCtrl]

end Sys2Proof.Proofs
end

section
/-! The fault rules of 60_exceptions.md: which cause the cause table names (R161 to R164), which flag a command can set
(R165), and what a command word does on either side of the halt test (R167). -/

namespace Sys2Proof

/-- The opcode map and the decoder agree on which words are legal (30_encoding.md R64, R65). -/
theorem exists_row_iff_legal (w : CommandWord) :
    (∃ r ∈ opcodeMap, w &&& r.mask = r.pattern) ↔ ∃ i, decode w = .ok i := by
  obtain ⟨i, hw, r, hr, -, honly⟩ | ⟨hw, -, hnone⟩ | ⟨hw, -, hnone⟩ :=
    Proofs.decodingIsTotalAndFollowsTheOpcodeMap w
  · exact iff_of_true ⟨r, hr, (honly r hr).2 rfl⟩ ⟨i, hw⟩
  all_goals exact iff_of_false (fun ⟨r, hr, hmatch⟩ => hnone r hr hmatch) (by simp [hw])

end Sys2Proof

namespace Sys2Proof.Safety

open Sys2Proof.Machine

/-! ### The cause table -/

section
variable {c : Config} {acc : Word32} {i : Instr}

theorem faultOf_ne_illegalCommand : faultOf c acc i ≠ some .illegalCommand := by
  rw [faultOf]
  split_ifs <;> simp

theorem faultOf_eq_widthFault_iff : faultOf c acc i = some .widthFault ↔ widthOffends i = true := by
  rw [faultOf]
  split_ifs with hwidth <;> simp [hwidth]

/-- The width is tested before the range (60_exceptions.md R164). -/
theorem faultOf_eq_outOfRange_iff :
    faultOf c acc i = some .outOfRange ↔ rangeOffends c.bufBytes i = true ∧ widthOffends i = false := by
  rw [faultOf]
  split_ifs with hwidth hrange <;> simp_all

end

/-- The commands whose width can offend (60_exceptions.md R162). -/
theorem widthOffends_iff {i : Instr} :
    widthOffends i = true ↔
      ∃ (a : BitVec 16) (w : BitVec 8), (i = .rdfld a w ∨ i = .wrfld a w) ∧ (w.toNat = 0 ∨ 32 < w.toNat) := by
  cases i <;> simp [widthOffends]

end Sys2Proof.Safety

namespace Sys2Proof.Machine

open Sys2Proof.Safety

/-! ### The fault entry -/

/-- No two causes share a bit of `ST` (60_exceptions.md R168). -/
theorem FaultCause.eq_of_code_bit {cause cause' : FaultCause} {k : Nat} (h : cause.code.getLsbD k = true)
    (h' : cause'.code.getLsbD k = true) : cause = cause' := by
  have hdisjoint : cause ≠ cause' → cause.code &&& cause'.code = 0 := by
    cases cause <;> cases cause' <;> decide
  by_contra hne
  have hbit := congrArg (·.getLsbD k) (hdisjoint hne)
  simp [h, h'] at hbit

/-- Raising a fault halts the block (60_exceptions.md R165). -/
theorem State.halted_raise (s : State) (cause : FaultCause) (w : CommandWord) : (s.raise cause w).halted = true :=
  bne_iff_ne.2 fun h => cause.code_ne_zero (BitVec.or_eq_zero_iff.1 h).2

section
variable {i : Instr} {s t : State} {w : CommandWord}

/-- Where the cause table names a cause, the effect is the fault entry for it. -/
theorem Effect.eq_raise (he : Effect i s t) {cause : FaultCause} (h : faultOf s.cfg s.acc i = some cause) :
    t = s.raise cause (encode i) := by
  cases he with
  | fault raised hraised => rw [Option.some.inj (hraised.symm.trans h)]
  | nothing hnone | acc _ hnone | enable _ hnone | bit _ _ _ hnone | field _ _ _ hnone | bytes _ _ _ hnone =>
    cases hnone.symm.trans h

/-- Where the cause table names no cause, the effect keeps the fault record. -/
theorem Effect.keeps_record (he : Effect i s t) (h : faultOf s.cfg s.acc i = none) :
    t.st = s.st ∧ t.fcmd = s.fcmd := by
  obtain ⟨cause, hcause, -⟩ | hkeep := he.faults_or_keeps_record
  · cases h.symm.trans hcause
  · exact hkeep

/-- A command that sets a flag has the cause whose flag it is. -/
theorem Effect.faultOf_of_flag_set (he : Effect i s t) {k : Nat} (hclear : s.st.getLsbD k = false)
    (hset : t.st.getLsbD k = true) {cause : FaultCause} (hk : cause.code.getLsbD k = true) :
    faultOf s.cfg s.acc i = some cause := by
  obtain ⟨raised, hraised, rfl⟩ | ⟨hkeep, -⟩ := he.faults_or_keeps_record
  · have hcode : raised.code.getLsbD k = true := by simpa [hclear] using hset
    rw [hraised, FaultCause.eq_of_code_bit hcode hk]
  · rw [hkeep, hclear] at hset
    cases hset

theorem exec_eq_raise {cause : FaultCause} (h : faultOf s.cfg s.acc i = some cause) :
    exec i s = .next (s.raise cause (encode i)) := by
  obtain ⟨t, ht, he⟩ := exec_effect i s
  rw [ht, he.eq_raise h]

theorem exec_of_widthOffends (h : widthOffends i = true) : exec i s = .next (s.raise .widthFault (encode i)) :=
  exec_eq_raise (faultOf_eq_widthFault_iff.2 h)

theorem exec_of_rangeOffends (hwidth : widthOffends i = false) (hrange : rangeOffends s.bufBytes i = true) :
    exec i s = .next (s.raise .outOfRange (encode i)) :=
  exec_eq_raise (faultOf_eq_outOfRange_iff.2 ⟨hrange, hwidth⟩)

/-! ### A command word -/

/-- A legal word on a block that is not halted runs its command and returns the response (60_exceptions.md R164). -/
theorem command_of_exec (hst : s.st = 0) (hw : decode w = .ok i) (h : exec i s = .next t) :
    command w s = .next t.respond := by
  rw [command_legal hst hw, h, returning_next]

/-- No legal word sets `ST.ILL` (60_exceptions.md R161). -/
theorem stIll_of_command_legal (hst : s.st = 0) (hw : decode w = .ok i) (h : command w s = .next t) :
    t.stIll = false := by
  obtain ⟨u, hu, he⟩ := exec_effect i s
  cases (command_of_exec hst hw hu).symm.trans h
  have hclear : s.st.getLsbD 0 = false := by simp [hst]
  exact Bool.eq_false_iff.2 fun hset => faultOf_ne_illegalCommand (he.faultOf_of_flag_set hclear hset rfl)

end

end Sys2Proof.Machine
end

section
/-! The statements of 60_exceptions.md. -/

namespace Sys2Proof.Proofs

open Sys2Proof.Machine Sys2Proof.Safety

/-- Settles O5: the word of no row is refused by the decoder and raises the fault; the word of a row is legal, and the
cause table names `IllegalCommand` for no command. -/
theorem illegalWordRaisesIllegalCommand : Obligations.IllegalWordRaisesIllegalCommand := by
  intro s w rest hpending hst
  have htaken : State.st { s with pending := rest } = 0 := hst
  refine ⟨fun hnone => ?illegal, fun hrow t hstep => ?legal⟩
  case illegal =>
    cases hw : decode w with
    | ok i =>
      obtain ⟨r, hr, hmatch⟩ := (exists_row_iff_legal w).2 ⟨i, hw⟩
      exact absurd hmatch (hnone r hr)
    | error why =>
      rw [step_command hpending, command_illegal htaken hw, State.respond_raise htaken]
      rfl
  case legal =>
    obtain ⟨i, hw⟩ := (exists_row_iff_legal w).1 hrow
    exact stIll_of_command_legal htaken hw ((step_command hpending).symm.trans hstep)

/-- Settles O11, by induction on the words: each returns the response, which changes nothing that the next one reads. -/
theorem haltedRunRepeatsItsResponse : Obligations.HaltedRunRepeatsItsResponse := by
  intro ws
  induction ws with
  | nil =>
    intro s _
    simp [runWords]
  | cons w ws ih =>
    intro s hst
    rw [runWords_cons_of_command ws (command_halted hst w), ih s.respond hst]
    simp [State.respond, State.response, List.replicate_succ]

/-- Settles O21: the fault entry records the encoding of the command, which is the presented word. -/
theorem legalWordFaultsByTheCauseTable : Obligations.LegalWordFaultsByTheCauseTable := by
  intro s w i hst hw
  obtain ⟨t, ht, he⟩ := exec_effect i s
  have hcommand := command_of_exec hst hw ht
  cases hfault : faultOf s.cfg s.acc i with
  | none =>
    obtain ⟨hkeepSt, hkeepFcmd⟩ := he.keeps_record hfault
    exact ⟨_, hcommand, hkeepSt.trans hst, hkeepFcmd⟩
  | some cause =>
    rw [he.eq_raise hfault, State.respond_raise hst, encode_of_decode hw] at hcommand
    exact hcommand

/-- Settles O22, by the cause table: only RDFLD and WRFLD have a width. -/
theorem widthFaultIsForIllegalWidthsOnly : Obligations.WidthFaultIsForIllegalWidthsOnly := by
  refine ⟨fun s a w hwidth => ?raises, fun s t i hclear h hset => ?only⟩
  case raises => exact ⟨exec_of_widthOffends (decide_eq_true hwidth), exec_of_widthOffends (decide_eq_true hwidth)⟩
  case only =>
    have hfault := (effect_of_exec h).faultOf_of_flag_set (cause := .widthFault) hclear hset rfl
    exact widthOffends_iff.1 (faultOf_eq_widthFault_iff.1 hfault)

/-- Settles O23, by the cause table, whose sums are sums of natural numbers. -/
theorem outOfRangeIsForAccessesBeyondBufOnly : Obligations.OutOfRangeIsForAccessesBeyondBufOnly := by
  refine ⟨fun s a h => ?bits, fun s a w hmin hmax h => ?fields, fun s a h => ?bytes, fun s a h => ?pairs,
    fun s t i hclear h hset => ?only⟩
  case fields =>
    have hlegal : decide (w.toNat = 0 ∨ 32 < w.toNat) = false := decide_eq_false (by omega)
    exact ⟨exec_of_rangeOffends hlegal (decide_eq_true h), exec_of_rangeOffends hlegal (decide_eq_true h)⟩
  case only =>
    have hfault := (effect_of_exec h).faultOf_of_flag_set (cause := .outOfRange) hclear hset rfl
    exact faultOf_eq_outOfRange_iff.1 hfault
  case bits | bytes | pairs =>
    exact ⟨exec_of_rangeOffends rfl (decide_eq_true h), exec_of_rangeOffends rfl (decide_eq_true h)⟩

/-- Settles O3: the step takes the word, and the word is legal on a block that is not halted. -/
theorem stepRunsTheDecodedCommand : Obligations.StepRunsTheDecodedCommand :=
  fun _ _ _ _ _ hpending hst hw hexec => (step_command hpending).trans (command_of_exec hst hw hexec)

/-- Settles O4: the step takes the word, and the halt test stands before the decode test. -/
theorem haltedBlockIgnoresEveryWord : Obligations.HaltedBlockIgnoresEveryWord :=
  fun s w rest hpending hst => (step_command hpending).trans (command_halted (s := { s with pending := rest }) hst w)

/-- Settles O20: the fault entry writes `ST` and `FCMD`, and no cause has the code zero. -/
theorem raiseRecordsTheCauseAndTheWord : Obligations.RaiseRecordsTheCauseAndTheWord :=
  fun s cmd => ⟨rfl, rfl, rfl, rfl, fun cause => ⟨rfl, s.halted_raise cause cmd⟩⟩

end Sys2Proof.Proofs
end

section
/-! The operands of one sample (42_quantizer.md R113, R115), and a field written with a value whose low bits are zero
(40_bitfield.md R85). -/

namespace Sys2Proof.FloatFormat

open Sys2Proof.Machine Sys2Proof.FloatMeaning

/-- The formula is non-decreasing, so every positive operand between two that give the sample `v` gives it too. -/
theorem Scaling.floatToSample_of_toNat_mem_Icc {scale limit lo hi v : Nat} (h : Scaling scale limit) {f : Word32}
    (hf : f.toNat ∈ Set.Icc lo hi) (hhi : hi ≤ 255 * 2 ^ 23) (hv : v ≤ limit)
    (hfirst : sampleOf scale (binary32.pattern false lo) = v)
    (hlast : sampleOf scale (binary32.pattern false hi) = v) : floatToSample .binary32 scale limit f = some v := by
  obtain ⟨hlow, hhigh⟩ := hf
  have hrank : rank f = f.toNat := by rw [rank_eq, if_neg (by omega)]
  have hend {mag : Nat} (hmag : mag ≤ hi) : rank (binary32.pattern false mag) = mag := rank_pattern false (by omega)
  have hnan : ¬IsNaN f := (not_isNaN_iff_rank f).2 (by omega)
  have hge := h.sampleOf_mono (not_isNaN_pattern false (by omega)) hnan
    (units_mono (p := binary32.pattern false lo) (by rw [hend (hlow.trans hhigh), hrank]; omega))
  have hle := h.sampleOf_mono hnan (not_isNaN_pattern false hhi)
    (units_mono (q := binary32.pattern false hi) (by rw [hend le_rfl, hrank]; omega))
  have hsample : sampleOf scale f = v := le_antisymm (hle.trans_eq hlast) (hfirst.symm.trans_le hge)
  rw [h.floatToSample_eq hnan, hsample, if_neg (by omega), Int.toNat_natCast]

/-- The operands of FTOS12 that give 4096 (70_reset_and_hazards.md R198). -/
theorem floatToSample12_fullScale {f : Word32} (hf : f.toNat ∈ Set.Icc 0x3F7FEFFF 0x3F8007FE) :
    floatToSample .binary32 2048 4096 f = some 4096 :=
  Scaling.ftos12.floatToSample_of_toNat_mem_Icc hf (by decide) le_rfl (by decide +kernel) (by decide +kernel)

end Sys2Proof.FloatFormat

namespace Sys2Proof.Machine

/-- A field written with a value whose low bits are zero reads as zero (R87 (c)). -/
theorem State.fieldRead_fieldWrite_eq_zero (s : State) (a : Nat) {v : Word32} {n : Nat} (hn : n ≤ 32)
    (hv : v.toNat % 2 ^ n = 0) : (s.fieldWrite a v n).fieldRead a n = 0 :=
  BitVec.eq_of_toNat_eq ((s.fieldRead_fieldWrite_self a v hn).trans hv)

end Sys2Proof.Machine
end

section
/-! The statements of 70_reset_and_hazards.md. -/

namespace Sys2Proof.Proofs

open Sys2Proof.Machine Sys2Proof.FloatFormat

/-- Settles O54: FTOS12 gives 4096 at both ends of the range and so in between, and the low twelve bits of 4096 are
zero. -/
theorem fullScaleWrapsToZero : Obligations.FullScaleWrapsToZero := by
  intro s a hlow hhigh hfit
  have hdropped : (4096 : Word32).toNat % 2 ^ (12 : BitVec 8).toNat = 0 := by decide
  exact ⟨_, _, execFtos12_some (floatToSample12_fullScale ⟨hlow, hhigh⟩), execWrfld_inside (by decide) hfit,
    execRdfld_inside (by decide) (by simpa using hfit), State.fieldRead_fieldWrite_eq_zero _ _ (by decide) hdropped⟩

/-- Settles O1: no cell of `BUF` is listed in the reset state. -/
theorem resetStateHasRegistersZeroAndBufUnspecified : Obligations.ResetStateHasRegistersZeroAndBufUnspecified :=
  ⟨rfl, rfl, rfl, rfl, fun _ => rfl⟩

/-- Settles O2: the step takes the move and resets, which does not ask whether the block is halted; the new draw is the
next one. -/
theorem hostResetRestoresResetState : Obligations.HostResetRestoresResetState :=
  fun s rest hpending => ⟨_, step_reset hpending, rfl, Nat.succ_ne_self s.draw,
    State.readByte_takeReset { s with pending := rest }⟩

end Sys2Proof.Proofs
end
